-- ==== Sys2Proof/Word.lean ====
section
/-! DEFINITION. The word types of the core and its fixed-size tables.

The core's values are bytes, 32-bit registers and 64-bit counters (00_scope.md R9, R12), and binary64 values held
as their 64-bit IEEE patterns (R15).  Its windows (FREQ, CODE, QM, COEF, QBLK) are tables of a fixed number of like
cells; `Tab` is such a table, a list that carries its length. -/

namespace Sys2Proof

/-- One byte: a DMEM cell, a QBLK cell, an error code (R102, R74, R44). -/
abbrev Byte := BitVec 8

/-- A host-visible register, 32 bits (R9 'register width'). -/
abbrev Word := BitVec 32

/-- A 64-bit counter seen by the host as two registers (R54, R59, R61). -/
abbrev DWord := BitVec 64

/-- A binary64 value as its 64-bit IEEE pattern (R15). -/
abbrev F64 := BitVec 64

/-- The low half of a 64-bit value, as the host sees it at the lower offset (R54, R73). -/
def DWord.lo (x : DWord) : Word := x.extractLsb' 0 32

/-- The high half of a 64-bit value (R54, R73). -/
def DWord.hi (x : DWord) : Word := x.extractLsb' 32 32

/-- A table of `n` cells. -/
structure Tab (α : Type) (n : Nat) where
  /-- the cells, cell 0 first -/
  cells : List α
  /-- there are exactly `n` of them -/
  size_eq : cells.length = n
  deriving DecidableEq, Repr

namespace Tab

variable {α β : Type} {n : Nat}

/-- The table whose cell `i` is `f i`. -/
def ofFn (f : Fin n → α) : Tab α n := ⟨List.ofFn f, List.length_ofFn⟩

/-- The table with `v` in every cell. -/
def fill (n : Nat) (v : α) : Tab α n := ⟨List.replicate n v, List.length_replicate⟩

/-- Cell `i`. -/
def get (t : Tab α n) (i : Fin n) : α := t.cells[i.val]'(by rw [t.size_eq]; exact i.isLt)

/-- The table with `v` written into cell `i`. -/
def set (t : Tab α n) (i : Fin n) (v : α) : Tab α n :=
  ⟨t.cells.set i.val v, by rw [List.length_set]; exact t.size_eq⟩

end Tab

end Sys2Proof
end

