-- ==== Sys2Proof/Config.lean ====
section
/-! DEFINITION. What an implementation fixes, and what nobody fixes.

`Params` holds the OPEN parameters of 00_scope.md R9, each of which 'a model takes as an argument': State carries them as plain
data that no step changes, so every claim is about every choice of them.  The `opaque` constants are the FREE VALUES:
what the spec leaves as a draw 'under no law' (00_scope.md R21).  They have no body, so no proof can see a value. -/

namespace Sys2Proof

/-- How RECON converts a clamped sample (R9 `RECON_ROUND`, 40_transform.md R208). -/
inductive RoundMode where
  /-- nearest integer, ties to the even one -/
  | nearestEven
  /-- toward zero -/
  | trunc
  /-- nearest integer, ties away from zero -/
  | nearestAway
  deriving DecidableEq, Repr

/-- The OPEN parameters of R9. -/
structure Params where
  /-- DMEM_SIZE: bytes of data memory -/
  dmemSize : Nat
  /-- RECON_ROUND -/
  reconRound : RoundMode
  /-- QBASE[64], row-major -/
  qbase : Tab Byte 64
  /-- COS_TABLE[x][u] at cell 8·x + u, as IEEE patterns -/
  cosTable : Tab F64 64
  deriving DecidableEq, Repr

namespace Config

/-- The default QBASE of 41_quantizer.md R251, row-major. -/
def defaultQBase : Tab Byte 64 :=
  ⟨[16, 11, 10, 16, 24, 40, 51, 61] ++
   [12, 12, 14, 19, 26, 58, 60, 55] ++
   [14, 13, 16, 24, 40, 57, 69, 56] ++
   [14, 17, 22, 29, 51, 87, 80, 62] ++
   [18, 22, 37, 56, 68, 109, 103, 77] ++
   [24, 35, 55, 64, 81, 104, 113, 92] ++
   [49, 64, 78, 87, 103, 121, 120, 101] ++
   [72, 92, 95, 98, 112, 100, 103, 99], rfl⟩

/-- The default COS_TABLE of 40_transform.md R200: row x, column u, at cell 8·x + u. -/
def defaultCosTable : Tab F64 64 :=
  ⟨[0x3FF0000000000000, 0x3FEF6297CFF75CB0, 0x3FED906BCF328D46, 0x3FEA9B66290EA1A3,
    0x3FE6A09E667F3BCD, 0x3FE1C73B39AE68C9, 0x3FD87DE2A6AEA964, 0x3FC8F8B83C69A60D] ++
   [0x3FF0000000000000, 0x3FEA9B66290EA1A3, 0x3FD87DE2A6AEA964, 0xBFC8F8B83C69A608,
    0xBFE6A09E667F3BCC, 0xBFEF6297CFF75CB0, 0xBFED906BCF328D47, 0xBFE1C73B39AE68C8] ++
   [0x3FF0000000000000, 0x3FE1C73B39AE68C9, 0xBFD87DE2A6AEA962, 0xBFEF6297CFF75CB0,
    0xBFE6A09E667F3BCE, 0x3FC8F8B83C69A60C, 0x3FED906BCF328D44, 0x3FEA9B66290EA1A5] ++
   [0x3FF0000000000000, 0x3FC8F8B83C69A60D, 0xBFED906BCF328D46, 0xBFE1C73B39AE68C8,
    0x3FE6A09E667F3BCB, 0x3FEA9B66290EA1A5, 0xBFD87DE2A6AEA965, 0xBFEF6297CFF75CB2] ++
   [0x3FF0000000000000, 0xBFC8F8B83C69A608, 0xBFED906BCF328D47, 0x3FE1C73B39AE68C5,
    0x3FE6A09E667F3BCE, 0xBFEA9B66290EA1A2, 0xBFD87DE2A6AEA971, 0x3FEF6297CFF75CB0] ++
   [0x3FF0000000000000, 0xBFE1C73B39AE68C6, 0xBFD87DE2A6AEA96D, 0x3FEF6297CFF75CB0,
    0xBFE6A09E667F3BC5, 0xBFC8F8B83C69A602, 0x3FED906BCF328D46, 0xBFEA9B66290EA1A1] ++
   [0x3FF0000000000000, 0xBFEA9B66290EA1A4, 0x3FD87DE2A6AEA967, 0x3FC8F8B83C69A61D,
    0xBFE6A09E667F3BC9, 0x3FEF6297CFF75CB2, 0xBFED906BCF328D43, 0x3FE1C73B39AE68C2] ++
   [0x3FF0000000000000, 0xBFEF6297CFF75CB0, 0x3FED906BCF328D44, 0xBFEA9B66290EA1A2,
    0x3FE6A09E667F3BC4, 0xBFE1C73B39AE68C2, 0x3FD87DE2A6AEA95F, 0xBFC8F8B83C69A616], rfl⟩

/-- The power-on contents of each DMEM byte: 'one draw per byte at power-on, stable until the byte is written'
(93_implementation_defined.md I5, 70_reset_and_hazards.md R600).  A free value (log entry 1). -/
opaque powerOnByte : Nat → Byte

/-- What a host read of a register in W(op) returns while a command is pending: 'any value of the register's width, a fresh
draw on each read' (R620, I7).  A free value, applied to `State.draws` (log entry 2). -/
opaque freeWord : Nat → Word

/-- What a memory-port read of a byte in the write part of F(op) returns while a command is pending (R620, I7).  A free
value, applied to `State.draws` (log entry 2). -/
opaque freeByte : Nat → Byte

/-- The pattern from which the payload and sign of a NaN that IDCT produces is taken (I6, D42).  A free value, applied to
`State.draws` (log entry 3). -/
opaque freeNaN : Nat → F64

end Config

/-- The default of every parameter (R9): the values the spec's test vectors use. -/
def Params.default : Params where
  dmemSize := 65536
  reconRound := .nearestEven
  qbase := Config.defaultQBase
  cosTable := Config.defaultCosTable

end Sys2Proof
end

