-- ==== Sys2Proof/Syntax.lean ====
section
/-! DEFINITION. The commands of the core, the registers of its register port, and the operations a host can perform on it.

`Instr` has one constructor per row of spec/opcode_table.json (30_encoding.md R152).  A command carries no operand fields: 'no
immediates, no register numbers and no addressing-mode bits' (R153). -/

namespace Sys2Proof

/-- The 19 commands (R152). -/
inductive Instr where
  /-- 0x00 do nothing and complete (46_system.md R450) -/
  | nop
  /-- 0x01 derive QM from the quality (41_quantizer.md R252) -/
  | qmset
  /-- 0x02 level shift and forward DCT of a sample block into COEF (40_transform.md R203) -/
  | fdct
  /-- 0x03 inverse DCT of COEF in place (R205) -/
  | idct
  /-- 0x04 clamp, convert and store COEF as a sample block (R207) -/
  | recon
  /-- 0x05 quantize COEF into QBLK (R255) -/
  | quant
  /-- 0x06 dequantize QBLK into COEF (R257) -/
  | dequant
  /-- 0x07 store QBLK in zigzag order (42_zigzag.md R302) -/
  | zzscan
  /-- 0x08 load QBLK from zigzag order (R303) -/
  | zzunscan
  /-- 0x09 clear the frequency counters (43_huffman.md R330) -/
  | freqclr
  /-- 0x0A count the bytes of a region (R331) -/
  | freqacc
  /-- 0x0B build the Huffman tree and the code table (R332) -/
  | treebuild
  /-- 0x0C open a bit stream (44_bitbuffer.md R400) -/
  | bbreset
  /-- 0x0D append one (bits, length) pair (R401) -/
  | bbput
  /-- 0x0E close the bit stream (R402) -/
  | bbflush
  /-- 0x0F append the codes of a region's bytes (43_huffman.md R335) -/
  | encode
  /-- 0x10 decode a packed bit stream (R337) -/
  | decode
  /-- 0x11 encode one sample block (45_pipeline.md R430) -/
  | blkenc
  /-- 0x12 decode one block (R431) -/
  | blkdec
  deriving DecidableEq, Repr

/-- The registers and window words of the register port, by name (10_state.md §2, §3). -/
inductive Reg where
  | id | ctrl | status | cmd | quality | src | dst | len | stride | dstlen | putbits | putlen
  | bitcntLo | bitcntHi | outptr | bbOutcnt | bbLimit | bbState | bbtotLo | bbtotHi
  | decOutlen | decBitposLo | decBitposHi | encPos | nsym | maxlen | dmemsz
  /-- a reserved offset: reads 0, writes ignored (R66) -/
  | reserved
  /-- FREQ[s] (R70) -/
  | freq (s : Fin 256)
  /-- CODE[s].bits (R71) -/
  | codeBits (s : Fin 256)
  /-- CODE[s].len (R71) -/
  | codeLen (s : Fin 256)
  /-- QM[i] (R72) -/
  | qm (i : Fin 64)
  /-- bits [31:0] of COEF[i] (R73) -/
  | coefLo (i : Fin 64)
  /-- bits [63:32] of COEF[i] (R73) -/
  | coefHi (i : Fin 64)
  /-- QBLK word k, cells 4k to 4k+3 (R74) -/
  | qblk (k : Fin 16)
  deriving DecidableEq, Repr

/-- One host access on one of the two ports (20_memory.md R100, R101; the forms of 30_encoding.md R156).  Any offset, address and
size can be asked for: an access the port does not allow gets a bus-error response. -/
inductive HostOp where
  /-- a read of `size` bytes at offset `off` of the register port -/
  | regRead (off size : Nat)
  /-- a write of `v` in `size` bytes at offset `off` of the register port -/
  | regWrite (off size : Nat) (v : Word)
  /-- a read of `size` bytes at DMEM address `a` -/
  | memRead (a : Word) (size : Nat)
  /-- a write of the low `size` bytes of `v` at DMEM address `a` -/
  | memWrite (a : Word) (size : Nat) (v : Word)
  deriving DecidableEq, Repr

/-- Which of the two agents takes the next turn (00_scope.md R11, 60_exceptions.md R500). -/
inductive Turn where
  /-- the host performs one access -/
  | host (o : HostOp)
  /-- the engine takes its step, if a command is pending -/
  | engine
  deriving DecidableEq, Repr

end Sys2Proof
end

