-- ==== Sys2Proof/WellFormed.lean ====
section
/-! DEFINITION. Which terms are well formed: the parameters of an implementation (00_scope.md R9), and the host operations that are
forms of 30_encoding.md R156.  A command has no operand, so every `Instr` is well formed. -/

namespace Sys2Proof

/-- A command carries no field that could be out of range (R153): every one is well formed. -/
def Instr.wellFormed (_ : Instr) : Bool := true

/-- `size` is a power of two from 2^10 to 2^31 (R9 `DMEM_SIZE`). -/
def legalDmemSize (size : Nat) : Bool := (List.range 22).any fun k => size == 2 ^ (k + 10)

/-- `c` is a number of magnitude at most 1, so it can be a cosine: the pattern less its sign bit is at most that of 1.0
(log entry 4). -/
def legalCosine (c : F64) : Bool := c.toNat % 2 ^ 63 ≤ 0x3FF0000000000000

/-- The parameters are ones the spec allows: R9's range of DMEM_SIZE, QBASE cells 1..255, and a table of cosines. -/
def Params.wellFormed (p : Params) : Bool :=
  legalDmemSize p.dmemSize && p.qbase.cells.all (· != 0) && p.cosTable.cells.all legalCosine

/-- The operation is one of the forms of R156: register-port accesses are words, memory-port accesses 1, 2 or 4 bytes. -/
def HostOp.wellFormed : HostOp → Bool
  | .regRead off size => size == 4 && off % 4 == 0 && off < 0x2000
  | .regWrite off size _ => size == 4 && off % 4 == 0 && off < 0x2000
  | .memRead a size => (size == 1 || size == 2 || size == 4) && a.toNat % size == 0
  | .memWrite a size _ => (size == 1 || size == 2 || size == 4) && a.toNat % size == 0

end Sys2Proof
end

