-- ==== Sys2Proof/Decode.lean ====
section
/-! DEFINITION. Decoding a command word (30_encoding.md R150 to R155), and encoding a command.

Both are written from the table of R152.  The decoder is total on every 32-bit word and rejects by name. -/

namespace Sys2Proof

/-- Why a word is ILLEGAL (R154). -/
inductive IllegalWord where
  /-- RSV, bits [31:8], is not zero -/
  | reservedBits
  /-- OPC is 0x13 to 0xFF -/
  | unknownOpcode
  deriving DecidableEq, Repr

/-- OPC, bits [7:0] (R150). -/
def opcField (w : Word) : Byte := w.extractLsb' 0 8

/-- RSV, bits [31:8] (R150). -/
def rsvField (w : Word) : BitVec 24 := w.extractLsb' 8 24

/-- The opcode map (R152, R155). -/
def decodeOpcode (opc : Byte) : Except IllegalWord Instr :=
  match opc.toNat with
  | 0x00 => .ok .nop
  | 0x01 => .ok .qmset
  | 0x02 => .ok .fdct
  | 0x03 => .ok .idct
  | 0x04 => .ok .recon
  | 0x05 => .ok .quant
  | 0x06 => .ok .dequant
  | 0x07 => .ok .zzscan
  | 0x08 => .ok .zzunscan
  | 0x09 => .ok .freqclr
  | 0x0A => .ok .freqacc
  | 0x0B => .ok .treebuild
  | 0x0C => .ok .bbreset
  | 0x0D => .ok .bbput
  | 0x0E => .ok .bbflush
  | 0x0F => .ok .encode
  | 0x10 => .ok .decode
  | 0x11 => .ok .blkenc
  | 0x12 => .ok .blkdec
  | _ => .error .unknownOpcode

/-- `decode(w)` of R155, total on every 32-bit word. -/
def decode (w : Word) : Except IllegalWord Instr :=
  if rsvField w ≠ 0 then .error .reservedBits else decodeOpcode (opcField w)

/-- The opcode of a command (R152). -/
def opcodeOf : Instr → Byte
  | .nop => 0x00
  | .qmset => 0x01
  | .fdct => 0x02
  | .idct => 0x03
  | .recon => 0x04
  | .quant => 0x05
  | .dequant => 0x06
  | .zzscan => 0x07
  | .zzunscan => 0x08
  | .freqclr => 0x09
  | .freqacc => 0x0A
  | .treebuild => 0x0B
  | .bbreset => 0x0C
  | .bbput => 0x0D
  | .bbflush => 0x0E
  | .encode => 0x0F
  | .decode => 0x10
  | .blkenc => 0x11
  | .blkdec => 0x12

/-- The word of a command: OPC in [7:0], RSV zero (R150). -/
def encode (i : Instr) : Word := (opcodeOf i).zeroExtend 32

/-- The command a decoder reads from a table row's bits: a command word is one 32-bit register value, never bytes in memory
(R41, R151), so the bits are the word's own. -/
def decodeTableWord (nbits w : Nat) : Option Instr :=
  let v := w % 2 ^ nbits
  if v < 2 ^ 32 then (decode (BitVec.ofNat 32 v)).toOption else none

end Sys2Proof
end

