-- ==== Sys2Proof/Machine/State.lean ====
section
/-! DEFINITION. The state of the core (10_state.md), plain data, and the state after power-on reset (70_reset_and_hazards.md R600).

INVENTORY.md lists each field with its rule and its reset value. -/

namespace Sys2Proof.Machine

/-- DMEM as the bytes WRITTEN since power-on: (address, byte) pairs, addresses strictly rising (`Memory.wf`).  An address that is
not listed holds no written value; a read of it gives its power-on draw (log entry 1). -/
abbrev Memory := List Host.Cell

/-- The error codes 0x01 to 0x0C of 60_exceptions.md R511. -/
inductive ErrorCode where
  | illegalCmd | quality | addr | fp | freqOvf | empty | codeLen | noCode | badTable | putlen | overrun | corrupt
  deriving DecidableEq, Repr

/-- STATUS (10_state.md R44), one field per defined bit field; the reserved fields read as zero. -/
structure Status where
  /-- bit 0 -/
  busy : Bool
  /-- bit 1 -/
  done : Bool
  /-- bit 2 -/
  err : Bool
  /-- bit 3 -/
  cmddrop : Bool
  /-- bits [15:8] -/
  errcode : Byte
  /-- bits [23:16] -/
  lastop : Byte
  deriving DecidableEq, Repr

/-- The nine operand registers, 'the core's general registers' (R46 to R54, R75). -/
structure Operands where
  quality : BitVec 8
  src : Word
  dst : Word
  len : Word
  stride : Word
  dstlen : Word
  putbits : Word
  putlen : BitVec 6
  /-- {BITCNT_HI, BITCNT_LO} -/
  bitcnt : DWord
  deriving DecidableEq, Repr

/-- The context `op` of a pending command: the command word and the latched operand registers (R80, 60_exceptions.md R501). -/
structure Context where
  word : Word
  args : Operands
  deriving DecidableEq, Repr

/-- The bit buffer (R81): OUTPTR, BB_OUTCNT, BB_LIMIT, the carried bits ACC and NBITS of BB_STATE, and BBTOT. -/
structure BitBuffer where
  outptr : Word
  outcnt : Word
  limit : Word
  /-- BB_STATE[7:0] -/
  acc : Byte
  /-- BB_STATE[11:8]: 0 to 7 carried bits (R58) -/
  nbits : Fin 8
  /-- {BBTOT_HI, BBTOT_LO} -/
  tot : DWord
  deriving DecidableEq, Repr

/-- One entry of the code table (R71). -/
structure CodeEntry where
  bits : Word
  len : BitVec 6
  deriving DecidableEq, Repr

/-- What a port answers to one host access (20_memory.md R100, R101): the data of a read (zero for a write or a bus
error), and whether the access got a bus-error response. -/
structure Response where
  data : Word
  busError : Bool
  deriving DecidableEq, Repr

/-- The state of the core, its parameters, and the model's own record of the host's side (the last three fields). -/
structure State where
  /-- the OPEN parameters and constant tables (R9, R40 point 4); no step changes them -/
  params : Params
  /-- DMEM (20_memory.md R102) -/
  mem : Memory
  /-- CTRL.IE (R43) -/
  ie : Bool
  /-- STATUS (R44) -/
  status : Status
  /-- CMD, the last accepted command word (R45) -/
  cmd : Word
  /-- the operand registers (R46 to R54) -/
  regs : Operands
  /-- the bit buffer (R55 to R59, R81) -/
  bb : BitBuffer
  /-- DEC_OUTLEN (R60) -/
  decOutlen : Word
  /-- DEC_BITPOS (R61) -/
  decBitpos : DWord
  /-- ENC_POS (R62) -/
  encPos : Word
  /-- NSYM[8:0] (R63) -/
  nsym : BitVec 9
  /-- MAXLEN[7:0] (R64) -/
  maxlen : BitVec 8
  /-- FREQ (R70) -/
  freq : Tab Word 256
  /-- CODE (R71) -/
  code : Tab CodeEntry 256
  /-- QM (R72) -/
  qm : Tab (BitVec 16) 64
  /-- COEF (R73) -/
  coef : Tab F64 64
  /-- QBLK (R74) -/
  qblk : Tab Byte 64
  /-- the context `op` (R80); it is pending when STATUS.BUSY is set -/
  op : Context
  /-- MODEL'S OWN: the turns still to be taken, in order: the host's accesses and where among them the engine's step falls
  (60_exceptions.md R500; log entry 5) -/
  turns : List Turn
  /-- MODEL'S OWN: the response to the host's last access (log entry 6) -/
  resp : Option Response
  /-- MODEL'S OWN: how many free values have been drawn (log entries 2, 3) -/
  draws : Nat
  deriving DecidableEq, Repr

/-- Why the model stops.  Every constructor is the model fault HAZARD of 70_reset_and_hazards.md R620: a host action while a command
is pending whose hardware effect the spec leaves unspecified.  No command raises one.  All are SAFE: the model stops
where the hardware goes on in a way nobody states. -/
inductive Fault where
  /-- Raised by a host write of BITCNT_LO or BITCNT_HI while BUSY = 1.  Safe. -/
  | hazardBitcnt
  /-- Raised by a host write of CTRL with SRST = 1 while BUSY = 1.  Safe. -/
  | hazardSoftReset
  /-- Raised by a host write to a FREQ, CODE, COEF or QBLK window word while BUSY = 1.  Safe. -/
  | hazardWindow
  /-- Raised by a memory-port write to a byte in the pending command's footprint F(op) while BUSY = 1.  Safe. -/
  | hazardFootprint
  deriving DecidableEq, Repr

/-- Why an instruction has no meaning. -/
inductive Refusal where
  /-- Raised by `exec`'s arm of an instruction that has no meaning yet.  Safe.  No arm raises it in this model. -/
  | notModelled (mnemonic : String)
  deriving DecidableEq, Repr

/-- The operand registers after reset (R46 to R54): QUALITY = 50, STRIDE = 8, the rest 0. -/
def Operands.reset : Operands where
  quality := 50
  src := 0
  dst := 0
  len := 0
  stride := 8
  dstlen := 0
  putbits := 0
  putlen := 0
  bitcnt := 0

/-- The context after reset: no command is pending.  Its contents are then unobservable; the model clears them (log entry 7). -/
def Context.reset : Context where
  word := 0
  args := ⟨0, 0, 0, 0, 0, 0, 0, 0, 0⟩

/-- STATUS after reset: every field 0. -/
def Status.reset : Status := ⟨false, false, false, false, 0, 0⟩

/-- The bit buffer after reset: empty (R600). -/
def BitBuffer.reset : BitBuffer := ⟨0, 0, 0, 0, 0, 0⟩

/-- The state after power-on of a core with parameters `p` (R600): every register, window and internal state at its reset value,
QM the matrix for quality 50, which equals QBASE (R72, R253), and no DMEM byte written. -/
def State.powerOn (p : Params) : State where
  params := p
  mem := []
  ie := false
  status := Status.reset
  cmd := 0
  regs := Operands.reset
  bb := BitBuffer.reset
  decOutlen := 0
  decBitpos := 0
  encPos := 0
  nsym := 0
  maxlen := 0
  freq := Tab.fill 256 0
  code := Tab.fill 256 ⟨0, 0⟩
  qm := Tab.ofFn fun i => (p.qbase.get i).zeroExtend 16
  coef := Tab.fill 64 0
  qblk := Tab.fill 64 0
  op := Context.reset
  turns := []
  resp := none
  draws := 0

/-- The machine right after power-on reset, with the default parameters of R9. -/
def State.reset : State := State.powerOn Params.default

end Sys2Proof.Machine
end

