-- ==== Sys2Proof/Machine/Flags.lean ====
section
/-! DEFINITION. STATUS, the core's only flags (10_state.md R44, R83): what acceptance, completion, a dropped command and a
write-one-to-clear do to them, the error codes (60_exceptions.md R511), and the IRQ line (R520). -/

namespace Sys2Proof.Machine

/-- The code of an error in STATUS.ERRCODE (R511). -/
def ErrorCode.code : ErrorCode → Byte
  | .illegalCmd => 0x01
  | .quality => 0x02
  | .addr => 0x03
  | .fp => 0x04
  | .freqOvf => 0x05
  | .empty => 0x06
  | .codeLen => 0x07
  | .noCode => 0x08
  | .badTable => 0x09
  | .putlen => 0x0A
  | .overrun => 0x0B
  | .corrupt => 0x0C

/-- The flags acceptance writes (R501): LASTOP, DONE, BUSY.  ERR, ERRCODE and CMDDROP stay. -/
def Status.accept (st : Status) (opc : Byte) : Status := { st with lastop := opc, done := false, busy := true }

/-- The flags completion writes (R502): BUSY = 0, DONE = 1; an error sets ERR, and ERRCODE only where ERR was clear. -/
def Status.complete (st : Status) : Option ErrorCode → Status
  | none => { st with busy := false, done := true }
  | some e =>
    { st with
      busy := false
      done := true
      errcode := if st.err then st.errcode else e.code
      err := true }

/-- A CMD write while BUSY = 1 (R503). -/
def Status.drop (st : Status) : Status := { st with cmddrop := true }

/-- A host write to STATUS: each W1C bit written as 1 clears its flag; bit 2 clears ERR and ERRCODE together (R44). -/
def Status.writeOneToClear (st : Status) (v : Word) : Status :=
  { st with
    done := st.done && !v.getLsbD 1
    err := st.err && !v.getLsbD 2
    errcode := if v.getLsbD 2 then 0 else st.errcode
    cmddrop := st.cmddrop && !v.getLsbD 3 }

/-- STATUS as the host reads it (R44): ERRCODE reads 0x00 while ERR = 0, reserved fields read 0. -/
def Status.word (st : Status) : Word :=
  let errcode : Byte := if st.err then st.errcode else 0
  (0 : Byte) ++ (st.lastop ++ (errcode ++
    ((0 : BitVec 4) ++ (BitVec.ofBool st.cmddrop ++ (BitVec.ofBool st.err ++
      (BitVec.ofBool st.done ++ BitVec.ofBool st.busy))))))

/-- The interrupt output, a function of state (R84, R520): `CTRL.IE and STATUS.DONE`. -/
def State.irq (s : State) : Bool := s.ie && s.status.done

end Sys2Proof.Machine
end

