-- ==== Sys2Proof/Machine/Operands.lean ====
section
/-! DEFINITION. The operands of a command (30_encoding.md R153): the latched registers of the context `op`, at full width and
zero-extended, combined as unbounded integers.  A command reads no other operand (10_state.md R75, R80). -/

namespace Sys2Proof.Machine

namespace State

/-- op.QUALITY -/
def opQuality (s : State) : Nat := s.op.args.quality.toNat

/-- op.SRC -/
def opSrc (s : State) : Nat := s.op.args.src.toNat

/-- op.DST -/
def opDst (s : State) : Nat := s.op.args.dst.toNat

/-- op.LEN -/
def opLen (s : State) : Nat := s.op.args.len.toNat

/-- op.STRIDE -/
def opStride (s : State) : Nat := s.op.args.stride.toNat

/-- op.DSTLEN -/
def opDstlen (s : State) : Nat := s.op.args.dstlen.toNat

/-- op.PUTLEN -/
def opPutlen (s : State) : Nat := s.op.args.putlen.toNat

/-- op.BITCNT -/
def opBitcnt (s : State) : Nat := s.op.args.bitcnt.toNat

end State

/-- The linear index of cell (r, c) of a block (00_scope.md R19). -/
def cellIx (r c : Fin 8) : Fin 64 := ⟨8 * r.val + c.val, by omega⟩

/-- The row of linear index `i` (R19). -/
def rowOf (i : Fin 64) : Fin 8 := ⟨i.val / 8, by omega⟩

/-- The column of linear index `i` (R19). -/
def colOf (i : Fin 64) : Fin 8 := ⟨i.val % 8, by omega⟩

/-- The DMEM address of cell `i` of the block at `base`: `base + r·STRIDE + c`, in unbounded integers (40_transform.md R201). -/
def blockAddr (base stride : Nat) (i : Fin 64) : Nat := base + (rowOf i).val * stride + (colOf i).val

/-- A byte value as an index of FREQ and CODE (R70, R71). -/
def byteIx (b : Byte) : Fin 256 := ⟨b.toNat, b.isLt⟩

end Sys2Proof.Machine
end

