-- ==== Sys2Proof/Machine/Ops.lean ====
section
/-! DEFINITION. The shared operations: DMEM, and the life of a command.

TAKING AN EXCEPTION on this core is completing with an error: 'an error completes the command; it saves no state, changes no mode
or mask and transfers no control' (60_exceptions.md R510, R521).  `complete` is that one operation, and a `raise` of a
command's rule hands it the error.  There is no return from an exception (R522): the host acknowledges by the
write-one-to-clear of STATUS (`acknowledge`) and writes the next command (`accept`). -/

namespace Sys2Proof.Machine

/-! ### DMEM -/

/-- `InRange(a, n)` for a memory of `size` bytes, in unbounded integers (00_scope.md R17). -/
def inRange (size a n : Nat) : Bool := a + n ≤ size

/-- All 64 cells of the block are in range (40_transform.md R201). -/
def blockInRange (size base stride : Nat) : Bool :=
  (List.finRange 64).all fun i => inRange size (blockAddr base stride i) 1

namespace Memory

/-- The byte written at `a` since power-on, if any: what an address holds at the level of the list.  An unlisted address holds
`none`. -/
def get? : Memory → Nat → Option Byte
  | [], _ => none
  | (k, v) :: rest, a => if k = a then some v else get? rest a

/-- Write `v` at `a`, keeping the addresses strictly rising. -/
def put : Memory → Nat → Byte → Memory
  | [], a, v => [(a, v)]
  | (k, w) :: rest, a, v =>
    if k < a then (k, w) :: put rest a v
    else if k = a then (a, v) :: rest
    else (a, v) :: (k, w) :: rest

/-- Addresses rise strictly from above `low` and stay below `size`. -/
def rising (size : Nat) : Nat → Memory → Bool
  | _, [] => true
  | low, (k, _) :: rest => low ≤ k && k < size && rising size (k + 1) rest

/-- The canonical form of DMEM: addresses strictly rising, all of them addresses that exist (20_memory.md R102).  No entry can equal
what an unlisted address holds, which is `none`. -/
def wf (size : Nat) (m : Memory) : Bool := rising size 0 m

end Memory

namespace State

/-- `InRange(a, n)` (R17). -/
def inRange (s : State) (a n : Nat) : Bool := Machine.inRange s.params.dmemSize a n

/-- All 64 cells of the block at `base` with the latched stride are in range (40_transform.md R201). -/
def blockInRange (s : State) (base : Nat) : Bool := Machine.blockInRange s.params.dmemSize base s.opStride

/-- `MemRead(a, 1)` (R17).  A byte that was never written reads as its power-on draw (70_reset_and_hazards.md R600). -/
def readByte (s : State) (a : Nat) : Byte := (s.mem.get? a).getD (Config.powerOnByte a)

/-- `MemWrite(a, 1, v)` (R17). -/
def writeByte (s : State) (a : Nat) (v : Byte) : State := { s with mem := s.mem.put a v }

/-- The `n` bytes from `a` up, in order. -/
def readBytes (s : State) (a n : Nat) : List Byte := (List.range n).map fun i => s.readByte (a + i)

/-- Write a table of bytes, cell `i` at `addr i`, in ascending order of `i`: a later cell wins where two fall on one address
(20_memory.md R122). -/
def writeCells (s : State) {n : Nat} (addr : Fin n → Nat) (v : Tab Byte n) : State :=
  (List.finRange n).foldl (fun s i => s.writeByte (addr i) (v.get i)) s

/-! ### The life of a command -/

/-- Acceptance of word `w` (60_exceptions.md R501): CMD, the context `op` latched from the operand registers, LASTOP, DONE,
BUSY. -/
def accept (s : State) (w : Word) : State :=
  { s with
    cmd := w
    op := ⟨w, s.regs⟩
    status := s.status.accept (opcField w) }

/-- Completion (R502), successful or with an error. -/
def complete (s : State) (e : Option ErrorCode) : State := { s with status := s.status.complete e }

/-- A host write of `v` to STATUS (R44). -/
def acknowledge (s : State) (v : Word) : State := { s with status := s.status.writeOneToClear v }

/-- Soft reset (70_reset_and_hazards.md R601): every register, window and internal state back to its power-on value; DMEM stays.  The
parameters are constants, and the last three fields are the model's own. -/
def softReset (s : State) : State :=
  { State.powerOn s.params with mem := s.mem, turns := s.turns, resp := s.resp, draws := s.draws }

end State

/-- What running a command's rule from its start to its end, or to its first `raise`, leaves: the state with the effects performed so
far, and the error raised, if any (00_scope.md R18). -/
structure Ran where
  /-- the state when the rule ended -/
  state : State
  /-- the error of the `raise` that ended it, if one did -/
  error : Option ErrorCode

/-- The rule ended normally. -/
def State.ok (s : State) : Ran := ⟨s, none⟩

/-- `raise e` (R18): the effects performed so far remain. -/
def State.raised (s : State) (e : ErrorCode) : Ran := ⟨s, some e⟩

/-- The outcome of an engine step: the rule's effects, then completion in the same step (R500, R502). -/
def Ran.finish (r : Ran) : Host.Outcome State Fault Refusal := .next (r.state.complete r.error)

end Sys2Proof.Machine
end

