-- ==== Sys2Proof/Machine/BitBuffer.lean ====
section
/-! DEFINITION. The bit buffer: the append primitive, BBRESET, BBPUT, BBFLUSH (44_bitbuffer.md). -/

namespace Sys2Proof.Machine

/-- One turn of Append's loop (R403): append one bit, and write the byte to DMEM as soon as 8 bits are in it. -/
def pushBit (s : State) (b : Bool) : State :=
  let acc : Byte := (s.bb.acc <<< 1) ||| (BitVec.ofBool b).zeroExtend 8
  if h : s.bb.nbits.val + 1 < 8 then
    { s with bb := { s.bb with acc := acc, nbits := ⟨s.bb.nbits.val + 1, h⟩, tot := s.bb.tot + 1 } }
  else
    { s.writeByte s.bb.outptr.toNat acc with
      bb := { s.bb with
        acc := 0
        nbits := 0
        tot := s.bb.tot + 1
        outptr := s.bb.outptr + 1
        outcnt := s.bb.outcnt + 1 } }

/-- Append's loop (R403): the low `l` bits of `bits`, most significant first. -/
def pushBits (s : State) (bits : Word) : Nat → State
  | 0 => s
  | j + 1 => pushBits (pushBit s (bits.getLsbD j)) bits j

/-- How many bytes an append of `l` bits completes (R403). -/
def bytesCompleted (s : State) (l : Nat) : Nat := (s.bb.nbits.val + l) / 8

/-- `Append(bits, L)` for L in 0..32 (R403): both checks come before any effect.  The range check is made also where no byte is completed, so that
even PUTLEN = 0 is E_ADDR while OUTPTR is above DMEM_SIZE: DEDUCED from R403's pseudocode, against R401's corner case (log entry 16). -/
def append (s : State) (bits : Word) (l : Nat) : Ran :=
  if s.bb.limit.toNat < s.bb.outcnt.toNat + bytesCompleted s l then s.raised .overrun
  else if !s.inRange s.bb.outptr.toNat (bytesCompleted s l) then s.raised .addr
  else (pushBits s bits l).ok

/-- BBRESET (R400): the range of DST is not checked here, DMEM is not written, BITCNT is not changed. -/
def bbresetBody (s : State) : State :=
  { s with bb := { outptr := s.op.args.dst, outcnt := 0, limit := s.op.args.dstlen, acc := 0, nbits := 0, tot := 0 } }

/-- BBRESET (R400). -/
def execBbreset (s : State) : Host.Outcome State Fault Refusal := (bbresetBody s).ok.finish

/-- BBPUT (R401). -/
def runBbput (s : State) : Ran :=
  if 32 < s.opPutlen then s.raised .putlen else append s s.op.args.putbits s.opPutlen

/-- BBPUT (R401). -/
def execBbput (s : State) : Host.Outcome State Fault Refusal := (runBbput s).finish

/-- The last partial byte, padded with zero bits on the low side (R402). -/
def padByte (bb : BitBuffer) : Byte := bb.acc <<< (8 - bb.nbits.val)

/-- The end of BBFLUSH (R402): BITCNT = BBTOT, and the stream closes. -/
def closeStream (s : State) : State :=
  { s with
    regs := { s.regs with bitcnt := s.bb.tot }
    bb := { s.bb with tot := 0, acc := 0, nbits := 0 } }

/-- The partial byte's store in BBFLUSH (R402). -/
def flushByte (s : State) : State :=
  { s.writeByte s.bb.outptr.toNat (padByte s.bb) with
    bb := { s.bb with outptr := s.bb.outptr + 1, outcnt := s.bb.outcnt + 1 } }

/-- BBFLUSH (R402). -/
def runBbflush (s : State) : Ran :=
  if s.bb.nbits = 0 then (closeStream s).ok
  else if s.bb.limit.toNat < s.bb.outcnt.toNat + 1 then s.raised .overrun
  else if !s.inRange s.bb.outptr.toNat 1 then s.raised .addr
  else (closeStream (flushByte s)).ok

/-- BBFLUSH (R402). -/
def execBbflush (s : State) : Host.Outcome State Fault Refusal := (runBbflush s).finish

end Sys2Proof.Machine
end

