-- ==== Sys2Proof/Machine/Huffman.lean ====
section
/-! DEFINITION. The Huffman entropy coder: FREQCLR, FREQACC, TREEBUILD, ENCODE, DECODE (43_huffman.md). -/

namespace Sys2Proof.Machine

/-! ### Frequency counting -/

/-- FREQCLR (R330). -/
def freqclrBody (s : State) : State := { s with freq := Tab.fill 256 0 }

/-- FREQCLR (R330). -/
def execFreqclr (s : State) : Host.Outcome State Fault Refusal := (freqclrBody s).ok.finish

/-- Count one byte (R331): a count of 2^32 − 1 stays, and the flag `ovf` is set. -/
def countByte (acc : Tab Word 256 × Bool) (b : Byte) : Tab Word 256 × Bool :=
  if acc.1.get (byteIx b) = 0xFFFFFFFF then (acc.1, true)
  else (acc.1.set (byteIx b) (acc.1.get (byteIx b) + 1), acc.2)

/-- Count every byte of a list (R331). -/
def countBytes (f : Tab Word 256) (bs : List Byte) : Tab Word 256 × Bool := bs.foldl countByte (f, false)

/-- FREQACC (R331): E_FREQ_OVF is raised after all counting. -/
def runFreqacc (s : State) : Ran :=
  if !s.inRange s.opSrc s.opLen then s.raised .addr
  else
    let r := countBytes s.freq (s.readBytes s.opSrc s.opLen)
    if r.2 then State.raised { s with freq := r.1 } .freqOvf else State.ok { s with freq := r.1 }

/-- FREQACC (R331). -/
def execFreqacc (s : State) : Host.Outcome State Fault Refusal := (runFreqacc s).finish

/-! ### Tree and code table

The tree exists only during a TREEBUILD (10_state.md R82). -/

/-- A Huffman tree; the left child is the node extracted first (R333). -/
inductive HTree where
  | leaf (s : Fin 256)
  | node (left right : HTree)
  deriving DecidableEq, Repr

/-- A member of the priority structure: its key (weight, seq) and its tree (R332). -/
structure QNode where
  weight : Nat
  seq : Nat
  tree : HTree
  deriving DecidableEq, Repr

/-- The lexicographic order of the keys (weight, seq) (R333). -/
def QNode.before (a b : QNode) : Bool := a.weight < b.weight || (a.weight == b.weight && a.seq < b.seq)

/-- Remove the member with the least key, where `m` is the least so far (R332). -/
def takeMin (m : QNode) : List QNode → QNode × List QNode
  | [] => (m, [])
  | x :: rest =>
    if x.before m then
      let r := takeMin x rest
      (r.1, m :: r.2)
    else
      let r := takeMin m rest
      (r.1, x :: r.2)

/-- The merges (R332), at most `fuel` of them: extract the two least, the first becoming the left child, and insert the new node under
the next sequence number. -/
def mergeAll : Nat → Nat → List QNode → List QNode
  | 0, _, q => q
  | _, _, [] => []
  | fuel + 1, next, x :: rest =>
    match takeMin x rest with
    | (a, []) => [a]
    | (a, y :: rest') =>
      let r := takeMin y rest'
      mergeAll fuel (next + 1) (⟨a.weight + r.1.weight, next, .node a.tree r.1.tree⟩ :: r.2)

/-- A code assigned to a symbol: its bits as a number, and its length. -/
structure Assigned where
  sym : Fin 256
  bits : Nat
  len : Nat
  deriving DecidableEq, Repr

/-- `AssignCodes` (R332): the left child appends 1, the right child 0. -/
def HTree.codes : HTree → Nat → Nat → List Assigned
  | .leaf s, p, l => [⟨s, p, l⟩]
  | .node a b, p, l => a.codes (2 * p + 1) (l + 1) ++ b.codes (2 * p) (l + 1)

/-- Lsym: the symbols with a count other than 0, ascending (R332). -/
def presentSymbols (f : Tab Word 256) : List (Fin 256) := (List.finRange 256).filter fun s => f.get s != 0

/-- The leaves: leaf k is the k-th present symbol, with its count as weight and k as seq (R332). -/
def leaves (f : Tab Word 256) : List QNode :=
  (presentSymbols f).mapIdx fun k s => ⟨(f.get s).toNat, k, .leaf s⟩

/-- The codes of all present symbols (R332); a single symbol gets the code `0` of length 1 (R334). -/
def buildCodes (f : Tab Word 256) : List Assigned :=
  match leaves f with
  | [] => []
  | [x] => x.tree.codes 0 1
  | q =>
    match mergeAll q.length q.length q with
    | [root] => root.tree.codes 0 0
    | _ => []

/-- The greatest code length (R332). -/
def maxCodeLen (cs : List Assigned) : Nat := cs.foldl (fun m c => max m c.len) 0

/-- The code table of the assigned codes; an absent symbol has the entry (0, 0) (R332). -/
def codeTable (cs : List Assigned) : Tab CodeEntry 256 :=
  Tab.ofFn fun s =>
    match cs.find? (fun c => c.sym == s) with
    | some c => ⟨BitVec.ofNat 32 c.bits, BitVec.ofNat 6 c.len⟩
    | none => ⟨0, 0⟩

/-- TREEBUILD (R332): NSYM and MAXLEN are written also where E_EMPTY or E_CODE_LEN is raised; CODE is then unchanged. -/
def runTreebuild (s : State) : Ran :=
  let cs := buildCodes s.freq
  let s1 := { s with
    nsym := BitVec.ofNat 9 (presentSymbols s.freq).length
    maxlen := BitVec.ofNat 8 (maxCodeLen cs) }
  if (presentSymbols s.freq).length = 0 then s1.raised .empty
  else if 32 < maxCodeLen cs then s1.raised .codeLen
  else State.ok { s1 with code := codeTable cs }

/-- TREEBUILD (R332). -/
def execTreebuild (s : State) : Host.Outcome State Fault Refusal := (runTreebuild s).finish

/-! ### ENCODE -/

/-- ENCODE's loop (R335), with `n` bytes left from index `i` on. -/
def encodeLoop (s : State) : Nat → Nat → Ran
  | 0, i => State.ok { s with encPos := BitVec.ofNat 32 i }
  | n + 1, i =>
    let s1 := { s with encPos := BitVec.ofNat 32 i }
    let c := s1.code.get (byteIx (s1.readByte (s1.opSrc + i)))
    if c.len.toNat = 0 then s1.raised .noCode
    else if 32 < c.len.toNat then s1.raised .badTable
    else
      let r := append s1 c.bits c.len.toNat
      match r.error with
      | some _ => r
      | none => encodeLoop r.state n (i + 1)

/-- ENCODE (R335): the range check comes before any effect; ENC_POS is then unchanged.  It is made also where LEN = 0: DEDUCED (log entry 16). -/
def runEncode (s : State) : Ran :=
  if !s.inRange s.opSrc s.opLen then s.raised .addr else encodeLoop s s.opLen 0

/-- ENCODE (R335). -/
def execEncode (s : State) : Host.Outcome State Fault Refusal := (runEncode s).finish

/-! ### DECODE -/

/-- `key(s)`: the low `len` bits of the entry, and `len` (R336). -/
def CodeEntry.key (e : CodeEntry) : Nat × Nat := (e.bits.toNat % 2 ^ e.len.toNat, e.len.toNat)

/-- No member of the list occurs again after it. -/
def allDistinct : List (Nat × Nat) → Bool
  | [] => true
  | k :: rest => !rest.contains k && allDistinct rest

/-- The keys of the present entries, in symbol order (R336). -/
def presentKeys (c : Tab CodeEntry 256) : List (Nat × Nat) := (c.cells.filter fun e => e.len != 0).map CodeEntry.key

/-- `TableValid()` (R336). -/
def tableValid (c : Tab CodeEntry 256) : Bool :=
  c.cells.all (fun e => e.len.toNat ≤ 32) && allDistinct (presentKeys c)

/-- `Match(p, l)` (R336); absent entries never match. -/
def matchCode (c : Tab CodeEntry 256) (p l : Nat) : Option (Fin 256) :=
  (List.finRange 256).find? fun s => (c.get s).len != 0 && (c.get s).key == (p, l)

/-- Stream bit `k` of the payload at `src`, most significant bit of each byte first (20_memory.md R105). -/
def streamBit (s : State) (src k : Nat) : Bool := (s.readByte (src + k / 8)).getLsbD (7 - k % 8)

/-- DECODE's loop (R337), with `rem` stream bits left from bit `k` on, the probe (p, l), and `n` bytes written. -/
def decodeLoop (s : State) : Nat → (k p l n : Nat) → Ran
  | 0, _, _, l, _ => if l = 0 then s.ok else s.raised .corrupt
  | rem + 1, k, p, l, n =>
    let p' := 2 * p + (streamBit s s.opSrc k).toNat
    let s1 := { s with decBitpos := BitVec.ofNat 64 (k + 1) }
    match matchCode s1.code p' (l + 1) with
    | some sym =>
      if s1.opDstlen ≤ n then s1.raised .overrun
      else if !s1.inRange (s1.opDst + n) 1 then s1.raised .addr
      else
        decodeLoop
          { s1.writeByte (s1.opDst + n) (BitVec.ofNat 8 sym.val) with decOutlen := BitVec.ofNat 32 (n + 1) }
          rem (k + 1) 0 0 (n + 1)
    | none => if l + 1 = 32 then s1.raised .corrupt else decodeLoop s1 rem (k + 1) p' (l + 1) n

/-- DECODE (R337).  The three checks are made also where BITCNT = 0: DEDUCED (log entry 16). -/
def runDecode (s : State) : Ran :=
  let s0 := { s with decOutlen := 0, decBitpos := 0 }
  if !tableValid s0.code then s0.raised .badTable
  else if 8 * s0.opLen < s0.opBitcnt then s0.raised .corrupt
  else if !s0.inRange s0.opSrc ((s0.opBitcnt + 7) / 8) then s0.raised .addr
  else decodeLoop s0 s0.opBitcnt 0 0 0 0

/-- DECODE (R337). -/
def execDecode (s : State) : Host.Outcome State Fault Refusal := (runDecode s).finish

end Sys2Proof.Machine
end

