-- ==== Sys2Proof/Machine/Binary64.lean ====
section
/-! DEFINITION. Binary64 arithmetic (00_scope.md R15): IEEE 754 add, multiply and divide, rounding to nearest with ties to even, never
fused.  Each operation computes the exact result as an integer multiple of a power of two and rounds once.

A NaN result is the one internal value `nan`; its payload and sign are settled where a NaN becomes visible
(Transform.lean, 93_implementation_defined.md I6). -/

namespace Sys2Proof.Machine

namespace F64

/-- +0.0 -/
def zero : F64 := 0

/-- Sign bit. -/
def neg (x : F64) : Bool := x.getLsbD 63

/-- Exponent field, bits [62:52]. -/
def expo (x : F64) : Nat := (x.toNat >>> 52) % 2048

/-- Fraction field, bits [51:0]. -/
def frac (x : F64) : Nat := x.toNat % 2 ^ 52

/-- `isnan(x)` -/
def isNaN (x : F64) : Bool := expo x == 2047 && frac x != 0

/-- `isinf(x)` -/
def isInf (x : F64) : Bool := expo x == 2047 && frac x == 0

/-- Neither a NaN nor an infinity. -/
def isFinite (x : F64) : Bool := expo x != 2047

/-- Integer significand of a finite value: |x| = sig x · 2^(ulp x). -/
def sig (x : F64) : Nat := if expo x = 0 then frac x else frac x + 2 ^ 52

/-- Exponent of the unit in the last place of a finite value. -/
def ulp (x : F64) : Int := (if expo x = 0 then 1 else (expo x : Int)) - 1075

/-- The pattern with the given sign and the given 63 lower bits. -/
def pack (n : Bool) (mag : Nat) : F64 := BitVec.ofNat 64 ((if n then 2 ^ 63 else 0) + mag)

/-- The lower 63 bits of an infinity. -/
def infMag : Nat := 2047 * 2 ^ 52

/-- Infinity of the given sign. -/
def inf (n : Bool) : F64 := pack n infMag

/-- The internal NaN. -/
def nan : F64 := 0x7FF8000000000000

/-- m / 2^k, rounded to the nearest integer, ties to even. -/
def shiftRightEven (m k : Nat) : Nat :=
  let q := m >>> k
  let twice := 2 * (m % 2 ^ k)
  if twice < 2 ^ k then q else if 2 ^ k < twice then q + 1 else q + q % 2

/-- The binary64 value nearest to (−1)^n · m · 2^e, ties to even; overflow gives infinity.  The last place kept has exponent `q`: 53
significant bits, or the smallest subnormal's place.  Adding the significand to the exponent field makes a carry out of
the significand move up one binade. -/
def round (n : Bool) (m : Nat) (e : Int) : F64 :=
  if m = 0 then pack n 0
  else
    let q : Int := max (e + (m.log2 : Int) - 52) (-1074)
    let s := if e ≤ q then shiftRightEven m (q - e).toNat else m <<< (e - q).toNat
    pack n (min ((q + 1074).toNat * 2 ^ 52 + s) infMag)

/-- `to_f64(i)` (R15): exact for |i| < 2^53; an integer zero is +0.0. -/
def ofInt (i : Int) : F64 := round (decide (i < 0)) i.natAbs 0

/-- The value of a finite x as an integer multiple of 2^e, for e ≤ ulp x. -/
def scaled (x : F64) (e : Int) : Int :=
  let m : Int := ((sig x <<< (ulp x - e).toNat : Nat) : Int)
  if neg x then -m else m

/-- `fadd(a, b)`.  An exact zero sum is +0.0 unless both operands are negative zeros. -/
def add (a b : F64) : F64 :=
  if isNaN a || isNaN b then nan
  else if isInf a then (if isInf b && neg a != neg b then nan else a)
  else if isInf b then b
  else
    let e := min (ulp a) (ulp b)
    let z := scaled a e + scaled b e
    if z = 0 then pack (neg a && neg b) 0 else round (decide (z < 0)) z.natAbs e

/-- `fmul(a, b)`.  Infinity times zero is a NaN. -/
def mul (a b : F64) : F64 :=
  let n := neg a != neg b
  if isNaN a || isNaN b then nan
  else if isInf a || isInf b then
    (if (isFinite a && sig a == 0) || (isFinite b && sig b == 0) then nan else inf n)
  else round n (sig a * sig b) (ulp a + ulp b)

/-- `fdiv(a, b)`.  A finite quotient is computed to more than 64 bits with a sticky last bit, which rounds as the exact quotient
does. -/
def div (a b : F64) : F64 :=
  let n := neg a != neg b
  if isNaN a || isNaN b then nan
  else if isInf a then (if isInf b then nan else inf n)
  else if isInf b then pack n 0
  else if sig b = 0 then (if sig a = 0 then nan else inf n)
  else
    let top := sig a <<< 120
    let q := 2 * (top / sig b) + (if top % sig b = 0 then 0 else 1)
    round n q (ulp a - ulp b - 121)

/-- `trunc(x)` for a finite x (00_scope.md R14): toward zero, an exact integer. -/
def trunc (x : F64) : Int :=
  let m : Nat := if 0 ≤ ulp x then sig x <<< (ulp x).toNat else sig x >>> (-(ulp x)).toNat
  if neg x then -(m : Int) else m

/-- The lower 63 bits, signed by the sign bit: orders the patterns as numbers, with −0.0 equal to +0.0. -/
def rank (x : F64) : Int := if neg x then -((x.toNat % 2 ^ 63 : Nat) : Int) else ((x.toNat % 2 ^ 63 : Nat) : Int)

/-- `a < b`; false if either is a NaN. -/
def lt (a b : F64) : Bool := !isNaN a && !isNaN b && decide (rank a < rank b)

end F64

end Sys2Proof.Machine
end

