-- ==== Sys2Proof/Machine/Quantizer.lean ====
section
/-! DEFINITION. The quantizer: QMSET, QUANT, DEQUANT (41_quantizer.md). -/

namespace Sys2Proof.Machine

/-- The multiplier of quality `q`, integer division (R250). -/
def qmMultiplier (q : Nat) : Nat := if q < 50 then 5000 / q else 200 - 2 * q

/-- `qm_cell(q, i)` with base cell `b` (R250): the explicit floor at 1 is the spec's (90_conflicts.md C2). -/
def qmCell (b q : Nat) : Nat := max 1 ((qmMultiplier q * b + 50) / 100)

/-- The matrix of quality `q` (R252), cells of 16 bits (R72). -/
def qmMatrix (p : Params) (q : Nat) : Tab (BitVec 16) 64 :=
  Tab.ofFn fun i => BitVec.ofNat 16 (qmCell (p.qbase.get i).toNat q)

/-- QMSET (R252). -/
def runQmset (s : State) : Ran :=
  if s.opQuality < 1 ∨ 99 < s.opQuality then s.raised .quality
  else State.ok { s with qm := qmMatrix s.params s.opQuality }

/-- QMSET (R252). -/
def execQmset (s : State) : Host.Outcome State Fault Refusal := (runQmset s).finish

/-- One cell of QUANT: the low 8 bits of `trunc(fdiv(c, to_f64(q)))` (R254, R255). -/
def quantCell (c : F64) (q : BitVec 16) : Byte := BitVec.ofInt 8 (F64.trunc (F64.div c (F64.ofInt q.toNat)))

/-- QUANT after its check (R255). -/
def quantBody (s : State) : State := { s with qblk := Tab.ofFn fun i => quantCell (s.coef.get i) (s.qm.get i) }

/-- QUANT (R255): a NaN or an infinity anywhere in COEF raises E_FP with no effect. -/
def runQuant (s : State) : Ran :=
  if s.coef.cells.all F64.isFinite then State.ok (quantBody s) else s.raised .fp

/-- QUANT (R255). -/
def execQuant (s : State) : Host.Outcome State Fault Refusal := (runQuant s).finish

/-- One cell of DEQUANT: `to_f64(sext_8(b) · q)` (R256, R257). -/
def dequantCell (b : Byte) (q : BitVec 16) : F64 := F64.ofInt (b.toInt * q.toNat)

/-- DEQUANT (R257). -/
def dequantBody (s : State) : State := { s with coef := Tab.ofFn fun i => dequantCell (s.qblk.get i) (s.qm.get i) }

/-- DEQUANT (R257). -/
def execDequant (s : State) : Host.Outcome State Fault Refusal := (dequantBody s).ok.finish

end Sys2Proof.Machine
end

