-- ==== Sys2Proof/Machine/Transform.lean ====
section
/-! DEFINITION. The transform engine: FDCT, IDCT, RECON (40_transform.md).  Every binary64 operation and its order are those of R203 and
R205, so the results are exact bit patterns (R202). -/

namespace Sys2Proof.Machine

/-- BETA = 0.25 (R200). -/
def beta : F64 := 0x3FD0000000000000

/-- ALPHA[u] (R200): the binary64 value nearest 1/√2 at u = 0, 1.0 elsewhere. -/
def alpha (u : Fin 8) : F64 := if u = 0 then 0x3FE6A09E667F3BCD else 0x3FF0000000000000

/-- 128.0 -/
def f128 : F64 := 0x4060000000000000

/-- 255.0 -/
def f255 : F64 := 0x406FE00000000000

/-- COS_TABLE[x][u] (R200). -/
def cosAt (p : Params) (x u : Fin 8) : F64 := p.cosTable.get (cellIx x u)

/-- The sum of eight terms, from +0.0, in ascending index order (R203, R205). -/
def sum8 (f : Fin 8 → F64) : F64 := (List.finRange 8).foldl (fun acc k => F64.add acc (f k)) F64.zero

/-- A sample after the level shift, exact (R203). -/
def levelShift (b : Byte) : F64 := F64.ofInt ((b.toNat : Int) - 128)

/-- The forward transform's row pass: T[x][v], along the column index y (R203). -/
def fdctRows (p : Params) (smp : Tab F64 64) : Tab F64 64 :=
  Tab.ofFn fun i => sum8 fun y => F64.mul (smp.get (cellIx (rowOf i) y)) (cosAt p y (colOf i))

/-- The forward transform's column pass and scale: COEF[8u + v], along the row index x (R203). -/
def fdctCols (p : Params) (t : Tab F64 64) : Tab F64 64 :=
  Tab.ofFn fun i =>
    F64.mul (F64.mul (F64.mul beta (alpha (rowOf i))) (alpha (colOf i)))
      (sum8 fun x => F64.mul (t.get (cellIx x (colOf i))) (cosAt p x (rowOf i)))

/-- The 64 sample bytes of the block at `base` (R201). -/
def readBlock (s : State) (base : Nat) : Tab Byte 64 := Tab.ofFn fun i => s.readByte (blockAddr base s.opStride i)

/-- The forward transform of 64 sample bytes (R203). -/
def forwardDct (p : Params) (smp : Tab Byte 64) : Tab F64 64 :=
  fdctCols p (fdctRows p (Tab.ofFn fun i => levelShift (smp.get i)))

/-- FDCT after its check (R203): COEF is written only after every read. -/
def fdctBody (s : State) : State := { s with coef := forwardDct s.params (readBlock s s.opSrc) }

/-- FDCT (R203). -/
def runFdct (s : State) : Ran :=
  if s.blockInRange s.opSrc then State.ok (fdctBody s) else s.raised .addr

/-- FDCT (R203). -/
def execFdct (s : State) : Host.Outcome State Fault Refusal := (runFdct s).finish

/-- The inverse transform's row pass: T[u][y], along the column index v (R205). -/
def idctRows (p : Params) (c : Tab F64 64) : Tab F64 64 :=
  Tab.ofFn fun i => sum8 fun v =>
    F64.mul (F64.mul (c.get (cellIx (rowOf i) v)) (alpha v)) (cosAt p (colOf i) v)

/-- The inverse transform's column pass, scale and level shift: OUT[8x + y], along the row index u (R205). -/
def idctCols (p : Params) (t : Tab F64 64) : Tab F64 64 :=
  Tab.ofFn fun i =>
    F64.add (F64.mul beta (sum8 fun u =>
      F64.mul (F64.mul (t.get (cellIx u (colOf i))) (alpha u)) (cosAt p (rowOf i) u))) f128

/-- The inverse transform of COEF (R205), every output from the old COEF. -/
def inverseDct (p : Params) (c : Tab F64 64) : Tab F64 64 := idctCols p (idctRows p c)

/-- A NaN result as it becomes visible: any NaN pattern may be the one, as the draw `d` ranges (I6, D42).  Any other result is itself. -/
def settleNaN (d x : F64) : F64 := if F64.isNaN x then (if F64.isNaN d then d else F64.nan) else x

/-- IDCT (R205).  Cell `i` takes draw number `draws + i` if its result is a NaN. -/
def idctBody (s : State) : State :=
  let out := inverseDct s.params s.coef
  { s with
    coef := Tab.ofFn fun i => settleNaN (Config.freeNaN (s.draws + i.val)) (out.get i)
    draws := s.draws + 64 }

/-- IDCT (R205): it always completes. -/
def execIdct (s : State) : Host.Outcome State Fault Refusal := (idctBody s).ok.finish

/-- `round_R(w)` for w in [0.0, 255.0] (R208): the mathematical rounding of the exact value sig · 2^ulp. -/
def roundSample (mode : RoundMode) (w : F64) : Nat :=
  let k := (-(F64.ulp w)).toNat
  match mode with
  | .nearestEven => F64.shiftRightEven (F64.sig w) k
  | .trunc => F64.sig w >>> k
  | .nearestAway => (2 * F64.sig w + 2 ^ k) >>> (k + 1)

/-- The clamp to [0.0, 255.0]: saturation, not wrap (R207). -/
def clampSample (v : F64) : F64 :=
  if F64.lt v F64.zero then F64.zero else if F64.lt f255 v then f255 else v

/-- One sample of RECON (R207). -/
def reconCell (mode : RoundMode) (v : F64) : Byte := BitVec.ofNat 8 (roundSample mode (clampSample v))

/-- RECON after its checks (R207): the 64 bytes in ascending (r, c) order, so a later cell wins where cells overlap. -/
def reconBody (s : State) : State :=
  s.writeCells (blockAddr s.opDst s.opStride) (Tab.ofFn fun i => reconCell s.params.reconRound (s.coef.get i))

/-- RECON (R207): E_ADDR first, then E_FP, each with no effect. -/
def runRecon (s : State) : Ran :=
  if !s.blockInRange s.opDst then s.raised .addr
  else if s.coef.cells.any F64.isNaN then s.raised .fp
  else State.ok (reconBody s)

/-- RECON (R207). -/
def execRecon (s : State) : Host.Outcome State Fault Refusal := (runRecon s).finish

end Sys2Proof.Machine
end

