-- ==== Sys2Proof/Machine/Zigzag.lean ====
section
/-! DEFINITION. The zigzag reorderer: ZZSCAN, ZZUNSCAN (42_zigzag.md). -/

namespace Sys2Proof.Machine

/-- ZZ[k], the block cell of linear position k (R300). -/
def zigzag : Tab (Fin 64) 64 :=
  ⟨[0, 1, 8, 16, 9, 2, 3, 10] ++
   [17, 24, 32, 25, 18, 11, 4, 5] ++
   [12, 19, 26, 33, 40, 48, 41, 34] ++
   [27, 20, 13, 6, 7, 14, 21, 28] ++
   [35, 42, 49, 56, 57, 50, 43, 36] ++
   [29, 22, 15, 23, 30, 37, 44, 51] ++
   [58, 59, 52, 45, 38, 31, 39, 46] ++
   [53, 60, 61, 54, 47, 55, 62, 63], rfl⟩

/-- ZZINV[i], the linear position of cell i (R301). -/
def zigzagInv : Tab (Fin 64) 64 :=
  ⟨[0, 1, 5, 6, 14, 15, 27, 28] ++
   [2, 4, 7, 13, 16, 26, 29, 42] ++
   [3, 8, 12, 17, 25, 30, 41, 43] ++
   [9, 11, 18, 24, 31, 40, 44, 53] ++
   [10, 19, 23, 32, 39, 45, 52, 54] ++
   [20, 22, 33, 38, 46, 51, 55, 60] ++
   [21, 34, 37, 47, 50, 56, 59, 61] ++
   [35, 36, 48, 49, 57, 58, 62, 63], rfl⟩

/-- ZZSCAN after its check (R302): DMEM[DST + k] = QBLK[ZZ[k]], k ascending. -/
def zzscanBody (s : State) : State :=
  s.writeCells (fun k : Fin 64 => s.opDst + k.val) (Tab.ofFn fun k => s.qblk.get (zigzag.get k))

/-- ZZSCAN (R302). -/
def runZzscan (s : State) : Ran :=
  if s.inRange s.opDst 64 then State.ok (zzscanBody s) else s.raised .addr

/-- ZZSCAN (R302). -/
def execZzscan (s : State) : Host.Outcome State Fault Refusal := (runZzscan s).finish

/-- ZZUNSCAN after its check (R303): QBLK[ZZ[k]] = DMEM[SRC + k], k ascending. -/
def zzunscanBody (s : State) : State :=
  { s with
    qblk := (List.finRange 64).foldl (fun q k => q.set (zigzag.get k) (s.readByte (s.opSrc + k.val))) s.qblk }

/-- ZZUNSCAN (R303). -/
def runZzunscan (s : State) : Ran :=
  if s.inRange s.opSrc 64 then State.ok (zzunscanBody s) else s.raised .addr

/-- ZZUNSCAN (R303). -/
def execZzunscan (s : State) : Host.Outcome State Fault Refusal := (runZzunscan s).finish

end Sys2Proof.Machine
end

