-- ==== Sys2Proof/Machine/Pipeline.lean ====
section
/-! DEFINITION. The per-block pipeline: BLKENC, BLKDEC (45_pipeline.md).  Every check comes first; then the stages' bodies run in sequence
and the command completes once. -/

namespace Sys2Proof.Machine

/-- BLKENC after its checks (R430): FDCT, QUANT, ZZSCAN. -/
def blkencBody (s : State) : State := zzscanBody (quantBody (fdctBody s))

/-- BLKENC (R430). -/
def runBlkenc (s : State) : Ran :=
  if !s.blockInRange s.opSrc then s.raised .addr
  else if !s.inRange s.opDst 64 then s.raised .addr
  else State.ok (blkencBody s)

/-- BLKENC (R430). -/
def execBlkenc (s : State) : Host.Outcome State Fault Refusal := (runBlkenc s).finish

/-- BLKDEC after its checks (R431): ZZUNSCAN, DEQUANT, IDCT, RECON. -/
def blkdecBody (s : State) : State := reconBody (idctBody (dequantBody (zzunscanBody s)))

/-- BLKDEC (R431). -/
def runBlkdec (s : State) : Ran :=
  if !s.inRange s.opSrc 64 then s.raised .addr
  else if !s.blockInRange s.opDst then s.raised .addr
  else State.ok (blkdecBody s)

/-- BLKDEC (R431). -/
def execBlkdec (s : State) : Host.Outcome State Fault Refusal := (runBlkdec s).finish

end Sys2Proof.Machine
end

