-- ==== Sys2Proof/Machine/System.lean ====
section
/-! DEFINITION. NOP (46_system.md R450), and the completion of an illegal command word (30_encoding.md R154). -/

namespace Sys2Proof.Machine

/-- NOP: nothing besides what acceptance and completion write (R450). -/
def execNop (s : State) : Host.Outcome State Fault Refusal := s.ok.finish

/-- An illegal word completes with E_ILLEGAL_CMD, 'with no other effect' (R154, 60_exceptions.md R502). -/
def runIllegal (s : State) : Host.Outcome State Fault Refusal := (s.raised .illegalCmd).finish

end Sys2Proof.Machine
end

