-- ==== Sys2Proof/Machine/Dispatch.lean ====
section
/-! DEFINITION. The meaning of each command: the engine step of a pending command, run in state `s` on its context `s.op`
(60_exceptions.md R500). -/

namespace Sys2Proof.Machine

def exec (i : Instr) (s : State) : Host.Outcome State Fault Refusal :=
  match i with
  | .nop => Sys2Proof.Machine.execNop s
  | .qmset => Sys2Proof.Machine.execQmset s
  | .fdct => Sys2Proof.Machine.execFdct s
  | .idct => Sys2Proof.Machine.execIdct s
  | .recon => Sys2Proof.Machine.execRecon s
  | .quant => Sys2Proof.Machine.execQuant s
  | .dequant => Sys2Proof.Machine.execDequant s
  | .zzscan => Sys2Proof.Machine.execZzscan s
  | .zzunscan => Sys2Proof.Machine.execZzunscan s
  | .freqclr => Sys2Proof.Machine.execFreqclr s
  | .freqacc => Sys2Proof.Machine.execFreqacc s
  | .treebuild => Sys2Proof.Machine.execTreebuild s
  | .bbreset => Sys2Proof.Machine.execBbreset s
  | .bbput => Sys2Proof.Machine.execBbput s
  | .bbflush => Sys2Proof.Machine.execBbflush s
  | .encode => Sys2Proof.Machine.execEncode s
  | .decode => Sys2Proof.Machine.execDecode s
  | .blkenc => Sys2Proof.Machine.execBlkenc s
  | .blkdec => Sys2Proof.Machine.execBlkdec s

end Sys2Proof.Machine
end

