-- ==== Sys2Proof/Machine/Hazard.lean ====
section
/-! DEFINITION. What a pending command may touch: its DMEM footprint F(op) (20_memory.md R112), and the registers and windows W(op) it may
write (70_reset_and_hazards.md R620).  They decide which host accesses are hazards, and which reads are draws. -/

namespace Sys2Proof.Machine

/-- `a` is in the `n` bytes from `base` up. -/
def within (base n a : Nat) : Bool := base ≤ a && a < base + n

/-- `a` is one of the 64 cells of the block at `base` (R112). -/
def inBlock (s : State) (base a : Nat) : Bool := (List.finRange 64).any fun i => blockAddr base s.opStride i == a

/-- The read part of a command's footprint (R112). -/
def readsByte (s : State) (a : Nat) : Instr → Bool
  | .fdct | .blkenc => inBlock s s.opSrc a
  | .zzunscan | .blkdec => within s.opSrc 64 a
  | .freqacc | .encode => within s.opSrc s.opLen a
  | .decode => within s.opSrc ((s.opBitcnt + 7) / 8) a
  | .nop | .qmset | .idct | .recon | .quant | .dequant | .zzscan | .freqclr | .treebuild | .bbreset | .bbput | .bbflush =>
    false

/-- Bytes of capacity the open stream has left. -/
def capacityLeft (bb : BitBuffer) : Nat := bb.limit.toNat - bb.outcnt.toNat

/-- The write part of a command's footprint (R112).  The bit buffer's values are those at acceptance: nothing changes them while the
command is pending. -/
def writesByte (s : State) (a : Nat) : Instr → Bool
  | .recon | .blkdec => inBlock s s.opDst a
  | .zzscan | .blkenc => within s.opDst 64 a
  | .encode => within s.bb.outptr.toNat (capacityLeft s.bb) a
  | .bbput => within s.bb.outptr.toNat (min 4 (capacityLeft s.bb)) a
  | .bbflush => within s.bb.outptr.toNat 1 a
  | .decode => within s.opDst s.opDstlen a
  | .nop | .qmset | .fdct | .idct | .quant | .dequant | .zzunscan | .freqclr | .freqacc | .treebuild | .bbreset => false

/-- The registers of the bit buffer, written by BBRESET, BBPUT, BBFLUSH and ENCODE (R620). -/
def Reg.isBitBuffer : Reg → Bool
  | .outptr | .bbOutcnt | .bbLimit | .bbState | .bbtotLo | .bbtotHi => true
  | _ => false

/-- COEF, as a window. -/
def Reg.isCoef : Reg → Bool
  | .coefLo _ | .coefHi _ => true
  | _ => false

/-- QBLK, as a window. -/
def Reg.isQblk : Reg → Bool
  | .qblk _ => true
  | _ => false

/-- FREQ, as a window. -/
def Reg.isFreq : Reg → Bool
  | .freq _ => true
  | _ => false

/-- CODE, as a window. -/
def Reg.isCode : Reg → Bool
  | .codeBits _ | .codeLen _ => true
  | _ => false

/-- QM, as a window. -/
def Reg.isQm : Reg → Bool
  | .qm _ => true
  | _ => false

/-- W(op) besides STATUS (R620): what each command may write. -/
def mayWrite (r : Reg) : Instr → Bool
  | .nop | .recon | .zzscan => false
  | .qmset => Reg.isQm r
  | .fdct | .idct | .dequant => Reg.isCoef r
  | .quant | .zzunscan => Reg.isQblk r
  | .freqclr | .freqacc => Reg.isFreq r
  | .treebuild => Reg.isCode r || r == .nsym || r == .maxlen
  | .bbreset | .bbput => Reg.isBitBuffer r
  | .bbflush => Reg.isBitBuffer r || r == .bitcntLo || r == .bitcntHi
  | .encode => Reg.isBitBuffer r || r == .encPos
  | .decode => r == .decOutlen || r == .decBitposLo || r == .decBitposHi
  | .blkenc | .blkdec => Reg.isCoef r || Reg.isQblk r

/-- `p` holds of the pending command, if one is pending and its word is legal.  An illegal word has no footprint and an empty W(op). -/
def pendingHas (s : State) (p : Instr → Bool) : Bool :=
  s.status.busy &&
    match decode s.op.word with
    | .ok i => p i
    | .error _ => false

/-- `a` is in F(op), read or write part, of the pending command. -/
def State.inFootprint (s : State) (a : Nat) : Bool := pendingHas s fun i => readsByte s a i || writesByte s a i

/-- `a` is in the write part of F(op) of the pending command. -/
def State.inWriteFootprint (s : State) (a : Nat) : Bool := pendingHas s (writesByte s a)

/-- Register `r` is in W(op) of the pending command. -/
def State.inWriteSet (s : State) (r : Reg) : Bool := pendingHas s (mayWrite r)

end Sys2Proof.Machine
end

