-- ==== Sys2Proof/Machine/HostPort.lean ====
section
/-! DEFINITION. The host's side: the register port (20_memory.md R100, 10_state.md R40 to R74), the memory port (R101, R104), and what
each access does while the engine is idle and while a command is pending (70_reset_and_hazards.md R620). -/

namespace Sys2Proof.Machine

/-! ### The register map -/

/-- Which register stands at offset `off`, a multiple of 4 below 0x2000 (10_state.md §2).  Any other offset is never looked up. -/
def regAt (off : Nat) : Reg :=
  if off < 0x6C then
    match off / 4 with
    | 0 => .id
    | 1 => .ctrl
    | 2 => .status
    | 3 => .cmd
    | 4 => .quality
    | 5 => .src
    | 6 => .dst
    | 7 => .len
    | 8 => .stride
    | 9 => .dstlen
    | 10 => .putbits
    | 11 => .putlen
    | 12 => .bitcntLo
    | 13 => .bitcntHi
    | 14 => .outptr
    | 15 => .bbOutcnt
    | 16 => .bbLimit
    | 17 => .bbState
    | 18 => .bbtotLo
    | 19 => .bbtotHi
    | 20 => .decOutlen
    | 21 => .decBitposLo
    | 22 => .decBitposHi
    | 23 => .encPos
    | 24 => .nsym
    | 25 => .maxlen
    | _ => .dmemsz
  else if off < 0x400 then .reserved
  else if h : off < 0x800 then .freq ⟨(off - 0x400) / 4, by omega⟩
  else if h : off < 0x1000 then
    (if off % 8 = 0 then .codeBits ⟨(off - 0x800) / 8, by omega⟩ else .codeLen ⟨(off - 0x800) / 8, by omega⟩)
  else if h : off < 0x1100 then .qm ⟨(off - 0x1000) / 4, by omega⟩
  else if h : off < 0x1300 then
    (if off % 8 = 0 then .coefLo ⟨(off - 0x1100) / 8, by omega⟩ else .coefHi ⟨(off - 0x1100) / 8, by omega⟩)
  else if h : off < 0x1340 then .qblk ⟨(off - 0x1300) / 4, by omega⟩
  else .reserved

/-- QBLK cell 4k + j (R74). -/
def qblkIx (k : Fin 16) (j : Fin 4) : Fin 64 := ⟨4 * k.val + j.val, by omega⟩

/-- BB_STATE: ACC in [7:0], NBITS in [11:8] (R58). -/
def BitBuffer.stateWord (bb : BitBuffer) : Word := (0 : BitVec 20) ++ (BitVec.ofNat 4 bb.nbits.val ++ bb.acc)

/-- What a host read of a register returns when it is not a draw (10_state.md §2, §3). -/
def regValue (s : State) : Reg → Word
  | .id => 0x38544344
  | .ctrl => (BitVec.ofBool s.ie).zeroExtend 32
  | .status => s.status.word
  | .cmd => s.cmd
  | .quality => s.regs.quality.zeroExtend 32
  | .src => s.regs.src
  | .dst => s.regs.dst
  | .len => s.regs.len
  | .stride => s.regs.stride
  | .dstlen => s.regs.dstlen
  | .putbits => s.regs.putbits
  | .putlen => s.regs.putlen.zeroExtend 32
  | .bitcntLo => DWord.lo s.regs.bitcnt
  | .bitcntHi => DWord.hi s.regs.bitcnt
  | .outptr => s.bb.outptr
  | .bbOutcnt => s.bb.outcnt
  | .bbLimit => s.bb.limit
  | .bbState => s.bb.stateWord
  | .bbtotLo => DWord.lo s.bb.tot
  | .bbtotHi => DWord.hi s.bb.tot
  | .decOutlen => s.decOutlen
  | .decBitposLo => DWord.lo s.decBitpos
  | .decBitposHi => DWord.hi s.decBitpos
  | .encPos => s.encPos
  | .nsym => s.nsym.zeroExtend 32
  | .maxlen => s.maxlen.zeroExtend 32
  | .dmemsz => BitVec.ofNat 32 s.params.dmemSize
  | .reserved => 0
  | .freq i => s.freq.get i
  | .codeBits i => (s.code.get i).bits
  | .codeLen i => (s.code.get i).len.zeroExtend 32
  | .qm i => (s.qm.get i).zeroExtend 32
  | .coefLo i => DWord.lo (s.coef.get i)
  | .coefHi i => DWord.hi (s.coef.get i)
  | .qblk k => s.qblk.get (qblkIx k 3) ++ (s.qblk.get (qblkIx k 2) ++ (s.qblk.get (qblkIx k 1) ++ s.qblk.get (qblkIx k 0)))

/-- Replace the low half of a 64-bit value (R54, R73). -/
def DWord.withLo (x : DWord) (v : Word) : DWord := DWord.hi x ++ v

/-- Replace the high half of a 64-bit value (R54, R73). -/
def DWord.withHi (x : DWord) (v : Word) : DWord := v ++ DWord.lo x

/-- Byte `j` of a word, byte 0 in bits [7:0] (20_memory.md R104). -/
def byteOf (v : Word) (j : Nat) : Byte := v.extractLsb' (8 * j) 8

/-- Write QBLK word `k` (R74). -/
def writeQblkWord (q : Tab Byte 64) (k : Fin 16) (v : Word) : Tab Byte 64 :=
  (((q.set (qblkIx k 0) (byteOf v 0)).set (qblkIx k 1) (byteOf v 1)).set (qblkIx k 2) (byteOf v 2)).set (qblkIx k 3) (byteOf v 3)

/-- A host write to CMD: accepted while idle (60_exceptions.md R501), dropped while a command is pending (R503). -/
def writeCmd (s : State) (v : Word) : State :=
  if s.status.busy then { s with status := s.status.drop } else s.accept v

/-- A host write to CTRL: SRST = 1 is a soft reset, whatever bit 0 holds (R601); SRST = 0 writes IE (R43). -/
def writeCtrl (s : State) (v : Word) : State :=
  if v.getLsbD 1 then s.softReset else { s with ie := v.getLsbD 0 }

/-- What a host write of `v` to a register does when it is no hazard (10_state.md §2, §3): RO and reserved registers ignore it, and a
narrow field keeps its low bits. -/
def regWrite (s : State) (v : Word) : Reg → State
  | .ctrl => writeCtrl s v
  | .status => s.acknowledge v
  | .cmd => writeCmd s v
  | .quality => { s with regs := { s.regs with quality := v.truncate 8 } }
  | .src => { s with regs := { s.regs with src := v } }
  | .dst => { s with regs := { s.regs with dst := v } }
  | .len => { s with regs := { s.regs with len := v } }
  | .stride => { s with regs := { s.regs with stride := v } }
  | .dstlen => { s with regs := { s.regs with dstlen := v } }
  | .putbits => { s with regs := { s.regs with putbits := v } }
  | .putlen => { s with regs := { s.regs with putlen := v.truncate 6 } }
  | .bitcntLo => { s with regs := { s.regs with bitcnt := DWord.withLo s.regs.bitcnt v } }
  | .bitcntHi => { s with regs := { s.regs with bitcnt := DWord.withHi s.regs.bitcnt v } }
  | .freq i => { s with freq := s.freq.set i v }
  | .codeBits i => { s with code := s.code.set i { s.code.get i with bits := v } }
  | .codeLen i => { s with code := s.code.set i { s.code.get i with len := v.truncate 6 } }
  | .coefLo i => { s with coef := s.coef.set i (DWord.withLo (s.coef.get i) v) }
  | .coefHi i => { s with coef := s.coef.set i (DWord.withHi (s.coef.get i) v) }
  | .qblk k => { s with qblk := writeQblkWord s.qblk k v }
  | .id | .outptr | .bbOutcnt | .bbLimit | .bbState | .bbtotLo | .bbtotHi | .decOutlen | .decBitposLo | .decBitposHi | .encPos
  | .nsym | .maxlen | .dmemsz | .reserved | .qm _ => s

/-- Which host register writes are the model fault HAZARD while a command is pending (R620). -/
def regWriteHazard (v : Word) : Reg → Option Fault
  | .bitcntLo | .bitcntHi => some .hazardBitcnt
  | .ctrl => if v.getLsbD 1 then some .hazardSoftReset else none
  | .freq _ | .codeBits _ | .codeLen _ | .coefLo _ | .coefHi _ | .qblk _ => some .hazardWindow
  | .id | .status | .cmd | .quality | .src | .dst | .len | .stride | .dstlen | .putbits | .putlen | .outptr | .bbOutcnt | .bbLimit
  | .bbState | .bbtotLo | .bbtotHi | .decOutlen | .decBitposLo | .decBitposHi | .encPos | .nsym | .maxlen | .dmemsz | .reserved
  | .qm _ => none

/-! ### Responses -/

/-- The port answers with data. -/
def State.respond (s : State) (v : Word) : State := { s with resp := some ⟨v, false⟩ }

/-- The bus-error response: a read returns 0, a write changes nothing (R100, R101).  It is no core error: ERR stays (60_exceptions.md
R512). -/
def State.busError (s : State) : State := { s with resp := some ⟨0, true⟩ }

/-! ### The two ports -/

/-- The register port allows the access: a word at a multiple of 4 below 0x2000 (R100). -/
def regAccessOk (off size : Nat) : Bool := size == 4 && off % 4 == 0 && off < 0x2000

/-- The memory port allows the access: 1, 2 or 4 bytes, naturally aligned, in range (R101). -/
def memAccessOk (s : State) (a size : Nat) : Bool :=
  (size == 1 || size == 2 || size == 4) && a % size == 0 && s.inRange a size

/-- A register-port read: a draw where the pending command may write the register, else the current value (R620). -/
def hostRegRead (s : State) (off size : Nat) : State :=
  if !regAccessOk off size then s.busError
  else if s.inWriteSet (regAt off) then State.respond { s with draws := s.draws + 1 } (Config.freeWord s.draws)
  else s.respond (regValue s (regAt off))

/-- A register-port write (R100, R620). -/
def hostRegWrite (s : State) (off size : Nat) (v : Word) : Host.Outcome State Fault Refusal :=
  if !regAccessOk off size then .next s.busError
  else
    match (if s.status.busy then regWriteHazard v (regAt off) else none) with
    | some f => .fault f
    | none => .next ((regWrite s v (regAt off)).respond 0)

/-- The byte a memory-port read sees at `a`, `j` bytes into the access: a draw where the pending command may write it, else the current
byte (R620). -/
def hostByte (s : State) (a j : Nat) : Byte :=
  if s.inWriteFootprint a then Config.freeByte (s.draws + j) else s.readByte a

/-- The little-endian word of the `size` bytes from `a` up (R104).  The bits above them are 0: DESIGN CHOICE, the spec says only which bits the
bytes occupy (log entry 6). -/
def hostWord (s : State) (a : Nat) : Nat → Word
  | 0 => 0
  | n + 1 => hostWord s a n ||| ((hostByte s (a + n) n).zeroExtend 32 <<< (8 * n))

/-- A memory-port read (R101, R104, R620). -/
def hostMemRead (s : State) (a size : Nat) : State :=
  if !memAccessOk s a size then s.busError
  else State.respond { s with draws := s.draws + size } (hostWord s a size)

/-- The `size` bytes of a memory-port write, byte `j` of the value at `a + j` (R104). -/
def writeWord (s : State) (a : Nat) (v : Word) : Nat → State
  | 0 => s
  | n + 1 => (writeWord s a v n).writeByte (a + n) (byteOf v n)

/-- A memory-port write: the model fault HAZARD where a byte of it is in the pending command's footprint (R620). -/
def hostMemWrite (s : State) (a size : Nat) (v : Word) : Host.Outcome State Fault Refusal :=
  if !memAccessOk s a size then .next s.busError
  else if (List.range size).any fun j => s.inFootprint (a + j) then .fault .hazardFootprint
  else .next ((writeWord s a v size).respond 0)

/-- The host's turn: one access. -/
def hostTurn (s : State) : HostOp → Host.Outcome State Fault Refusal
  | .regRead off size => .next (hostRegRead s off size)
  | .regWrite off size v => hostRegWrite s off size v
  | .memRead a size => .next (hostMemRead s a.toNat size)
  | .memWrite a size v => hostMemWrite s a.toNat size v

end Sys2Proof.Machine
end

