-- ==== Sys2Proof/Machine/Engine.lean ====
section
/-! DEFINITION. The two agents' turns (00_scope.md R11, 60_exceptions.md R500), and the host programs of 30_encoding.md R156, R157 as lists of
turns. -/

namespace Sys2Proof.Machine

/-- The engine's turn (R500): a pending command is decoded and runs from start to end in one step; an illegal word completes with
E_ILLEGAL_CMD (R154).  An idle engine holds all its state (R545). -/
def engineTurn (s : State) : Host.Outcome State Fault Refusal :=
  if s.status.busy then
    match decode s.op.word with
    | .ok i => exec i s
    | .error _ => runIllegal s
  else .next s

/-- Take the next turn of the list.  When the list is empty the engine takes the turn, so a pending command completes (the weak fairness
of R500). -/
def takeTurn (s : State) : Host.Outcome State Fault Refusal :=
  match s.turns with
  | [] => engineTurn s
  | .engine :: rest => engineTurn { s with turns := rest }
  | .host o :: rest => hostTurn { s with turns := rest } o

/-- Place command word `w` as the pending command of `s`, with the operand registers latched, and give the engine the next turn. -/
def placeCommand (s : State) (w : Word) : State := { s.accept w with turns := .engine :: s.turns }

/-! ### Host programs -/

/-- The offset of each register (10_state.md §2, §3). -/
def offsetOf : Reg → Nat
  | .id => 0x000
  | .ctrl => 0x004
  | .status => 0x008
  | .cmd => 0x00C
  | .quality => 0x010
  | .src => 0x014
  | .dst => 0x018
  | .len => 0x01C
  | .stride => 0x020
  | .dstlen => 0x024
  | .putbits => 0x028
  | .putlen => 0x02C
  | .bitcntLo => 0x030
  | .bitcntHi => 0x034
  | .outptr => 0x038
  | .bbOutcnt => 0x03C
  | .bbLimit => 0x040
  | .bbState => 0x044
  | .bbtotLo => 0x048
  | .bbtotHi => 0x04C
  | .decOutlen => 0x050
  | .decBitposLo => 0x054
  | .decBitposHi => 0x058
  | .encPos => 0x05C
  | .nsym => 0x060
  | .maxlen => 0x064
  | .dmemsz => 0x068
  | .reserved => 0x06C
  | .freq s => 0x400 + 4 * s.val
  | .codeBits s => 0x800 + 8 * s.val
  | .codeLen s => 0x804 + 8 * s.val
  | .qm i => 0x1000 + 4 * i.val
  | .coefLo i => 0x1100 + 8 * i.val
  | .coefHi i => 0x1104 + 8 * i.val
  | .qblk k => 0x1300 + 4 * k.val

namespace Program

/-- `WR <REG>, <v>` (R156). -/
def wr (r : Reg) (v : Word) : List Turn := [.host (.regWrite (offsetOf r) 4 v)]

/-- `RD <REG>` (R156). -/
def rd (r : Reg) : List Turn := [.host (.regRead (offsetOf r) 4)]

/-- `CMD <MNEMONIC>` (R156). -/
def cmd (i : Instr) : List Turn := wr .cmd (encode i)

/-- `WAIT` (R156): `polls` reads of STATUS while the command is pending, then the engine's step, then the read that sees BUSY = 0. -/
def wait (polls : Nat) : List Turn := (List.replicate polls (rd .status)).flatten ++ [.engine] ++ rd .status

/-- `RUN <MNEMONIC>` (R157). -/
def run (i : Instr) (polls : Nat) : List Turn := cmd i ++ wait polls

/-- `CLRST` (R157). -/
def clrst : List Turn := wr .status 0x0000000E

/-- `WR BITCNT, <v>` (R157). -/
def wrBitcnt (v : DWord) : List Turn := wr .bitcntLo (DWord.lo v) ++ wr .bitcntHi (DWord.hi v)

/-- `WR COEF[i], <f>` (R157). -/
def wrCoef (i : Fin 64) (f : F64) : List Turn := wr (.coefLo i) (DWord.lo f) ++ wr (.coefHi i) (DWord.hi f)

/-- `MW1`, `MW2`, `MW4 <a>, <v>` (R156). -/
def mw (size : Nat) (a v : Word) : List Turn := [.host (.memWrite a size v)]

/-- `MR1`, `MR2`, `MR4 <a>` (R156). -/
def mr (size : Nat) (a : Word) : List Turn := [.host (.memRead a size)]

/-- `MWB <a>, <b0>, <b1>, …` (R157).  An address `a + i` past 0xFFFFFFFF is taken modulo 2^32: DESIGN CHOICE, the spec does not say which access
that is (log entry 15). -/
def mwb (a : Word) (bs : List Byte) : List Turn :=
  (bs.mapIdx fun i b => mw 1 (a + BitVec.ofNat 32 i) (b.zeroExtend 32)).flatten

end Program

end Sys2Proof.Machine
end

