-- ==== Sys2Proof/Machine/Step.lean ====
section
/-! DEFINITION. One step of the core, and how a command word is placed to be the next thing a step runs. -/

namespace Sys2Proof.Machine

/-- One step: the next turn, the host's or the engine's (00_scope.md R11). -/
def step (s : State) : Host.Outcome State Fault Refusal := takeTurn s

/-- The command word `w` of `nbits` bits as the pending command, the engine to move (log entry 8): the core fetches nothing (10_state.md
R41), so a command comes to run by the host's CMD write and the engine's turn after it. -/
def State.withFetchWord (s : State) (nbits w : Nat) : State := placeCommand s (BitVec.ofNat 32 (w % 2 ^ nbits))

end Sys2Proof.Machine
end

