-- ==== Sys2Proof/Safety.lean ====
section
/-! DEFINITION. What counts as a legal state and a safe step, and the words the claims are written in. -/

namespace Sys2Proof.Machine

/-! ### Legal states -/

/-- The bit buffer is legal: the carried bits fit (44_bitbuffer.md R403 'NBITS is in 0..7 and ACC < 2^NBITS'), the bytes written are
within the capacity, and the stream's length agrees with the carry. -/
structure BitBuffer.Legal (bb : BitBuffer) : Prop where
  acc_lt : bb.acc.toNat < 2 ^ bb.nbits.val
  within_limit : bb.outcnt.toNat ≤ bb.limit.toNat
  carry : bb.tot.toNat % 8 = bb.nbits.val

/-- STATUS is legal: a pending command has not completed (60_exceptions.md R501), and ERRCODE is 0 while ERR = 0 and one of the codes
0x01 to 0x0C while ERR = 1 (10_state.md R44, 60_exceptions.md R511). -/
structure Status.Legal (st : Status) : Prop where
  busy_not_done : st.busy = true → st.done = false
  clear_code : st.err = false → st.errcode = 0
  known_code : st.err = true → 1 ≤ st.errcode.toNat ∧ st.errcode.toNat ≤ 12

/-- The invariant of the core: every state a run reaches is legal. -/
structure State.Legal (s : State) : Prop where
  params : s.params.wellFormed = true
  /-- DMEM keeps its canonical form, and holds no byte outside DMEM_SIZE -/
  mem : Memory.wf s.params.dmemSize s.mem = true
  /-- every QM cell is at least 1 at all times (10_state.md R72) -/
  qm : ∀ i, s.qm.get i ≠ 0
  bb : s.bb.Legal
  status : s.status.Legal
  /-- LASTOP is bits [7:0] of the last accepted word (R44, R45) -/
  lastop : s.status.lastop = opcField s.cmd
  /-- the pending word is the last accepted one (R45, R80) -/
  pending : s.status.busy = true → s.op.word = s.cmd
  /-- NSYM is 0 to 256 (R63) -/
  nsym : s.nsym.toNat ≤ 256

/-! ### Safe steps -/

/-- The step goes on: no HAZARD fault, no refusal. -/
def Goes (o : Host.Outcome State Fault Refusal) : Prop := ∃ t, o = .next t

/-- The host operation is a write on one of the ports. -/
def HostOp.isWrite : HostOp → Bool
  | .regWrite _ _ _ | .memWrite _ _ _ => true
  | .regRead _ _ | .memRead _ _ => false

/-- The host writes `v` to register `r` as a legal access. -/
def HostOp.writes (o : HostOp) (r : Reg) (v : Word) : Prop :=
  ∃ off, o = .regWrite off 4 v ∧ off % 4 = 0 ∧ off < 0x2000 ∧ regAt off = r

/-- The host operation is a write that clears ERR: STATUS with bit 2 set, or CTRL with SRST set. -/
def HostOp.clearsErr (o : HostOp) : Prop :=
  ∃ v, (HostOp.writes o .status v ∧ v.getLsbD 2 = true) ∨ (HostOp.writes o .ctrl v ∧ v.getLsbD 1 = true)

/-! ### The ports, written out from the spec's tables

These are the tables the claims about the ports are stated with.  The machine does not use them: it has its own `regAt`, `regValue`,
`mayWrite`, `readsByte` and `writesByte`. -/

/-- The port takes the write `o`, which leaves `t` but for the recorded answer: no bus error.  The data of a write's answer is left open
(log entry 6). -/
def Takes (s : State) (o : HostOp) (t : State) : Prop := ∃ d, hostTurn s o = .next { t with resp := some ⟨d, false⟩ }

/-- The port answers the write `o` with a bus error, and nothing changes (20_memory.md R100, R101). -/
def Refuses (s : State) (o : HostOp) : Prop := ∃ d, hostTurn s o = .next { s with resp := some ⟨d, true⟩ }

/-- The register map of 10_state.md §2, §3: each offset that is not reserved, and the value it holds. -/
def registerMap (s : State) : List (Nat × Word) :=
  [(0x000, 0x38544344), (0x004, if s.ie then 1 else 0), (0x008, s.status.word), (0x00C, s.cmd),
   (0x010, s.regs.quality.zeroExtend 32), (0x014, s.regs.src), (0x018, s.regs.dst), (0x01C, s.regs.len), (0x020, s.regs.stride),
   (0x024, s.regs.dstlen), (0x028, s.regs.putbits), (0x02C, s.regs.putlen.zeroExtend 32),
   (0x030, s.regs.bitcnt.extractLsb' 0 32), (0x034, s.regs.bitcnt.extractLsb' 32 32)] ++
  [(0x038, s.bb.outptr), (0x03C, s.bb.outcnt), (0x040, s.bb.limit), (0x044, BitVec.ofNat 32 (s.bb.acc.toNat + 256 * s.bb.nbits.val)),
   (0x048, s.bb.tot.extractLsb' 0 32), (0x04C, s.bb.tot.extractLsb' 32 32), (0x050, s.decOutlen),
   (0x054, s.decBitpos.extractLsb' 0 32), (0x058, s.decBitpos.extractLsb' 32 32), (0x05C, s.encPos), (0x060, s.nsym.zeroExtend 32),
   (0x064, s.maxlen.zeroExtend 32), (0x068, BitVec.ofNat 32 s.params.dmemSize)] ++
  (List.finRange 256).map (fun i => (0x400 + 4 * i.val, s.freq.get i)) ++
  (List.finRange 256).map (fun i => (0x800 + 8 * i.val, (s.code.get i).bits)) ++
  (List.finRange 256).map (fun i => (0x804 + 8 * i.val, (s.code.get i).len.zeroExtend 32)) ++
  (List.finRange 64).map (fun i => (0x1000 + 4 * i.val, (s.qm.get i).zeroExtend 32)) ++
  (List.finRange 64).map (fun i => (0x1100 + 8 * i.val, (s.coef.get i).extractLsb' 0 32)) ++
  (List.finRange 64).map (fun i => (0x1104 + 8 * i.val, (s.coef.get i).extractLsb' 32 32)) ++
  (List.finRange 16).map (fun k => (0x1300 + 4 * k.val,
    s.qblk.get ⟨4 * k.val + 3, by omega⟩ ++ (s.qblk.get ⟨4 * k.val + 2, by omega⟩ ++ (s.qblk.get ⟨4 * k.val + 1, by omega⟩ ++
      s.qblk.get ⟨4 * k.val, by omega⟩))))

/-- The eight operand registers the host may write at any time (R46 to R53, 70_reset_and_hazards.md R620): each offset, and the operand
registers after a write of `v` there. -/
def operandWrites (r : Operands) (v : Word) : List (Nat × Operands) :=
  [(0x010, { r with quality := v.extractLsb' 0 8 }), (0x014, { r with src := v }), (0x018, { r with dst := v }),
   (0x01C, { r with len := v }), (0x020, { r with stride := v }), (0x024, { r with dstlen := v }), (0x028, { r with putbits := v }),
   (0x02C, { r with putlen := v.extractLsb' 0 6 })]

/-- W(op) besides STATUS (R620), as offsets of the register port. -/
def WriteSet (off : Nat) : Instr → Prop
  | .nop | .recon | .zzscan => False
  | .qmset => 0x1000 ≤ off ∧ off < 0x1100
  | .fdct | .idct | .dequant => 0x1100 ≤ off ∧ off < 0x1300
  | .quant | .zzunscan => 0x1300 ≤ off ∧ off < 0x1340
  | .freqclr | .freqacc => 0x400 ≤ off ∧ off < 0x800
  | .treebuild => (0x800 ≤ off ∧ off < 0x1000) ∨ off = 0x060 ∨ off = 0x064
  | .bbreset | .bbput => 0x038 ≤ off ∧ off ≤ 0x04C
  | .bbflush => 0x030 ≤ off ∧ off ≤ 0x04C
  | .encode => (0x038 ≤ off ∧ off ≤ 0x04C) ∨ off = 0x05C
  | .decode => 0x050 ≤ off ∧ off ≤ 0x058
  | .blkenc | .blkdec => 0x1100 ≤ off ∧ off < 0x1340

/-- The read part of the footprint F(op) (20_memory.md R112). -/
def FootprintReads (s : State) (a : Nat) : Instr → Prop
  | .fdct | .blkenc => ∃ r c : Fin 8, a = s.opSrc + r.val * s.opStride + c.val
  | .zzunscan | .blkdec => s.opSrc ≤ a ∧ a < s.opSrc + 64
  | .freqacc | .encode => s.opSrc ≤ a ∧ a < s.opSrc + s.opLen
  | .decode => s.opSrc ≤ a ∧ a < s.opSrc + (s.opBitcnt + 7) / 8
  | .nop | .qmset | .idct | .recon | .quant | .dequant | .zzscan | .freqclr | .treebuild | .bbreset | .bbput | .bbflush => False

/-- The write part of the footprint F(op) (R112). -/
def FootprintWrites (s : State) (a : Nat) : Instr → Prop
  | .recon | .blkdec => ∃ r c : Fin 8, a = s.opDst + r.val * s.opStride + c.val
  | .zzscan | .blkenc => s.opDst ≤ a ∧ a < s.opDst + 64
  | .encode => s.bb.outptr.toNat ≤ a ∧ a < s.bb.outptr.toNat + (s.bb.limit.toNat - s.bb.outcnt.toNat)
  | .bbput => s.bb.outptr.toNat ≤ a ∧ a < s.bb.outptr.toNat + 4 ∧
      a < s.bb.outptr.toNat + (s.bb.limit.toNat - s.bb.outcnt.toNat)
  | .bbflush => a = s.bb.outptr.toNat
  | .decode => s.opDst ≤ a ∧ a < s.opDst + s.opDstlen
  | .nop | .qmset | .fdct | .idct | .quant | .dequant | .zzunscan | .freqclr | .freqacc | .treebuild | .bbreset => False

/-- A legal command `i` is pending (30_encoding.md R154, 60_exceptions.md R500). -/
def Pending (s : State) (i : Instr) : Prop := s.status.busy = true ∧ decode s.op.word = .ok i

/-! ### How a command ends -/

/-- STATUS after a successful completion (60_exceptions.md R502). -/
def Status.succeeded (st : Status) : Status := { st with busy := false, done := true }

/-- STATUS after a completion with the error of code `c` (R502, R511): the first error's code is kept. -/
def Status.failed (st : Status) (c : Byte) : Status :=
  { st with
    busy := false
    done := true
    err := true
    errcode := if st.err then st.errcode else c }

/-- The command ended with the error of code `c` and no other effect. -/
def FailsCleanly (i : Instr) (s : State) (c : Byte) : Prop := exec i s = .next { s with status := s.status.failed c }

/-- Every cell of the block at `base`, with the latched stride, exists in DMEM (40_transform.md R201). -/
def BlockExists (s : State) (base : Nat) : Prop :=
  ∀ r c : Fin 8, base + r.val * s.opStride + c.val < s.params.dmemSize

/-- The sum of eight terms from +0.0 in ascending order, each addition rounded (R203, R205). -/
def sumUp (f : Fin 8 → F64) : F64 :=
  F64.add (F64.add (F64.add (F64.add (F64.add (F64.add (F64.add (F64.add 0 (f 0)) (f 1)) (f 2)) (f 3)) (f 4)) (f 5)) (f 6)) (f 7)

/-! ### Numbers -/

/-- The exact value of a finite pattern: ± significand · 2^(exponent of the last place) (00_scope.md R15). -/
def F64.value (x : F64) : ℚ := (if F64.neg x then -1 else 1) * (F64.sig x : ℚ) * (2 : ℚ) ^ F64.ulp x

/-- `r` is the exact result `v` rounded once, to the nearest value with ties to the even significand (R15).  Its sign is that of `v`; from
2^1024 − 2^970 up, halfway past the greatest finite value, the nearest is an infinity. -/
def F64.RoundsTo (v : ℚ) (r : F64) : Prop :=
  (|v| < 2 ^ 1024 - 2 ^ 970 → F64.isFinite r = true ∧ ∀ y, F64.isFinite y = true →
    |F64.value r - v| ≤ |F64.value y - v| ∧
    (|F64.value r - v| = |F64.value y - v| → F64.value y ≠ F64.value r → F64.frac r % 2 = 0)) ∧
  (2 ^ 1024 - 2 ^ 970 ≤ |v| → F64.isInf r = true) ∧
  (v ≠ 0 → (F64.neg r = true ↔ v < 0))

/-! ### The Huffman tree -/

/-- The order of extraction: the keys (weight, seq), lexicographically (43_huffman.md R333). -/
def QNode.Precedes (a b : QNode) : Prop := a.weight < b.weight ∨ a.weight = b.weight ∧ a.seq < b.seq

/-- `T` is the tree that the nodes of the list end in: as long as there are two, the two least keys are taken out, the first becomes the left
child and the second the right one, and their parent goes back with the sum of the weights and the next sequence number (R332, R333). -/
inductive Merges : Nat → List QNode → HTree → Prop
  | root (next weight seq : Nat) (T : HTree) : Merges next [⟨weight, seq, T⟩] T
  | merge {next : Nat} {q rest : List QNode} {a b : QNode} {T : HTree} :
      q.Perm (a :: b :: rest) → a.Precedes b → (∀ z ∈ rest, b.Precedes z) →
      Merges (next + 1) (⟨a.weight + b.weight, next, .node a.tree b.tree⟩ :: rest) T → Merges next q T

/-- The bits from the root down to the leaf of a symbol, first bit first: left appends 1, right appends 0 (R332). -/
inductive LeafPath : HTree → Fin 256 → List Bool → Prop
  | leaf (b : Fin 256) : LeafPath (.leaf b) b []
  | left {l r : HTree} {b : Fin 256} {w : List Bool} : LeafPath l b w → LeafPath (.node l r) b (true :: w)
  | right {l r : HTree} {b : Fin 256} {w : List Bool} : LeafPath r b w → LeafPath (.node l r) b (false :: w)

/-! ### Streams of bits -/

/-- The code of an entry, first bit first: bit len−1 down to bit 0 (10_state.md R71). -/
def CodeEntry.stream (e : CodeEntry) : List Bool :=
  (List.range e.len.toNat).map fun j => e.bits.getLsbD (e.len.toNat - 1 - j)

/-- The low `l` bits of a word, most significant first (44_bitbuffer.md R403). -/
def lowBits (v : Word) (l : Nat) : List Bool := (List.range l).map fun j => v.getLsbD (l - 1 - j)

/-- The carried bits of the bit buffer, the earliest first (10_state.md R58). -/
def BitBuffer.carried (bb : BitBuffer) : List Bool :=
  (List.range bb.nbits.val).map fun j => bb.acc.getLsbD (bb.nbits.val - 1 - j)

/-- The first `n` bits of the stream stored from address `a` up, most significant bit of each byte first (20_memory.md R105). -/
def storedBits (s : State) (a n : Nat) : List Bool := (List.range n).map fun k => streamBit s a k

/-- The table is prefix-free: no present entry's code begins another's (43_huffman.md R336). -/
def PrefixFree (c : Tab CodeEntry 256) : Prop :=
  ∀ i j, i ≠ j → (c.get i).len ≠ 0 → (c.get j).len ≠ 0 → ¬ (c.get i).stream <+: (c.get j).stream

/-- The table is valid (R336): no code is longer than 32 bits, and no two present entries have the same length and the same low `len` bits. -/
def ValidTable (c : Tab CodeEntry 256) : Prop :=
  (∀ i, (c.get i).len.toNat ≤ 32) ∧
  ∀ i j, i ≠ j → (c.get i).len ≠ 0 → (c.get i).len = (c.get j).len →
    (c.get i).bits.toNat % 2 ^ (c.get i).len.toNat ≠ (c.get j).bits.toNat % 2 ^ (c.get j).len.toNat

/-- Symbol `b` is present, and no other code matches the probe on the way to the end of its code: the greedy DECODE emits `b` (R336). -/
def FirstMatch (c : Tab CodeEntry 256) (b : Fin 256) : Prop :=
  (c.get b).len ≠ 0 ∧ ∀ j, (c.get j).len ≠ 0 → (c.get j).stream <+: (c.get b).stream → j = b

/-- No code matches a beginning of these stream bits (R336). -/
def NoMatch (c : Tab CodeEntry 256) (bits : List Bool) : Prop := ∀ j, (c.get j).len ≠ 0 → ¬ (c.get j).stream <+: bits

/-- The codes of a list of symbols, one after the other. -/
def codesOf (c : Tab CodeEntry 256) (syms : List Byte) : List Bool := syms.flatMap fun b => (c.get (byteIx b)).stream

/-- `t` is `s` after a DECODE that wrote `syms`, consumed `pos` stream bits and left STATUS as `st` (R337). -/
def DecodedTo (s t : State) (syms : List Byte) (pos : Nat) (st : Status) : Prop :=
  t = { s with
    mem := t.mem
    decOutlen := BitVec.ofNat 32 syms.length
    decBitpos := BitVec.ofNat 64 pos
    status := st } ∧
  t.readBytes s.opDst syms.length = syms ∧
  ∀ a, a < s.opDst ∨ s.opDst + syms.length ≤ a → t.readByte a = s.readByte a

/-- The regions [a, a+m) and [b, b+n) have no byte in common. -/
def Disjoint (a m b n : Nat) : Prop := m = 0 ∨ n = 0 ∨ a + m ≤ b ∨ b + n ≤ a

/-- A run of BBPUT commands, one per (PUTBITS, PUTLEN) pair. -/
def putAll (s : State) : List (Word × BitVec 6) → State
  | [] => s
  | p :: rest =>
    match exec .bbput { s with op := ⟨s.op.word, { s.op.args with putbits := p.1, putlen := p.2 }⟩ } with
    | .next t => putAll t rest
    | _ => s

/-- Two states read the same at every DMEM address. -/
def SameDmem (s t : State) : Prop := ∀ a, s.readByte a = t.readByte a

end Sys2Proof.Machine
end

