-- ==== Sys2Proof/Certificates/Slice0/Obligations.lean ====
section
/-! DEFINITION. The statements for the provers.  Each says what a rule of the spec says of the machine; OBLIGATIONS.json lists them with
their rules. -/

open Sys2Proof Sys2Proof.Machine

/-! ### Decoding -/

/-- 30_encoding.md R155: decode, on every 32-bit word. -/
def Obligations.DecodeFollowsOpcodeMap : Prop :=
  ∀ w : Word,
    (w.extractLsb' 8 24 ≠ 0 → ∃ e, decode w = .error e) ∧
    (w.extractLsb' 8 24 = 0 →
      match [Instr.nop, .qmset, .fdct, .idct, .recon, .quant, .dequant, .zzscan, .zzunscan, .freqclr, .freqacc, .treebuild,
        .bbreset, .bbput, .bbflush, .encode, .decode, .blkenc, .blkdec][(w.extractLsb' 0 8).toNat]? with
      | some i => decode w = .ok i
      | none => ∃ e, decode w = .error e)

/-- 30_encoding.md R150, R152: a word decodes to a command exactly when it is the command's encoding. -/
def Obligations.DecodeEncodeAgree : Prop :=
  ∀ (w : Word) (i : Instr), i.wellFormed = true → (decode w = .ok i ↔ w = encode i)

/-- 30_encoding.md R152: a few words of the opcode map. -/
def Obligations.SampleWordsDecode : Prop :=
  decode 0x00000000 = .ok .nop ∧ decode 0x00000001 = .ok .qmset ∧ decode 0x00000004 = .ok .recon ∧
  decode 0x00000008 = .ok .zzunscan ∧ decode 0x0000000B = .ok .treebuild ∧ decode 0x0000000E = .ok .bbflush ∧
  decode 0x00000010 = .ok .decode ∧ decode 0x00000012 = .ok .blkdec ∧
  decode 0x00000013 = .error .unknownOpcode ∧ decode 0x00000100 = .error .reservedBits ∧
  decode 0x80000002 = .error .reservedBits

/-! ### The two agents -/

/-- 60_exceptions.md R500, R545: the engine's turn runs the pending command's rule, an idle engine holds all its state, and a host turn
is one host access.  (That the turns stand in a list of the state, and that the engine moves when it is empty, is the model's form, log entry
5.) -/
def Obligations.StepRunsThePendingCommand : Prop :=
  ∀ (s : State) (rest : List Turn),
    ((s.turns = [] ∧ rest = [] ∨ s.turns = .engine :: rest) →
      step s = engineTurn { s with turns := rest } ∧
      (∀ i, s.status.busy = true → decode s.op.word = .ok i → step s = exec i { s with turns := rest }) ∧
      (s.status.busy = false → step s = .next { s with turns := rest })) ∧
    (∀ o, s.turns = .host o :: rest → step s = hostTurn { s with turns := rest } o)

/-- 30_encoding.md R154: which words are illegal, and what an illegal word does at the engine's turn.  (The second part says it of a step: that
the turns stand in a list, and that the engine moves when it is empty, is the model's form, log entry 5.) -/
def Obligations.IllegalWordOnlyFails : Prop :=
  decode 0 = .ok .nop ∧
  ∀ s : State, s.status.busy = true →
    (0x13 ≤ (s.op.word.extractLsb' 0 8).toNat ∨ s.op.word.extractLsb' 8 24 ≠ 0) →
    engineTurn s = .next { s with status := s.status.failed 0x01 } ∧
    ∀ rest, (s.turns = [] ∧ rest = [] ∨ s.turns = .engine :: rest) →
      step s = .next { s with turns := rest, status := s.status.failed 0x01 }

/-- 60_exceptions.md R502: what completion writes. -/
def Obligations.CompletionWritesStatus : Prop :=
  ∀ s : State, s.status.busy = true →
    ∃ (t : State) (e : Option ErrorCode), engineTurn s = .next t ∧
      (e = none → t.status = { s.status with busy := false, done := true }) ∧
      (∀ c, e = some c → t.status = { s.status with
        busy := false
        done := true
        errcode := if s.status.err = false then c.code else s.status.errcode
        err := true }) ∧
      ((∀ i, decode s.op.word ≠ .ok i) → e = some .illegalCmd ∧ t = { s with status := t.status })

/-- 60_exceptions.md R501, R503: a CMD write is accepted while the engine is idle, and dropped while a command is pending.  (`resp` is the
model's record of the port's answer, log entry 6: the statement leaves it open.) -/
def Obligations.CommandWriteAcceptsOrDrops : Prop :=
  ∀ (s : State) (w : Word), ∃ t, hostTurn s (.regWrite 0x00C 4 w) = .next t ∧
    (s.status.busy = false → t = { s with
      cmd := w
      op := ⟨w, s.regs⟩
      status := { s.status with lastop := w.extractLsb' 0 8, done := false, busy := true }
      resp := t.resp }) ∧
    (s.status.busy = true → t = { s with
      status := { s.status with cmddrop := true }
      resp := t.resp })

/-- 10_state.md R80: the engine reads only `op`, never the live operand registers. -/
def Obligations.EngineReadsOnlyLatchedOperands : Prop :=
  ∀ (i : Instr) (s : State) (r : Operands), ∃ t t' : State,
    exec i s = .next t ∧ exec i { s with regs := r } = .next t' ∧
    t = { t' with regs := t.regs } ∧ (i ≠ .bbflush → t.regs = s.regs ∧ t'.regs = r)

/-! ### Frames of all commands -/

/-- 10_state.md R75, R83, 60_exceptions.md R502: what no command changes. -/
def Obligations.CommandsKeepTheRest : Prop :=
  ∀ (i : Instr) (s t : State), exec i s = .next t →
    t.params = s.params ∧ t.ie = s.ie ∧ t.cmd = s.cmd ∧ t.op = s.op ∧ t.turns = s.turns ∧ t.resp = s.resp ∧
    t.status.lastop = s.status.lastop ∧ t.status.cmddrop = s.status.cmddrop ∧
    t.regs = { s.regs with bitcnt := t.regs.bitcnt } ∧
    (i ≠ .bbflush → t.regs = s.regs) ∧
    (i ≠ .idct → i ≠ .blkdec → t.draws = s.draws)

/-- 70_reset_and_hazards.md R620, W(op): what the host can read of the registers and windows changes only where the table says. -/
def Obligations.CommandsWriteOnlyTheirSet : Prop :=
  ∀ (i : Instr) (s t : State) (r : Reg), exec i s = .next t → r ≠ .status → regValue t r ≠ regValue s r →
    match i with
    | .nop | .recon | .zzscan => False
    | .qmset => ∃ k, r = .qm k
    | .fdct | .idct | .dequant => ∃ k, r = .coefLo k ∨ r = .coefHi k
    | .quant | .zzunscan => ∃ k, r = .qblk k
    | .freqclr | .freqacc => ∃ k, r = .freq k
    | .treebuild => (∃ k, r = .codeBits k ∨ r = .codeLen k) ∨ r = .nsym ∨ r = .maxlen
    | .bbreset | .bbput => r ∈ [.outptr, .bbOutcnt, .bbLimit, .bbState, .bbtotLo, .bbtotHi]
    | .bbflush => r ∈ [.outptr, .bbOutcnt, .bbLimit, .bbState, .bbtotLo, .bbtotHi, .bitcntLo, .bitcntHi]
    | .encode => r ∈ [.outptr, .bbOutcnt, .bbLimit, .bbState, .bbtotLo, .bbtotHi, .encPos]
    | .decode => r ∈ [.decOutlen, .decBitposLo, .decBitposHi]
    | .blkenc | .blkdec => (∃ k, r = .coefLo k ∨ r = .coefHi k) ∨ ∃ k, r = .qblk k

/-- 20_memory.md R112: writes outside the footprint never happen. -/
def Obligations.DmemOutsideFootprintIsKept : Prop :=
  ∀ (i : Instr) (s t : State) (a : Nat), s.params.wellFormed = true → exec i s = .next t →
    t.readByte a ≠ s.readByte a →
    match i with
    | .recon | .blkdec => ∃ r c : Fin 8, a = s.opDst + r.val * s.opStride + c.val
    | .zzscan | .blkenc => s.opDst ≤ a ∧ a < s.opDst + 64
    | .encode => s.bb.outptr.toNat ≤ a ∧ a < s.bb.outptr.toNat + (s.bb.limit.toNat - s.bb.outcnt.toNat)
    | .bbput => s.bb.outptr.toNat ≤ a ∧ a < s.bb.outptr.toNat + 4 ∧
        a < s.bb.outptr.toNat + (s.bb.limit.toNat - s.bb.outcnt.toNat)
    | .bbflush => a = s.bb.outptr.toNat
    | .decode => s.opDst ≤ a ∧ a < s.opDst + s.opDstlen
    | .nop | .qmset | .fdct | .idct | .quant | .dequant | .zzunscan | .freqclr | .freqacc | .treebuild | .bbreset => False

/-- 20_memory.md R112: reads outside the footprint never happen: two memories that agree on the read part of the footprint give the same
result in every register, and the same bytes wherever they held the same bytes. -/
def Obligations.DmemOutsideFootprintIsNotRead : Prop :=
  ∀ (i : Instr) (s t : State) (m : Memory), exec i s = .next t →
    (∀ a, FootprintReads s a i → s.readByte a = State.readByte { s with mem := m } a) →
    ∃ t', exec i { s with mem := m } = .next t' ∧ t = { t' with mem := t.mem } ∧
      ∀ a, s.readByte a = State.readByte { s with mem := m } a → t.readByte a = t'.readByte a

/-! ### Invariants and whole-machine rules -/

/-- Every step from a legal state gives a legal state (10_state.md R72, R44, R63, 44_bitbuffer.md R403, 20_memory.md R102), and no step
changes a parameter or constant table (R40). -/
def Obligations.LegalStatesStayLegal : Prop :=
  ∀ s t : State, s.Legal → step s = .next t → t.Legal ∧ t.params = s.params

/-- The state after power-on with legal parameters is legal, and so is `State.reset`. -/
def Obligations.PowerOnIsLegal : Prop :=
  (∀ p : Params, p.wellFormed = true → (State.powerOn p).Legal) ∧ State.reset.Legal

/-- 60_exceptions.md R502, R510: ERR is sticky and ERRCODE keeps the first error, until the host clears them. -/
def Obligations.ErrorIsSticky : Prop :=
  ∀ s t : State, step s = .next t → s.status.err = true →
    (∀ o rest, s.turns = .host o :: rest → ¬ HostOp.clearsErr o) →
    t.status.err = true ∧ t.status.errcode = s.status.errcode

/-- 10_state.md R72: only QMSET writes QM; a soft reset puts it back. -/
def Obligations.QmChangesOnlyByQmset : Prop :=
  ∀ s t : State, step s = .next t → t.qm ≠ s.qm →
    (s.status.busy = true ∧ decode s.op.word = .ok .qmset ∧ (s.turns = [] ∨ ∃ rest, s.turns = .engine :: rest)) ∨
    (s.status.busy = false ∧ ∃ o rest v, s.turns = .host o :: rest ∧ HostOp.writes o .ctrl v ∧ v.getLsbD 1 = true)

/-- 70_reset_and_hazards.md R620, R621: the only steps that stop are host writes while a command is pending, and they stop with a fault. -/
def Obligations.OnlyHazardousWritesStop : Prop :=
  ∀ s : State, ¬ Goes (step s) →
    s.status.busy = true ∧ (∃ o rest, s.turns = .host o :: rest ∧ HostOp.isWrite o = true) ∧ ∃ f, step s = .fault f

/-! ### The register port -/

/-- 70_reset_and_hazards.md R620: what every register-port write does while a command is pending: a HAZARD, an effect at once, a dropped
command, or nothing. -/
def Obligations.BusyRegisterWrites : Prop :=
  ∀ (s : State) (v : Word), s.status.busy = true →
    (∀ off, off = 0x030 ∨ off = 0x034 → hostTurn s (.regWrite off 4 v) = .fault .hazardBitcnt) ∧
    (v.getLsbD 1 = true → hostTurn s (.regWrite 0x004 4 v) = .fault .hazardSoftReset) ∧
    (v.getLsbD 1 = false → Takes s (.regWrite 0x004 4 v) { s with ie := v.getLsbD 0 }) ∧
    (∀ off, off % 4 = 0 → (0x400 ≤ off ∧ off < 0x1000) ∨ (0x1100 ≤ off ∧ off < 0x1340) →
      hostTurn s (.regWrite off 4 v) = .fault .hazardWindow) ∧
    (∀ p ∈ operandWrites s.regs v, Takes s (.regWrite p.1 4 v) { s with regs := p.2 }) ∧
    Takes s (.regWrite 0x008 4 v) { s with
      status := { s.status with
        done := if v.getLsbD 1 then false else s.status.done
        err := if v.getLsbD 2 then false else s.status.err
        errcode := if v.getLsbD 2 then 0 else s.status.errcode
        cmddrop := if v.getLsbD 3 then false else s.status.cmddrop } } ∧
    Takes s (.regWrite 0x00C 4 v) { s with status := { s.status with cmddrop := true } } ∧
    (∀ off, off % 4 = 0 →
      off = 0x000 ∨ (0x038 ≤ off ∧ off < 0x400) ∨ (0x1000 ≤ off ∧ off < 0x1100) ∨ (0x1340 ≤ off ∧ off < 0x2000) →
      Takes s (.regWrite off 4 v) s)

/-- 70_reset_and_hazards.md R620: a register-port read is a fresh draw at the offsets the pending command may write, and gives the value of the
register map everywhere else: outside that set, while an illegal word is pending, and while the engine is idle.  Neither changes anything else
(20_memory.md R109).  (The draw's form, and its counter `draws`, are the model's, log entry 2.) -/
def Obligations.BusyReadsAreDraws : Prop :=
  ∀ s : State, ∀ p ∈ registerMap s,
    (∀ i, Pending s i → WriteSet p.1 i →
      hostTurn s (.regRead p.1 4) = .next { s with draws := s.draws + 1, resp := some ⟨Config.freeWord s.draws, false⟩ }) ∧
    ((∀ i, Pending s i → ¬ WriteSet p.1 i) → hostTurn s (.regRead p.1 4) = .next { s with resp := some ⟨p.2, false⟩ })

/-- 10_state.md §2, §3 (R42 to R65, R70 to R74), while the engine is idle: what a read at each offset gives; what a write at each offset of an
operand register, a window or a read-only register does to the state, DMEM, `op` and all else staying; and that a written register reads back,
within its bits, while every other offset reads as before.  (The data of a write's answer is left open, log entry 6.) -/
def Obligations.RegisterWritesReadBack : Prop :=
  ∀ s : State, s.status.busy = false →
    (∀ p ∈ registerMap s, hostTurn s (.regRead p.1 4) = .next { s with resp := some ⟨p.2, false⟩ }) ∧
    ∀ v : Word,
      (∀ p ∈ operandWrites s.regs v, Takes s (.regWrite p.1 4 v) { s with regs := p.2 }) ∧
      Takes s (.regWrite 0x030 4 v) { s with regs := { s.regs with bitcnt := s.regs.bitcnt.extractLsb' 32 32 ++ v } } ∧
      Takes s (.regWrite 0x034 4 v) { s with regs := { s.regs with bitcnt := v ++ s.regs.bitcnt.extractLsb' 0 32 } } ∧
      (∀ i : Fin 256, ∃ f, Takes s (.regWrite (0x400 + 4 * i.val) 4 v) { s with freq := f } ∧
        ∀ j, f.get j = if j = i then v else s.freq.get j) ∧
      (∀ i : Fin 256, ∃ c, Takes s (.regWrite (0x800 + 8 * i.val) 4 v) { s with code := c } ∧
        ∀ j, c.get j = if j = i then ⟨v, (s.code.get i).len⟩ else s.code.get j) ∧
      (∀ i : Fin 256, ∃ c, Takes s (.regWrite (0x804 + 8 * i.val) 4 v) { s with code := c } ∧
        ∀ j, c.get j = if j = i then ⟨(s.code.get i).bits, v.extractLsb' 0 6⟩ else s.code.get j) ∧
      (∀ i : Fin 64, ∃ c, Takes s (.regWrite (0x1100 + 8 * i.val) 4 v) { s with coef := c } ∧
        ∀ j, c.get j = if j = i then (s.coef.get i).extractLsb' 32 32 ++ v else s.coef.get j) ∧
      (∀ i : Fin 64, ∃ c, Takes s (.regWrite (0x1104 + 8 * i.val) 4 v) { s with coef := c } ∧
        ∀ j, c.get j = if j = i then v ++ (s.coef.get i).extractLsb' 0 32 else s.coef.get j) ∧
      (∀ k : Fin 16, ∃ q, Takes s (.regWrite (0x1300 + 4 * k.val) 4 v) { s with qblk := q } ∧
        ∀ j : Fin 64, q.get j = if j.val / 4 = k.val then v.extractLsb' (8 * (j.val % 4)) 8 else s.qblk.get j) ∧
      (∀ off, off % 4 = 0 → off = 0x000 ∨ (0x038 ≤ off ∧ off ≤ 0x068) ∨ (0x1000 ≤ off ∧ off < 0x1100) →
        Takes s (.regWrite off 4 v) s) ∧
      ∀ off, off % 4 = 0 → (0x010 ≤ off ∧ off ≤ 0x034) ∨ (0x400 ≤ off ∧ off < 0x1000) ∨ (0x1100 ≤ off ∧ off < 0x1340) →
        ∃ t, hostTurn s (.regWrite off 4 v) = .next t ∧
          (∀ bits : Word, bits = (if off = 0x010 then 0xFF
              else if off = 0x02C ∨ (0x800 ≤ off ∧ off < 0x1000 ∧ off % 8 = 4) then 0x3F else 0xFFFFFFFF) →
            hostTurn t (.regRead off 4) = .next { t with resp := some ⟨v &&& bits, false⟩ }) ∧
          ∀ off', off' % 4 = 0 → off' < 0x2000 → off' ≠ off →
            ∃ d, hostTurn s (.regRead off' 4) = .next { s with resp := some ⟨d, false⟩ } ∧
              hostTurn t (.regRead off' 4) = .next { t with resp := some ⟨d, false⟩ }

/-- 10_state.md R66: the reserved offsets. -/
def Obligations.ReservedOffsetsReadZero : Prop :=
  ∀ (s : State) (off : Nat), off % 4 = 0 → ((0x06C ≤ off ∧ off ≤ 0x3FC) ∨ (0x1340 ≤ off ∧ off ≤ 0x1FFC)) →
    hostTurn s (.regRead off 4) = .next { s with resp := some ⟨0, false⟩ } ∧
    ∀ v, ∃ t, hostTurn s (.regWrite off 4 v) = .next t ∧ t = { s with resp := t.resp } ∧
      t.resp.map Response.busError = some false

/-- 20_memory.md R100: an access the register port does not allow.  (That the bus error comes also where the write would be a HAZARD of R620 is the
model's reading, log entry 10; the data of a write's answer is left open, log entry 6.) -/
def Obligations.BadRegisterAccessIsBusError : Prop :=
  ∀ (s : State) (off size : Nat), size ≠ 4 ∨ off % 4 ≠ 0 ∨ 0x1FFF < off →
    hostTurn s (.regRead off size) = .next { s with resp := some ⟨0, true⟩ } ∧
    ∀ v, Refuses s (.regWrite off size v)

/-- 10_state.md R43, R44, R84, 60_exceptions.md R520: the interrupt line, what raises it and what clears it, and the W1C bits.  (The data of a
write's answer is left open, log entry 6.) -/
def Obligations.IrqFollowsDone : Prop :=
  (∀ s : State, s.irq = true ↔ s.ie = true ∧ s.status.done = true) ∧
  (∀ s t : State, s.status.busy = true → engineTurn s = .next t → t.irq = s.ie) ∧
  (∀ (s t : State) (w : Word), s.status.busy = false → hostTurn s (.regWrite 0x00C 4 w) = .next t → t.irq = false) ∧
  (∀ (s : State) (v : Word), Takes s (.regWrite 0x008 4 v) { s with
    status := { s.status with
      done := if v.getLsbD 1 then false else s.status.done
      err := if v.getLsbD 2 then false else s.status.err
      errcode := if v.getLsbD 2 then 0 else s.status.errcode
      cmddrop := if v.getLsbD 3 then false else s.status.cmddrop } }) ∧
  (∀ s : State, Takes s (.regWrite 0x004 4 1) { s with ie := true })

/-- 10_state.md R44: STATUS bit by bit, as a host read gives it. -/
def Obligations.StatusReadsItsFields : Prop :=
  ∀ s : State, hostTurn s (.regRead 0x008 4) = .next { s with resp := some ⟨s.status.word, false⟩ } ∧
    s.status.word.getLsbD 0 = s.status.busy ∧ s.status.word.getLsbD 1 = s.status.done ∧
    s.status.word.getLsbD 2 = s.status.err ∧ s.status.word.getLsbD 3 = s.status.cmddrop ∧
    s.status.word.extractLsb' 4 4 = 0 ∧
    s.status.word.extractLsb' 8 8 = (if s.status.err then s.status.errcode else 0) ∧
    s.status.word.extractLsb' 16 8 = s.status.lastop ∧ s.status.word.extractLsb' 24 8 = 0

/-! ### The memory port -/

/-- 20_memory.md R101, R104, R112, 70_reset_and_hazards.md R620: a memory-port write, little-endian.  (That the bus error comes also where the write
would be a HAZARD, and that a write with one byte in the footprint stops whole, are the model's readings, log entry 10; the data of a write's
answer is left open, log entry 6.) -/
def Obligations.MemoryPortWritesBytes : Prop :=
  ∀ (s : State) (a v : Word) (size : Nat),
    ((size ≠ 1 ∧ size ≠ 2 ∧ size ≠ 4) ∨ a.toNat % size ≠ 0 ∨ s.params.dmemSize < a.toNat + size →
      Refuses s (.memWrite a size v)) ∧
    ((size = 1 ∨ size = 2 ∨ size = 4) → a.toNat % size = 0 → a.toNat + size ≤ s.params.dmemSize →
      (∀ i j, Pending s i → j < size → FootprintReads s (a.toNat + j) i ∨ FootprintWrites s (a.toNat + j) i →
        hostTurn s (.memWrite a size v) = .fault .hazardFootprint) ∧
      ((∀ i j, Pending s i → j < size → ¬ FootprintReads s (a.toNat + j) i ∧ ¬ FootprintWrites s (a.toNat + j) i) →
        ∃ t, Takes s (.memWrite a size v) t ∧ t = { s with mem := t.mem } ∧
          (∀ j, j < size → t.readByte (a.toNat + j) = v.extractLsb' (8 * j) 8) ∧
          ∀ b, b < a.toNat ∨ a.toNat + size ≤ b → t.readByte b = s.readByte b))

/-- 20_memory.md R101, R104, R109, R112, 70_reset_and_hazards.md R620: a memory-port read, little-endian: the current byte, or a fresh draw where the
pending command may write it; or a bus error.  (That the bits above the bytes read are 0 is the model's choice, log entry 6; the draw's form is
log entry 2; that the bus error comes first while a command is pending is log entry 10.) -/
def Obligations.MemoryPortReadsBytes : Prop :=
  ∀ (s : State) (a : Word) (size : Nat),
    ((size ≠ 1 ∧ size ≠ 2 ∧ size ≠ 4) ∨ a.toNat % size ≠ 0 ∨ s.params.dmemSize < a.toNat + size →
      hostTurn s (.memRead a size) = .next { s with resp := some ⟨0, true⟩ }) ∧
    ((size = 1 ∨ size = 2 ∨ size = 4) → a.toNat % size = 0 → a.toNat + size ≤ s.params.dmemSize →
      ∃ d : Word, hostTurn s (.memRead a size) = .next { s with resp := some ⟨d, false⟩, draws := s.draws + size } ∧
        d.toNat < 2 ^ (8 * size) ∧
        ∀ j, j < size →
          (∀ i, Pending s i → FootprintWrites s (a.toNat + j) i → d.extractLsb' (8 * j) 8 = Config.freeByte (s.draws + j)) ∧
          ((∀ i, Pending s i → ¬ FootprintWrites s (a.toNat + j) i) → d.extractLsb' (8 * j) 8 = s.readByte (a.toNat + j)))

/-! ### Reset -/

/-- 70_reset_and_hazards.md R600: the state after power-on.  `Config.powerOnByte` is the rule's draw per DMEM byte, a constant without a body.
(`State.reset` takes R9's default parameters.) -/
def Obligations.PowerOnState : Prop :=
  State.reset = State.powerOn Params.default ∧
  ∀ p : Params,
    (∀ r : Reg, regValue (State.powerOn p) r =
      match r with
      | .id => 0x38544344
      | .quality => 50
      | .stride => 8
      | .dmemsz => BitVec.ofNat 32 p.dmemSize
      | .qm i => (p.qbase.get i).zeroExtend 32
      | _ => 0) ∧
    (State.powerOn p).status.busy = false ∧ (State.powerOn p).irq = false ∧
    (State.powerOn p).bb = ⟨0, 0, 0, 0, 0, 0⟩ ∧
    ∀ a, (State.powerOn p).readByte a = Config.powerOnByte a

/-- 70_reset_and_hazards.md R601: soft reset.  (`turns`, `resp` and `draws` are the model's own fields, log entries 2, 5 and 6: no state of
the core.) -/
def Obligations.SoftResetKeepsOnlyDmem : Prop :=
  ∀ (s : State) (v : Word),
    (v.getLsbD 1 = true → s.status.busy = false →
      ∃ t, hostTurn s (.regWrite 0x004 4 v) = .next t ∧
        t = { State.powerOn s.params with mem := s.mem, turns := s.turns, resp := t.resp, draws := s.draws } ∧
        t.ie = false ∧ t.status.word = 0 ∧ (∀ r, regValue t r = regValue (State.powerOn s.params) r) ∧
        ∀ a, t.readByte a = s.readByte a) ∧
    (v.getLsbD 1 = true → s.status.busy = true → hostTurn s (.regWrite 0x004 4 v) = .fault .hazardSoftReset) ∧
    (v.getLsbD 1 = false →
      ∃ t, hostTurn s (.regWrite 0x004 4 v) = .next t ∧ t = { s with ie := v.getLsbD 0, resp := t.resp })

/-! ### NOP -/

/-- 46_system.md R450: NOP does nothing and completes. -/
def Obligations.NopOnlyCompletes : Prop :=
  decode 0x00000000 = .ok .nop ∧ ∀ s : State, exec .nop s = .next { s with status := s.status.succeeded }

/-! ### The quantizer -/

/-- 41_quantizer.md R250, R252: QMSET derives QM from the latched quality, or fails with no effect. -/
def Obligations.QmsetDerivesMatrix : Prop :=
  decode 0x00000001 = .ok .qmset ∧
  ∀ s : State,
    (1 ≤ s.opQuality → s.opQuality ≤ 99 →
      ∃ t, exec .qmset s = .next t ∧ t = { s with qm := t.qm, status := s.status.succeeded } ∧
        ∀ i, (t.qm.get i).toNat =
          max 1 (((if s.opQuality < 50 then 5000 / s.opQuality else 200 - 2 * s.opQuality) * (s.params.qbase.get i).toNat + 50)
            / 100)) ∧
    (s.opQuality = 0 ∨ 100 ≤ s.opQuality → FailsCleanly .qmset s 0x02)

/-- 41_quantizer.md R253, 10_state.md R72: the matrix of quality 50 is QBASE, cell for cell, the reset value of QM. -/
def Obligations.QualityFiftyIsQBase : Prop :=
  ∀ s t : State, s.opQuality = 50 → (∀ i, s.params.qbase.get i ≠ 0) → exec .qmset s = .next t →
    (∀ i, (t.qm.get i).toNat = (s.params.qbase.get i).toNat) ∧ t.qm = (State.powerOn s.params).qm

/-- 41_quantizer.md R254, R255: QUANT. -/
def Obligations.QuantTruncates : Prop :=
  decode 0x00000005 = .ok .quant ∧
  ∀ s : State,
    ((∀ i, F64.isNaN (s.coef.get i) = false ∧ F64.isInf (s.coef.get i) = false) →
      ∃ t, exec .quant s = .next t ∧ t = { s with qblk := t.qblk, status := s.status.succeeded } ∧
        ∀ i, ((t.qblk.get i).toNat : Int) = F64.trunc (F64.div (s.coef.get i) (F64.ofInt (s.qm.get i).toNat)) % 256) ∧
    ((∃ i, F64.isNaN (s.coef.get i) = true ∨ F64.isInf (s.coef.get i) = true) → FailsCleanly .quant s 0x04)

/-- 41_quantizer.md R256, R257: DEQUANT. -/
def Obligations.DequantMultiplies : Prop :=
  decode 0x00000006 = .ok .dequant ∧
  ∀ s : State, ∃ t, exec .dequant s = .next t ∧ t = { s with coef := t.coef, status := s.status.succeeded } ∧
    ∀ i, t.coef.get i = F64.ofInt ((s.qblk.get i).toInt * (s.qm.get i).toNat) ∧
      F64.isFinite (t.coef.get i) = true ∧ F64.trunc (t.coef.get i) = (s.qblk.get i).toInt * (s.qm.get i).toNat ∧
      (s.qblk.get i = 0 → t.coef.get i = 0)

/-- 00_scope.md R14, R15: binary64 arithmetic: `to_f64` is exact for |i| < 2^53; fadd, fmul and fdiv are the exact results rounded once, to nearest
with ties to even, with IEEE 754's signs of zero, infinities and NaNs; `trunc` goes toward zero; and `<` compares the exact values. -/
def Obligations.IntegersConvertExactly : Prop :=
  (∀ i : Int, i.natAbs < 2 ^ 53 → F64.isFinite (F64.ofInt i) = true ∧ F64.value (F64.ofInt i) = i ∧
    F64.trunc (F64.ofInt i) = i ∧ (i = 0 → F64.ofInt i = 0) ∧
    ∀ j : Int, j.natAbs < 2 ^ 53 → (F64.lt (F64.ofInt i) (F64.ofInt j) = true ↔ i < j)) ∧
  (∀ a b : F64, F64.isFinite a = true → F64.isFinite b = true →
    (F64.value a + F64.value b ≠ 0 → F64.RoundsTo (F64.value a + F64.value b) (F64.add a b)) ∧
    (F64.value a + F64.value b = 0 → F64.add a b = if F64.neg a && F64.neg b then 0x8000000000000000 else 0) ∧
    F64.RoundsTo (F64.value a * F64.value b) (F64.mul a b) ∧ F64.neg (F64.mul a b) = (F64.neg a != F64.neg b) ∧
    (F64.value b ≠ 0 → F64.RoundsTo (F64.value a / F64.value b) (F64.div a b) ∧ F64.neg (F64.div a b) = (F64.neg a != F64.neg b)) ∧
    (F64.value b = 0 → F64.value a = 0 → F64.isNaN (F64.div a b) = true) ∧
    (F64.value b = 0 → F64.value a ≠ 0 → F64.isInf (F64.div a b) = true ∧ F64.neg (F64.div a b) = (F64.neg a != F64.neg b)) ∧
    (F64.lt a b = true ↔ F64.value a < F64.value b)) ∧
  (∀ a b : F64, F64.isNaN a = true ∨ F64.isNaN b = true →
    F64.isNaN (F64.add a b) = true ∧ F64.isNaN (F64.mul a b) = true ∧ F64.isNaN (F64.div a b) = true ∧ F64.lt a b = false) ∧
  (∀ a b : F64, F64.isInf a = true → F64.isInf b = true →
    (F64.neg a = F64.neg b → F64.add a b = a) ∧ (F64.neg a ≠ F64.neg b → F64.isNaN (F64.add a b) = true) ∧
    F64.isInf (F64.mul a b) = true ∧ F64.neg (F64.mul a b) = (F64.neg a != F64.neg b) ∧ F64.isNaN (F64.div a b) = true) ∧
  (∀ a b : F64, F64.isInf a = true → F64.isFinite b = true →
    F64.add a b = a ∧ F64.add b a = a ∧
    (F64.value b = 0 → F64.isNaN (F64.mul a b) = true ∧ F64.isNaN (F64.mul b a) = true) ∧
    (F64.value b ≠ 0 → (F64.isInf (F64.mul a b) = true ∧ F64.neg (F64.mul a b) = (F64.neg a != F64.neg b)) ∧
      F64.mul b a = F64.mul a b) ∧
    (F64.isInf (F64.div a b) = true ∧ F64.neg (F64.div a b) = (F64.neg a != F64.neg b)) ∧
    F64.div b a = (if F64.neg a != F64.neg b then 0x8000000000000000 else 0) ∧
    (F64.lt a b = true ↔ F64.neg a = true) ∧ (F64.lt b a = true ↔ F64.neg a = false)) ∧
  ∀ x : F64, F64.isFinite x = true →
    |(F64.trunc x : ℚ)| ≤ |F64.value x| ∧ |F64.value x| < |(F64.trunc x : ℚ)| + 1 ∧ 0 ≤ (F64.trunc x : ℚ) * F64.value x

/-- 41_quantizer.md R255, R257, R258: QUANT of what DEQUANT made succeeds and gives the bytes back, with their signs. -/
def Obligations.DequantThenQuantRestores : Prop :=
  ∀ s t : State, (∀ i, s.qm.get i ≠ 0) → exec .dequant s = .next t →
    exec .quant t = .next { t with qblk := s.qblk, status := t.status.succeeded }

/-! ### The transform engine -/

/-- 40_transform.md R203: FDCT. -/
def Obligations.FdctComputesCoefficients : Prop :=
  decode 0x00000002 = .ok .fdct ∧
  ∀ s : State,
    (BlockExists s s.opSrc →
      ∃ (t : State) (T : Fin 8 → Fin 8 → F64),
        exec .fdct s = .next t ∧ t = { s with coef := t.coef, status := s.status.succeeded } ∧
        (∀ x v, T x v = sumUp fun y =>
          F64.mul (F64.ofInt ((s.readByte (s.opSrc + x.val * s.opStride + y.val)).toNat - 128))
            (s.params.cosTable.get (cellIx y v))) ∧
        ∀ u v, t.coef.get (cellIx u v) =
          F64.mul
            (F64.mul (F64.mul 0x3FD0000000000000 (if u = 0 then 0x3FE6A09E667F3BCD else 0x3FF0000000000000))
              (if v = 0 then 0x3FE6A09E667F3BCD else 0x3FF0000000000000))
            (sumUp fun x => F64.mul (T x v) (s.params.cosTable.get (cellIx x u)))) ∧
    (¬ BlockExists s s.opSrc → FailsCleanly .fdct s 0x03)

/-- 40_transform.md R203: 'every output is finite and |COEF[i]| ≤ 2048' (2048.0 is the pattern 0x40A0000000000000), so QUANT cannot fail in BLKENC
(45_pipeline.md R430), and IDCT of a dequantized block is finite, so RECON cannot fail in BLKDEC (R431).  (`Params.wellFormed` takes a cosine
table's entries to be at most 1 in magnitude, log entry 4.) -/
def Obligations.TransformOutputsAreFinite : Prop :=
  (∀ s t : State, s.params.wellFormed = true → BlockExists s s.opSrc → exec .fdct s = .next t →
    ∀ i, F64.isFinite (t.coef.get i) = true ∧ (t.coef.get i).toNat % 2 ^ 63 ≤ 0x40A0000000000000) ∧
  (∀ s t u : State, s.params.wellFormed = true → exec .dequant s = .next t → exec .idct t = .next u →
    ∀ i, F64.isFinite (u.coef.get i) = true)

/-- 40_transform.md R203, R205: a flat block of 128 transforms to +0.0 in every cell, and all-zero coefficients give 128.0 in every cell. -/
def Obligations.FlatBlocksTransformExactly : Prop :=
  (∀ s t : State, s.params.wellFormed = true → BlockExists s s.opSrc →
    (∀ r c : Fin 8, s.readByte (s.opSrc + r.val * s.opStride + c.val) = 128) → exec .fdct s = .next t →
    ∀ i, t.coef.get i = 0) ∧
  (∀ s t : State, s.params.wellFormed = true → (∀ i, s.coef.get i = 0) → exec .idct s = .next t →
    ∀ i, t.coef.get i = 0x4060000000000000)

/-- 40_transform.md R205: IDCT.  A NaN result is some NaN (93_implementation_defined.md I6; how it is drawn is the model's, log entry 3). -/
def Obligations.IdctComputesSamples : Prop :=
  decode 0x00000003 = .ok .idct ∧
  ∀ s : State, ∃ (t : State) (T : Fin 8 → Fin 8 → F64) (out : Fin 8 → Fin 8 → F64),
    exec .idct s = .next t ∧ t = { s with coef := t.coef, status := s.status.succeeded, draws := t.draws } ∧
    (∀ u y, T u y = sumUp fun v =>
      F64.mul (F64.mul (s.coef.get (cellIx u v)) (if v = 0 then 0x3FE6A09E667F3BCD else 0x3FF0000000000000))
        (s.params.cosTable.get (cellIx y v))) ∧
    (∀ x y, out x y = F64.add (F64.mul 0x3FD0000000000000 (sumUp fun u =>
      F64.mul (F64.mul (T u y) (if u = 0 then 0x3FE6A09E667F3BCD else 0x3FF0000000000000))
        (s.params.cosTable.get (cellIx x u)))) 0x4060000000000000) ∧
    ∀ x y, (F64.isNaN (out x y) = false → t.coef.get (cellIx x y) = out x y) ∧
      (F64.isNaN (out x y) = true → F64.isNaN (t.coef.get (cellIx x y)) = true)

/-- 40_transform.md R207: RECON: saturation, then the rounding of R208; a later cell wins where cells overlap. -/
def Obligations.ReconStoresClampedSamples : Prop :=
  decode 0x00000004 = .ok .recon ∧
  ∀ s : State,
    (¬ BlockExists s s.opDst → FailsCleanly .recon s 0x03) ∧
    (BlockExists s s.opDst → (∃ i, F64.isNaN (s.coef.get i) = true) → FailsCleanly .recon s 0x04) ∧
    (BlockExists s s.opDst → (∀ i, F64.isNaN (s.coef.get i) = false) →
      ∃ t, exec .recon s = .next t ∧ t = { s with mem := t.mem, status := s.status.succeeded } ∧
        (∀ a, (∀ r c : Fin 8, a ≠ s.opDst + r.val * s.opStride + c.val) → t.readByte a = s.readByte a) ∧
        ∀ r c : Fin 8,
          (∀ r' c' : Fin 8, r.val * 8 + c.val < r'.val * 8 + c'.val →
            s.opDst + r'.val * s.opStride + c'.val ≠ s.opDst + r.val * s.opStride + c.val) →
          (t.readByte (s.opDst + r.val * s.opStride + c.val)).toNat =
            (if F64.lt (s.coef.get (cellIx r c)) 0 = true then 0
             else if F64.lt 0x406FE00000000000 (s.coef.get (cellIx r c)) = true then 255
             else roundSample s.params.reconRound (s.coef.get (cellIx r c))))

/-- 40_transform.md R208: `round_R` on [0.0, 255.0] is the mathematical rounding of the exact value w = m / 2^k of the pattern `x`, in each of
the three modes, and stays within 0 to 255. -/
def Obligations.SampleRounding : Prop :=
  ∀ (x : F64) (m k : Nat), F64.isNaN x = false → F64.lt x 0 = false → F64.lt 0x406FE00000000000 x = false →
    m = F64.sig x → (k : Int) = -(F64.ulp x) →
    (∀ mode, roundSample mode x ≤ 255) ∧
    (roundSample .trunc x * 2 ^ k ≤ m ∧ m < (roundSample .trunc x + 1) * 2 ^ k) ∧
    (2 * (roundSample .nearestEven x * 2 ^ k) ≤ 2 * m + 2 ^ k ∧ 2 * m ≤ 2 * (roundSample .nearestEven x * 2 ^ k) + 2 ^ k ∧
      (2 * (roundSample .nearestEven x * 2 ^ k) = 2 * m + 2 ^ k ∨ 2 * m = 2 * (roundSample .nearestEven x * 2 ^ k) + 2 ^ k →
        roundSample .nearestEven x % 2 = 0)) ∧
    (2 * (roundSample .nearestAway x * 2 ^ k) ≤ 2 * m + 2 ^ k ∧ 2 * m < 2 * (roundSample .nearestAway x * 2 ^ k) + 2 ^ k)

/-! ### The zigzag reorderer -/

/-- 42_zigzag.md R300, R301: the order runs through the anti-diagonals in turn, the row rising on an odd one and falling on an even one, and the two
tables are inverse to each other. -/
def Obligations.ZigzagTablesAreInverse : Prop :=
  (∀ k : Fin 64, zigzagInv.get (zigzag.get k) = k) ∧ (∀ i : Fin 64, zigzag.get (zigzagInv.get i) = i) ∧
  (zigzag.get 0).val = 0 ∧
  ∀ k k' : Fin 64, k.val + 1 = k'.val → ∀ r c r' c' : Nat,
    r < 8 → c < 8 → r' < 8 → c' < 8 → (zigzag.get k).val = 8 * r + c → (zigzag.get k').val = 8 * r' + c' →
    (r' + c' = r + c ∧ (r + c) % 2 = 1 ∧ r' = r + 1) ∨ (r' + c' = r + c ∧ (r + c) % 2 = 0 ∧ r' + 1 = r) ∨
    (r' + c' = r + c + 1 ∧ ((r + c) % 2 = 1 → r = 7 ∨ c = 0) ∧ ((r + c) % 2 = 0 → r = 0 ∨ c = 7))

/-- 42_zigzag.md R302: ZZSCAN. -/
def Obligations.ZzscanStoresInOrder : Prop :=
  decode 0x00000007 = .ok .zzscan ∧
  ∀ s : State,
    (s.opDst + 64 ≤ s.params.dmemSize →
      ∃ t, exec .zzscan s = .next t ∧ t = { s with mem := t.mem, status := s.status.succeeded } ∧
        (∀ k : Fin 64, t.readByte (s.opDst + k.val) = s.qblk.get (zigzag.get k)) ∧
        ∀ a, a < s.opDst ∨ s.opDst + 64 ≤ a → t.readByte a = s.readByte a) ∧
    (s.params.dmemSize < s.opDst + 64 → FailsCleanly .zzscan s 0x03)

/-- 42_zigzag.md R303: ZZUNSCAN. -/
def Obligations.ZzunscanLoadsInOrder : Prop :=
  decode 0x00000008 = .ok .zzunscan ∧
  ∀ s : State,
    (s.opSrc + 64 ≤ s.params.dmemSize →
      ∃ t, exec .zzunscan s = .next t ∧ t = { s with qblk := t.qblk, status := s.status.succeeded } ∧
        (∀ k : Fin 64, t.qblk.get (zigzag.get k) = s.readByte (s.opSrc + k.val)) ∧
        ∀ i : Fin 64, t.qblk.get i = s.readByte (s.opSrc + (zigzagInv.get i).val)) ∧
    (s.params.dmemSize < s.opSrc + 64 → FailsCleanly .zzunscan s 0x03)

/-- 42_zigzag.md R304: scanning to an address and unscanning from it leaves QBLK, and unscanning then scanning leaves the 64 bytes, as they
were. -/
def Obligations.ZigzagRoundTrip : Prop :=
  (∀ (s t : State) (args : Operands), s.opDst + 64 ≤ s.params.dmemSize → args.src = s.op.args.dst →
    exec .zzscan s = .next t → ∃ u, exec .zzunscan { t with op := ⟨t.op.word, args⟩ } = .next u ∧ u.qblk = s.qblk) ∧
  (∀ (s t : State) (args : Operands), s.opSrc + 64 ≤ s.params.dmemSize → args.dst = s.op.args.src →
    exec .zzunscan s = .next t → ∃ u, exec .zzscan { t with op := ⟨t.op.word, args⟩ } = .next u ∧ SameDmem s u)

/-! ### The Huffman coder -/

/-- 43_huffman.md R330: FREQCLR. -/
def Obligations.FreqclrClearsCounters : Prop :=
  decode 0x00000009 = .ok .freqclr ∧
  ∀ s : State, ∃ t, exec .freqclr s = .next t ∧ t = { s with freq := t.freq, status := s.status.succeeded } ∧
    ∀ b, t.freq.get b = 0

/-- 43_huffman.md R331: FREQACC adds the exact count of each byte value, saturating, and reports the saturation after all counting. -/
def Obligations.FreqaccCountsExactly : Prop :=
  decode 0x0000000A = .ok .freqacc ∧
  ∀ s : State,
    (s.params.dmemSize < s.opSrc + s.opLen → FailsCleanly .freqacc s 0x03) ∧
    (s.opSrc + s.opLen ≤ s.params.dmemSize →
      ∃ t, exec .freqacc s = .next t ∧ t = { s with freq := t.freq, status := t.status } ∧
        (∀ b : Byte, (t.freq.get (byteIx b)).toNat =
          min ((s.freq.get (byteIx b)).toNat + (s.readBytes s.opSrc s.opLen).count b) 0xFFFFFFFF) ∧
        ((∀ b : Byte, (s.freq.get (byteIx b)).toNat + (s.readBytes s.opSrc s.opLen).count b ≤ 0xFFFFFFFF) →
          t.status = s.status.succeeded) ∧
        ((∃ b : Byte, 0xFFFFFFFF < (s.freq.get (byteIx b)).toNat + (s.readBytes s.opSrc s.opLen).count b) →
          t.status = s.status.failed 0x05))

/-- 43_huffman.md R332, R333, R334: TREEBUILD with no symbol, with one, with two (the tie-break and the child order: the smaller key (count, rank)
gets bit 1), and with a code too long. -/
def Obligations.TreebuildSmallAndFailingTrees : Prop :=
  decode 0x0000000B = .ok .treebuild ∧
  ∀ s : State,
    ((∀ b, s.freq.get b = 0) →
      exec .treebuild s = .next { s with nsym := 0, maxlen := 0, status := s.status.failed 0x06 }) ∧
    (∀ b, s.freq.get b ≠ 0 → (∀ c, c ≠ b → s.freq.get c = 0) →
      ∃ t, exec .treebuild s = .next t ∧
        t = { s with code := t.code, nsym := 1, maxlen := 1, status := s.status.succeeded } ∧
        t.code.get b = ⟨0, 1⟩ ∧ ∀ c, c ≠ b → t.code.get c = ⟨0, 0⟩) ∧
    (∀ a b, a < b → s.freq.get a ≠ 0 → s.freq.get b ≠ 0 → (∀ c, c ≠ a → c ≠ b → s.freq.get c = 0) →
      ∃ t, exec .treebuild s = .next t ∧
        t = { s with code := t.code, nsym := 2, maxlen := 1, status := s.status.succeeded } ∧
        ((s.freq.get a).toNat ≤ (s.freq.get b).toNat → t.code.get a = ⟨1, 1⟩ ∧ t.code.get b = ⟨0, 1⟩) ∧
        ((s.freq.get b).toNat < (s.freq.get a).toNat → t.code.get a = ⟨0, 1⟩ ∧ t.code.get b = ⟨1, 1⟩) ∧
        ∀ c, c ≠ a → c ≠ b → t.code.get c = ⟨0, 0⟩) ∧
    ((∃ b, s.freq.get b ≠ 0) → 32 < maxCodeLen (buildCodes s.freq) →
      ∃ t, exec .treebuild s = .next t ∧ t = { s with nsym := t.nsym, maxlen := t.maxlen, status := s.status.failed 0x07 } ∧
        t.nsym.toNat = (List.finRange 256).countP (fun b => s.freq.get b != 0) ∧
        t.maxlen.toNat = maxCodeLen (buildCodes s.freq))

/-- 43_huffman.md R332, R333, R336: TREEBUILD of at least one symbol.  From two symbols on, the codes are the paths of the tree that merging the two
least keys makes, and MAXLEN is its depth.  Up to 32 bits it succeeds with a valid, prefix-free table in which exactly the symbols with a count are
present; above, it fails and CODE stays. -/
def Obligations.TreebuildMakesPrefixFreeTable : Prop :=
  ∀ s : State, (∃ b, s.freq.get b ≠ 0) →
    ∃ t, exec .treebuild s = .next t ∧
      t.nsym.toNat = (List.finRange 256).countP (fun b => s.freq.get b != 0) ∧
      (t.maxlen.toNat ≤ 32 →
        t = { s with code := t.code, nsym := t.nsym, maxlen := t.maxlen, status := s.status.succeeded } ∧
        (∀ b, (t.code.get b).len = 0 ↔ s.freq.get b = 0) ∧
        (∀ b, (t.code.get b).len = 0 → (t.code.get b).bits = 0) ∧
        (∀ b, (t.code.get b).len.toNat ≤ t.maxlen.toNat ∧ (t.code.get b).bits.toNat < 2 ^ (t.code.get b).len.toNat) ∧
        (∃ b, (t.code.get b).len.toNat = t.maxlen.toNat) ∧
        ValidTable t.code ∧ PrefixFree t.code) ∧
      (32 < t.maxlen.toNat → t = { s with nsym := t.nsym, maxlen := t.maxlen, status := s.status.failed 0x07 }) ∧
      ∀ present : List (Fin 256), present = (List.finRange 256).filter (fun b => s.freq.get b != 0) → 2 ≤ present.length →
        ∃ T : HTree, Merges present.length (present.mapIdx fun k b => ⟨(s.freq.get b).toNat, k, .leaf b⟩) T ∧
          (∀ b w, LeafPath T b w → w.length ≤ t.maxlen.toNat) ∧ (∃ b w, LeafPath T b w ∧ w.length = t.maxlen.toNat) ∧
          (t.maxlen.toNat ≤ 32 → ∀ b w, LeafPath T b w → (t.code.get b).stream = w)

/-! ### The bit buffer -/

/-- 44_bitbuffer.md R400: BBRESET. -/
def Obligations.BbresetOpensStream : Prop :=
  decode 0x0000000C = .ok .bbreset ∧
  ∀ s : State, exec .bbreset s = .next { s with
    bb := { outptr := s.op.args.dst, limit := s.op.args.dstlen, outcnt := 0, acc := 0, nbits := 0, tot := 0 }
    status := s.status.succeeded }

/-- 44_bitbuffer.md R401, R403: BBPUT: the checks in order, each with no effect, and the append: the stream's bits, the carried ones included, are
the old ones followed by the low PUTLEN bits of PUTBITS.
(That the range check is made also where no byte is completed, PUTLEN = 0 included, is the model's reading, log entry 16.) -/
def Obligations.BbputAppendsBits : Prop :=
  decode 0x0000000D = .ok .bbput ∧
  ∀ s : State,
    (32 < s.opPutlen → FailsCleanly .bbput s 0x0A) ∧
    (s.opPutlen ≤ 32 → s.bb.limit.toNat < s.bb.outcnt.toNat + (s.bb.nbits.val + s.opPutlen) / 8 →
      FailsCleanly .bbput s 0x0B) ∧
    (s.opPutlen ≤ 32 → s.bb.outcnt.toNat + (s.bb.nbits.val + s.opPutlen) / 8 ≤ s.bb.limit.toNat →
      s.params.dmemSize < s.bb.outptr.toNat + (s.bb.nbits.val + s.opPutlen) / 8 → FailsCleanly .bbput s 0x03) ∧
    (s.params.wellFormed = true → s.bb.acc.toNat < 2 ^ s.bb.nbits.val → s.opPutlen ≤ 32 →
      s.bb.outcnt.toNat + (s.bb.nbits.val + s.opPutlen) / 8 ≤ s.bb.limit.toNat →
      s.bb.outptr.toNat + (s.bb.nbits.val + s.opPutlen) / 8 ≤ s.params.dmemSize →
      ∃ t, exec .bbput s = .next t ∧ t = { s with mem := t.mem, bb := t.bb, status := s.status.succeeded } ∧
        t.bb.limit = s.bb.limit ∧
        t.bb.outptr.toNat = s.bb.outptr.toNat + (s.bb.nbits.val + s.opPutlen) / 8 ∧
        t.bb.outcnt.toNat = s.bb.outcnt.toNat + (s.bb.nbits.val + s.opPutlen) / 8 ∧
        t.bb.nbits.val = (s.bb.nbits.val + s.opPutlen) % 8 ∧ t.bb.acc.toNat < 2 ^ t.bb.nbits.val ∧
        t.bb.tot = s.bb.tot + BitVec.ofNat 64 s.opPutlen ∧
        storedBits t s.bb.outptr.toNat (8 * ((s.bb.nbits.val + s.opPutlen) / 8)) ++ t.bb.carried =
          s.bb.carried ++ lowBits s.op.args.putbits s.opPutlen ∧
        ∀ a, a < s.bb.outptr.toNat ∨ s.bb.outptr.toNat + (s.bb.nbits.val + s.opPutlen) / 8 ≤ a →
          t.readByte a = s.readByte a)

/-- 44_bitbuffer.md R402: BBFLUSH. -/
def Obligations.BbflushClosesStream : Prop :=
  decode 0x0000000E = .ok .bbflush ∧
  ∀ s : State,
    (s.bb.nbits = 0 → exec .bbflush s = .next { s with
      regs := { s.regs with bitcnt := s.bb.tot }
      bb := { s.bb with tot := 0, acc := 0, nbits := 0 }
      status := s.status.succeeded }) ∧
    (s.bb.nbits ≠ 0 → s.bb.limit.toNat < s.bb.outcnt.toNat + 1 → FailsCleanly .bbflush s 0x0B) ∧
    (s.bb.nbits ≠ 0 → s.bb.outcnt.toNat + 1 ≤ s.bb.limit.toNat → s.params.dmemSize < s.bb.outptr.toNat + 1 →
      FailsCleanly .bbflush s 0x03) ∧
    (s.bb.nbits ≠ 0 → s.bb.outcnt.toNat + 1 ≤ s.bb.limit.toNat → s.bb.outptr.toNat + 1 ≤ s.params.dmemSize →
      ∃ t, exec .bbflush s = .next t ∧
        t = { s with
          mem := t.mem
          regs := { s.regs with bitcnt := s.bb.tot }
          bb := { s.bb with outptr := s.bb.outptr + 1, outcnt := s.bb.outcnt + 1, tot := 0, acc := 0, nbits := 0 }
          status := s.status.succeeded } ∧
        (t.readByte s.bb.outptr.toNat).toNat = (s.bb.acc.toNat * 2 ^ (8 - s.bb.nbits.val)) % 256 ∧
        ∀ a, a ≠ s.bb.outptr.toNat → t.readByte a = s.readByte a)

/-- 44_bitbuffer.md R404: after BBRESET, any appends and BBFLUSH, the stored bytes are exactly the appended bits, padded with zeros, and BITCNT is
their number. -/
def Obligations.BitStreamIsExact : Prop :=
  ∀ (s0 s : State) (pairs : List (Word × BitVec 6)) (bits : List Bool), s0.params.wellFormed = true →
    exec .bbreset s0 = .next s → (∀ p ∈ pairs, p.2.toNat ≤ 32) → bits = pairs.flatMap (fun p => lowBits p.1 p.2.toNat) →
    (bits.length + 7) / 8 ≤ s0.opDstlen → s0.opDst + (bits.length + 7) / 8 ≤ s0.params.dmemSize →
    ∃ u, exec .bbflush (putAll s pairs) = .next u ∧ u.status.err = s0.status.err ∧
      u.regs.bitcnt.toNat = bits.length ∧ u.bb.outcnt.toNat = (bits.length + 7) / 8 ∧
      storedBits u s0.opDst (8 * ((bits.length + 7) / 8)) =
        bits ++ List.replicate (8 * ((bits.length + 7) / 8) - bits.length) false

/-! ### ENCODE and DECODE -/

/-- 43_huffman.md R335: ENCODE appends the code of each byte of the region, in order, where the output stays within its capacity and clear of the
input. -/
def Obligations.EncodeAppendsCodes : Prop :=
  decode 0x0000000F = .ok .encode ∧
  ∀ (s : State) (codes : List Bool), s.params.wellFormed = true → s.bb.acc.toNat < 2 ^ s.bb.nbits.val →
    s.opSrc + s.opLen ≤ s.params.dmemSize →
    (∀ b ∈ s.readBytes s.opSrc s.opLen, 1 ≤ (s.code.get (byteIx b)).len.toNat ∧ (s.code.get (byteIx b)).len.toNat ≤ 32) →
    codes = (s.readBytes s.opSrc s.opLen).flatMap (fun b => (s.code.get (byteIx b)).stream) →
    s.bb.outcnt.toNat + (s.bb.nbits.val + codes.length) / 8 ≤ s.bb.limit.toNat →
    s.bb.outptr.toNat + (s.bb.nbits.val + codes.length) / 8 ≤ s.params.dmemSize →
    Disjoint s.opSrc s.opLen s.bb.outptr.toNat ((s.bb.nbits.val + codes.length) / 8) →
    ∃ t, exec .encode s = .next t ∧
      t = { s with mem := t.mem, bb := t.bb, encPos := s.op.args.len, status := s.status.succeeded } ∧
      t.bb.limit = s.bb.limit ∧
      t.bb.outptr.toNat = s.bb.outptr.toNat + (s.bb.nbits.val + codes.length) / 8 ∧
      t.bb.outcnt.toNat = s.bb.outcnt.toNat + (s.bb.nbits.val + codes.length) / 8 ∧
      t.bb.nbits.val = (s.bb.nbits.val + codes.length) % 8 ∧
      t.bb.tot = s.bb.tot + BitVec.ofNat 64 codes.length ∧
      storedBits t s.bb.outptr.toNat (8 * ((s.bb.nbits.val + codes.length) / 8)) ++ t.bb.carried = s.bb.carried ++ codes ∧
      ∀ a, a < s.bb.outptr.toNat ∨ s.bb.outptr.toNat + (s.bb.nbits.val + codes.length) / 8 ≤ a →
        t.readByte a = s.readByte a

/-- 43_huffman.md R335, 20_memory.md R122: ENCODE byte by byte.  It fails before any effect on a bad region, does nothing on an empty one, stops at a first
byte that has no code, a code too long, or no room, and else appends that byte's code as BBPUT does and goes on as ENCODE of the rest does,
in this order also where the output lies over the input.
(That its range checks are made also where LEN = 0, and where the code completes no byte, is the model's reading, log entry 16.) -/
def Obligations.EncodeRunsByteByByte : Prop :=
  ∀ s : State,
    (s.params.dmemSize < s.opSrc + s.opLen → FailsCleanly .encode s 0x03) ∧
    (s.opSrc ≤ s.params.dmemSize → s.opLen = 0 →
      exec .encode s = .next { s with encPos := 0, status := s.status.succeeded }) ∧
    (s.opSrc + s.opLen ≤ s.params.dmemSize → 1 ≤ s.opLen →
      ∀ e : CodeEntry, e = s.code.get (byteIx (s.readByte s.opSrc)) →
        (e.len = 0 → exec .encode s = .next { s with encPos := 0, status := s.status.failed 0x08 }) ∧
        (32 < e.len.toNat → exec .encode s = .next { s with encPos := 0, status := s.status.failed 0x09 }) ∧
        (1 ≤ e.len.toNat → e.len.toNat ≤ 32 → s.bb.limit.toNat < s.bb.outcnt.toNat + (s.bb.nbits.val + e.len.toNat) / 8 →
          exec .encode s = .next { s with encPos := 0, status := s.status.failed 0x0B }) ∧
        (1 ≤ e.len.toNat → e.len.toNat ≤ 32 → s.bb.outcnt.toNat + (s.bb.nbits.val + e.len.toNat) / 8 ≤ s.bb.limit.toNat →
          s.params.dmemSize < s.bb.outptr.toNat + (s.bb.nbits.val + e.len.toNat) / 8 →
          exec .encode s = .next { s with encPos := 0, status := s.status.failed 0x03 }) ∧
        (s.params.wellFormed = true → 1 ≤ e.len.toNat → e.len.toNat ≤ 32 →
          s.bb.outcnt.toNat + (s.bb.nbits.val + e.len.toNat) / 8 ≤ s.bb.limit.toNat →
          s.bb.outptr.toNat + (s.bb.nbits.val + e.len.toNat) / 8 ≤ s.params.dmemSize →
          ∃ t u v, exec .bbput { s with op := ⟨s.op.word, { s.op.args with putbits := e.bits, putlen := e.len }⟩ } = .next t ∧
            exec .encode { t with
              op := ⟨s.op.word, { s.op.args with src := s.op.args.src + 1, len := s.op.args.len - 1 }⟩ } = .next u ∧
            exec .encode s = .next v ∧ v = { u with op := s.op, encPos := u.encPos + 1 }))

/-- 43_huffman.md R336, R337: DECODE of a stream that is a sequence of codes of a valid, prefix-free table writes exactly the symbols. -/
def Obligations.DecodeRecoversSymbols : Prop :=
  decode 0x00000010 = .ok .decode ∧
  ∀ (s : State) (syms : List Byte), ValidTable s.code → PrefixFree s.code →
    (∀ b ∈ syms, (s.code.get (byteIx b)).len ≠ 0) →
    s.opBitcnt ≤ 8 * s.opLen → s.opSrc + (s.opBitcnt + 7) / 8 ≤ s.params.dmemSize →
    storedBits s s.opSrc s.opBitcnt = syms.flatMap (fun b => (s.code.get (byteIx b)).stream) →
    syms.length ≤ s.opDstlen → s.opDst + syms.length ≤ s.params.dmemSize →
    Disjoint s.opSrc ((s.opBitcnt + 7) / 8) s.opDst syms.length →
    ∃ t, exec .decode s = .next t ∧
      t = { s with
        mem := t.mem
        decOutlen := BitVec.ofNat 32 syms.length
        decBitpos := s.op.args.bitcnt
        status := s.status.succeeded } ∧
      t.readBytes s.opDst syms.length = syms ∧
      ∀ a, a < s.opDst ∨ s.opDst + syms.length ≤ a → t.readByte a = s.readByte a

/-- 43_huffman.md R336, R337, 10_state.md R61: DECODE's errors before its loop, in their order; where it ends after a list of symbols, the greedy
match giving each of them: at the stream's end, at a symbol without capacity or without DMEM, at 32 bits that match nothing, at trailing bits; and
the progress registers after any run.  (Where the output lies over the payload, only the last part speaks.)
(That the checks are made also where BITCNT = 0 is the model's reading, log entry 16.) -/
def Obligations.DecodeReportsProgress : Prop :=
  ∀ s : State,
    (¬ ValidTable s.code →
      exec .decode s = .next { s with decOutlen := 0, decBitpos := 0, status := s.status.failed 0x09 }) ∧
    (ValidTable s.code → 8 * s.opLen < s.opBitcnt →
      exec .decode s = .next { s with decOutlen := 0, decBitpos := 0, status := s.status.failed 0x0C }) ∧
    (ValidTable s.code → s.opBitcnt ≤ 8 * s.opLen → s.params.dmemSize < s.opSrc + (s.opBitcnt + 7) / 8 →
      exec .decode s = .next { s with decOutlen := 0, decBitpos := 0, status := s.status.failed 0x03 }) ∧
    (ValidTable s.code → s.opBitcnt ≤ 8 * s.opLen → s.opSrc + (s.opBitcnt + 7) / 8 ≤ s.params.dmemSize →
      ∀ (syms : List Byte) (rest : List Bool), (∀ b ∈ syms, FirstMatch s.code (byteIx b)) →
        storedBits s s.opSrc s.opBitcnt = codesOf s.code syms ++ rest → syms.length ≤ s.opDstlen →
        (∀ n, n < syms.length → s.opDst + n < s.params.dmemSize) → Disjoint s.opSrc ((s.opBitcnt + 7) / 8) s.opDst syms.length →
        ∃ t, exec .decode s = .next t ∧
          (rest = [] → DecodedTo s t syms s.opBitcnt s.status.succeeded) ∧
          (∀ b, FirstMatch s.code b → (s.code.get b).stream <+: rest →
            (syms.length = s.opDstlen →
              DecodedTo s t syms ((codesOf s.code syms).length + (s.code.get b).len.toNat) (s.status.failed 0x0B)) ∧
            (syms.length < s.opDstlen → s.params.dmemSize ≤ s.opDst + syms.length →
              DecodedTo s t syms ((codesOf s.code syms).length + (s.code.get b).len.toNat) (s.status.failed 0x03))) ∧
          (NoMatch s.code rest → 32 ≤ rest.length →
            DecodedTo s t syms ((codesOf s.code syms).length + 32) (s.status.failed 0x0C)) ∧
          (NoMatch s.code rest → 1 ≤ rest.length → rest.length < 32 →
            DecodedTo s t syms s.opBitcnt (s.status.failed 0x0C))) ∧
    ∃ t, exec .decode s = .next t ∧
      t = { s with mem := t.mem, decOutlen := t.decOutlen, decBitpos := t.decBitpos, status := t.status } ∧
      t.decOutlen.toNat ≤ s.opDstlen ∧ t.decBitpos.toNat ≤ s.opBitcnt ∧
      (t.status = s.status.succeeded → s.status.err = false → t.decBitpos = s.op.args.bitcnt) ∧
      ∀ a, a < s.opDst ∨ s.opDst + t.decOutlen.toNat ≤ a → t.readByte a = s.readByte a

/-- 43_huffman.md R338: with a valid, prefix-free table that has a code for every byte of the region, ENCODE into a fresh stream, BBFLUSH, and DECODE
of what they wrote give the region's bytes back. -/
def Obligations.HuffmanRoundTrip : Prop :=
  ∀ (s t u : State) (args : Operands), s.params.wellFormed = true → ValidTable s.code → PrefixFree s.code →
    1 ≤ s.opLen → s.bb.nbits = 0 → s.bb.acc = 0 → s.bb.tot = 0 → s.bb.outcnt = 0 → s.status.err = false →
    (∀ b ∈ s.readBytes s.opSrc s.opLen, (s.code.get (byteIx b)).len ≠ 0) →
    exec .encode s = .next t → t.status.err = false → exec .bbflush t = .next u → u.status.err = false →
    Disjoint s.opSrc s.opLen s.bb.outptr.toNat u.bb.outcnt.toNat →
    args.src = s.bb.outptr → args.len = u.bb.outcnt → args.bitcnt = u.regs.bitcnt → s.opLen ≤ args.dstlen.toNat →
    args.dst.toNat + s.opLen ≤ s.params.dmemSize →
    Disjoint s.bb.outptr.toNat u.bb.outcnt.toNat args.dst.toNat s.opLen →
    ∃ v, exec .decode { u with op := ⟨u.op.word, args⟩ } = .next v ∧ v.status.err = false ∧
      v.decOutlen = s.op.args.len ∧ v.decBitpos = args.bitcnt ∧
      v.readBytes args.dst.toNat s.opLen = s.readBytes s.opSrc s.opLen

/-! ### The per-block pipeline -/

/-- 45_pipeline.md R430, R432: BLKENC fails before any stage, or has the effect of FDCT, then QUANT, then ZZSCAN, and completes once. -/
def Obligations.BlkencRunsItsStages : Prop :=
  decode 0x00000011 = .ok .blkenc ∧
  ∀ s : State,
    (¬ BlockExists s s.opSrc → FailsCleanly .blkenc s 0x03) ∧
    (BlockExists s s.opSrc → s.params.dmemSize < s.opDst + 64 → FailsCleanly .blkenc s 0x03) ∧
    (BlockExists s s.opSrc → s.opDst + 64 ≤ s.params.dmemSize →
      ∃ t a, exec .blkenc s = .next t ∧
        t = { s with mem := t.mem, coef := t.coef, qblk := t.qblk, status := s.status.succeeded } ∧
        exec .fdct s = .next a ∧ t.coef = a.coef ∧
        (∀ k : Fin 64, t.readByte (s.opDst + k.val) = t.qblk.get (zigzag.get k)) ∧
        (∀ b, b < s.opDst ∨ s.opDst + 64 ≤ b → t.readByte b = s.readByte b) ∧
        ((∀ i, F64.isFinite (a.coef.get i) = true) →
          ∃ b c, exec .quant a = .next b ∧ exec .zzscan b = .next c ∧ t.qblk = c.qblk ∧ t.coef = c.coef ∧ t.mem = c.mem))

/-- 45_pipeline.md R431, R432: BLKDEC fails before any stage, or has the effect of ZZUNSCAN, then DEQUANT, then IDCT, then RECON, and completes
once. -/
def Obligations.BlkdecRunsItsStages : Prop :=
  decode 0x00000012 = .ok .blkdec ∧
  ∀ s : State,
    (s.params.dmemSize < s.opSrc + 64 → FailsCleanly .blkdec s 0x03) ∧
    (s.opSrc + 64 ≤ s.params.dmemSize → ¬ BlockExists s s.opDst → FailsCleanly .blkdec s 0x03) ∧
    (s.opSrc + 64 ≤ s.params.dmemSize → BlockExists s s.opDst →
      ∃ t a b c, exec .blkdec s = .next t ∧
        t = { s with mem := t.mem, coef := t.coef, qblk := t.qblk, status := s.status.succeeded, draws := t.draws } ∧
        exec .zzunscan s = .next a ∧ exec .dequant a = .next b ∧ exec .idct b = .next c ∧
        t.qblk = a.qblk ∧ t.coef = c.coef ∧
        (∀ x, (∀ r k : Fin 8, x ≠ s.opDst + r.val * s.opStride + k.val) → t.readByte x = s.readByte x) ∧
        ((∀ i, F64.isNaN (c.coef.get i) = false) → ∃ d, exec .recon c = .next d ∧ t.mem = d.mem))
end

