-- ==== Sys2Proof/Laws/State.lean ====
section
/-! SUPPORT. One lemma per field per shared update of State, so that no proof unfolds a record update. -/

namespace Sys2Proof.Machine

@[simp] theorem complete_params (s : State) (e : Option ErrorCode) : (s.complete e).params = s.params := rfl
@[simp] theorem complete_mem (s : State) (e : Option ErrorCode) : (s.complete e).mem = s.mem := rfl
@[simp] theorem complete_ie (s : State) (e : Option ErrorCode) : (s.complete e).ie = s.ie := rfl
@[simp] theorem complete_status (s : State) (e : Option ErrorCode) : (s.complete e).status = s.status.complete e := rfl
@[simp] theorem complete_cmd (s : State) (e : Option ErrorCode) : (s.complete e).cmd = s.cmd := rfl
@[simp] theorem complete_regs (s : State) (e : Option ErrorCode) : (s.complete e).regs = s.regs := rfl
@[simp] theorem complete_bb (s : State) (e : Option ErrorCode) : (s.complete e).bb = s.bb := rfl
@[simp] theorem complete_decOutlen (s : State) (e : Option ErrorCode) : (s.complete e).decOutlen = s.decOutlen := rfl
@[simp] theorem complete_decBitpos (s : State) (e : Option ErrorCode) : (s.complete e).decBitpos = s.decBitpos := rfl
@[simp] theorem complete_encPos (s : State) (e : Option ErrorCode) : (s.complete e).encPos = s.encPos := rfl
@[simp] theorem complete_nsym (s : State) (e : Option ErrorCode) : (s.complete e).nsym = s.nsym := rfl
@[simp] theorem complete_maxlen (s : State) (e : Option ErrorCode) : (s.complete e).maxlen = s.maxlen := rfl
@[simp] theorem complete_freq (s : State) (e : Option ErrorCode) : (s.complete e).freq = s.freq := rfl
@[simp] theorem complete_code (s : State) (e : Option ErrorCode) : (s.complete e).code = s.code := rfl
@[simp] theorem complete_qm (s : State) (e : Option ErrorCode) : (s.complete e).qm = s.qm := rfl
@[simp] theorem complete_coef (s : State) (e : Option ErrorCode) : (s.complete e).coef = s.coef := rfl
@[simp] theorem complete_qblk (s : State) (e : Option ErrorCode) : (s.complete e).qblk = s.qblk := rfl
@[simp] theorem complete_op (s : State) (e : Option ErrorCode) : (s.complete e).op = s.op := rfl
@[simp] theorem complete_turns (s : State) (e : Option ErrorCode) : (s.complete e).turns = s.turns := rfl
@[simp] theorem complete_resp (s : State) (e : Option ErrorCode) : (s.complete e).resp = s.resp := rfl
@[simp] theorem complete_draws (s : State) (e : Option ErrorCode) : (s.complete e).draws = s.draws := rfl

@[simp] theorem accept_params (s : State) (w : Word) : (s.accept w).params = s.params := rfl
@[simp] theorem accept_mem (s : State) (w : Word) : (s.accept w).mem = s.mem := rfl
@[simp] theorem accept_ie (s : State) (w : Word) : (s.accept w).ie = s.ie := rfl
@[simp] theorem accept_status (s : State) (w : Word) : (s.accept w).status = s.status.accept (opcField w) := rfl
@[simp] theorem accept_cmd (s : State) (w : Word) : (s.accept w).cmd = w := rfl
@[simp] theorem accept_regs (s : State) (w : Word) : (s.accept w).regs = s.regs := rfl
@[simp] theorem accept_bb (s : State) (w : Word) : (s.accept w).bb = s.bb := rfl
@[simp] theorem accept_decOutlen (s : State) (w : Word) : (s.accept w).decOutlen = s.decOutlen := rfl
@[simp] theorem accept_decBitpos (s : State) (w : Word) : (s.accept w).decBitpos = s.decBitpos := rfl
@[simp] theorem accept_encPos (s : State) (w : Word) : (s.accept w).encPos = s.encPos := rfl
@[simp] theorem accept_nsym (s : State) (w : Word) : (s.accept w).nsym = s.nsym := rfl
@[simp] theorem accept_maxlen (s : State) (w : Word) : (s.accept w).maxlen = s.maxlen := rfl
@[simp] theorem accept_freq (s : State) (w : Word) : (s.accept w).freq = s.freq := rfl
@[simp] theorem accept_code (s : State) (w : Word) : (s.accept w).code = s.code := rfl
@[simp] theorem accept_qm (s : State) (w : Word) : (s.accept w).qm = s.qm := rfl
@[simp] theorem accept_coef (s : State) (w : Word) : (s.accept w).coef = s.coef := rfl
@[simp] theorem accept_qblk (s : State) (w : Word) : (s.accept w).qblk = s.qblk := rfl
@[simp] theorem accept_op (s : State) (w : Word) : (s.accept w).op = ⟨w, s.regs⟩ := rfl
@[simp] theorem accept_turns (s : State) (w : Word) : (s.accept w).turns = s.turns := rfl
@[simp] theorem accept_resp (s : State) (w : Word) : (s.accept w).resp = s.resp := rfl
@[simp] theorem accept_draws (s : State) (w : Word) : (s.accept w).draws = s.draws := rfl

@[simp] theorem acknowledge_params (s : State) (v : Word) : (s.acknowledge v).params = s.params := rfl
@[simp] theorem acknowledge_mem (s : State) (v : Word) : (s.acknowledge v).mem = s.mem := rfl
@[simp] theorem acknowledge_ie (s : State) (v : Word) : (s.acknowledge v).ie = s.ie := rfl
@[simp] theorem acknowledge_status (s : State) (v : Word) : (s.acknowledge v).status = s.status.writeOneToClear v := rfl
@[simp] theorem acknowledge_cmd (s : State) (v : Word) : (s.acknowledge v).cmd = s.cmd := rfl
@[simp] theorem acknowledge_regs (s : State) (v : Word) : (s.acknowledge v).regs = s.regs := rfl
@[simp] theorem acknowledge_bb (s : State) (v : Word) : (s.acknowledge v).bb = s.bb := rfl
@[simp] theorem acknowledge_decOutlen (s : State) (v : Word) : (s.acknowledge v).decOutlen = s.decOutlen := rfl
@[simp] theorem acknowledge_decBitpos (s : State) (v : Word) : (s.acknowledge v).decBitpos = s.decBitpos := rfl
@[simp] theorem acknowledge_encPos (s : State) (v : Word) : (s.acknowledge v).encPos = s.encPos := rfl
@[simp] theorem acknowledge_nsym (s : State) (v : Word) : (s.acknowledge v).nsym = s.nsym := rfl
@[simp] theorem acknowledge_maxlen (s : State) (v : Word) : (s.acknowledge v).maxlen = s.maxlen := rfl
@[simp] theorem acknowledge_freq (s : State) (v : Word) : (s.acknowledge v).freq = s.freq := rfl
@[simp] theorem acknowledge_code (s : State) (v : Word) : (s.acknowledge v).code = s.code := rfl
@[simp] theorem acknowledge_qm (s : State) (v : Word) : (s.acknowledge v).qm = s.qm := rfl
@[simp] theorem acknowledge_coef (s : State) (v : Word) : (s.acknowledge v).coef = s.coef := rfl
@[simp] theorem acknowledge_qblk (s : State) (v : Word) : (s.acknowledge v).qblk = s.qblk := rfl
@[simp] theorem acknowledge_op (s : State) (v : Word) : (s.acknowledge v).op = s.op := rfl
@[simp] theorem acknowledge_turns (s : State) (v : Word) : (s.acknowledge v).turns = s.turns := rfl
@[simp] theorem acknowledge_resp (s : State) (v : Word) : (s.acknowledge v).resp = s.resp := rfl
@[simp] theorem acknowledge_draws (s : State) (v : Word) : (s.acknowledge v).draws = s.draws := rfl

@[simp] theorem writeByte_params (s : State) (a : Nat) (v : Byte) : (s.writeByte a v).params = s.params := rfl
@[simp] theorem writeByte_mem (s : State) (a : Nat) (v : Byte) : (s.writeByte a v).mem = s.mem.put a v := rfl
@[simp] theorem writeByte_ie (s : State) (a : Nat) (v : Byte) : (s.writeByte a v).ie = s.ie := rfl
@[simp] theorem writeByte_status (s : State) (a : Nat) (v : Byte) : (s.writeByte a v).status = s.status := rfl
@[simp] theorem writeByte_cmd (s : State) (a : Nat) (v : Byte) : (s.writeByte a v).cmd = s.cmd := rfl
@[simp] theorem writeByte_regs (s : State) (a : Nat) (v : Byte) : (s.writeByte a v).regs = s.regs := rfl
@[simp] theorem writeByte_bb (s : State) (a : Nat) (v : Byte) : (s.writeByte a v).bb = s.bb := rfl
@[simp] theorem writeByte_decOutlen (s : State) (a : Nat) (v : Byte) : (s.writeByte a v).decOutlen = s.decOutlen := rfl
@[simp] theorem writeByte_decBitpos (s : State) (a : Nat) (v : Byte) : (s.writeByte a v).decBitpos = s.decBitpos := rfl
@[simp] theorem writeByte_encPos (s : State) (a : Nat) (v : Byte) : (s.writeByte a v).encPos = s.encPos := rfl
@[simp] theorem writeByte_nsym (s : State) (a : Nat) (v : Byte) : (s.writeByte a v).nsym = s.nsym := rfl
@[simp] theorem writeByte_maxlen (s : State) (a : Nat) (v : Byte) : (s.writeByte a v).maxlen = s.maxlen := rfl
@[simp] theorem writeByte_freq (s : State) (a : Nat) (v : Byte) : (s.writeByte a v).freq = s.freq := rfl
@[simp] theorem writeByte_code (s : State) (a : Nat) (v : Byte) : (s.writeByte a v).code = s.code := rfl
@[simp] theorem writeByte_qm (s : State) (a : Nat) (v : Byte) : (s.writeByte a v).qm = s.qm := rfl
@[simp] theorem writeByte_coef (s : State) (a : Nat) (v : Byte) : (s.writeByte a v).coef = s.coef := rfl
@[simp] theorem writeByte_qblk (s : State) (a : Nat) (v : Byte) : (s.writeByte a v).qblk = s.qblk := rfl
@[simp] theorem writeByte_op (s : State) (a : Nat) (v : Byte) : (s.writeByte a v).op = s.op := rfl
@[simp] theorem writeByte_turns (s : State) (a : Nat) (v : Byte) : (s.writeByte a v).turns = s.turns := rfl
@[simp] theorem writeByte_resp (s : State) (a : Nat) (v : Byte) : (s.writeByte a v).resp = s.resp := rfl
@[simp] theorem writeByte_draws (s : State) (a : Nat) (v : Byte) : (s.writeByte a v).draws = s.draws := rfl

@[simp] theorem respond_params (s : State) (v : Word) : (s.respond v).params = s.params := rfl
@[simp] theorem respond_mem (s : State) (v : Word) : (s.respond v).mem = s.mem := rfl
@[simp] theorem respond_ie (s : State) (v : Word) : (s.respond v).ie = s.ie := rfl
@[simp] theorem respond_status (s : State) (v : Word) : (s.respond v).status = s.status := rfl
@[simp] theorem respond_cmd (s : State) (v : Word) : (s.respond v).cmd = s.cmd := rfl
@[simp] theorem respond_regs (s : State) (v : Word) : (s.respond v).regs = s.regs := rfl
@[simp] theorem respond_bb (s : State) (v : Word) : (s.respond v).bb = s.bb := rfl
@[simp] theorem respond_decOutlen (s : State) (v : Word) : (s.respond v).decOutlen = s.decOutlen := rfl
@[simp] theorem respond_decBitpos (s : State) (v : Word) : (s.respond v).decBitpos = s.decBitpos := rfl
@[simp] theorem respond_encPos (s : State) (v : Word) : (s.respond v).encPos = s.encPos := rfl
@[simp] theorem respond_nsym (s : State) (v : Word) : (s.respond v).nsym = s.nsym := rfl
@[simp] theorem respond_maxlen (s : State) (v : Word) : (s.respond v).maxlen = s.maxlen := rfl
@[simp] theorem respond_freq (s : State) (v : Word) : (s.respond v).freq = s.freq := rfl
@[simp] theorem respond_code (s : State) (v : Word) : (s.respond v).code = s.code := rfl
@[simp] theorem respond_qm (s : State) (v : Word) : (s.respond v).qm = s.qm := rfl
@[simp] theorem respond_coef (s : State) (v : Word) : (s.respond v).coef = s.coef := rfl
@[simp] theorem respond_qblk (s : State) (v : Word) : (s.respond v).qblk = s.qblk := rfl
@[simp] theorem respond_op (s : State) (v : Word) : (s.respond v).op = s.op := rfl
@[simp] theorem respond_turns (s : State) (v : Word) : (s.respond v).turns = s.turns := rfl
@[simp] theorem respond_resp (s : State) (v : Word) : (s.respond v).resp = some ⟨v, false⟩ := rfl
@[simp] theorem respond_draws (s : State) (v : Word) : (s.respond v).draws = s.draws := rfl

@[simp] theorem busError_params (s : State) : (s.busError).params = s.params := rfl
@[simp] theorem busError_mem (s : State) : (s.busError).mem = s.mem := rfl
@[simp] theorem busError_ie (s : State) : (s.busError).ie = s.ie := rfl
@[simp] theorem busError_status (s : State) : (s.busError).status = s.status := rfl
@[simp] theorem busError_cmd (s : State) : (s.busError).cmd = s.cmd := rfl
@[simp] theorem busError_regs (s : State) : (s.busError).regs = s.regs := rfl
@[simp] theorem busError_bb (s : State) : (s.busError).bb = s.bb := rfl
@[simp] theorem busError_decOutlen (s : State) : (s.busError).decOutlen = s.decOutlen := rfl
@[simp] theorem busError_decBitpos (s : State) : (s.busError).decBitpos = s.decBitpos := rfl
@[simp] theorem busError_encPos (s : State) : (s.busError).encPos = s.encPos := rfl
@[simp] theorem busError_nsym (s : State) : (s.busError).nsym = s.nsym := rfl
@[simp] theorem busError_maxlen (s : State) : (s.busError).maxlen = s.maxlen := rfl
@[simp] theorem busError_freq (s : State) : (s.busError).freq = s.freq := rfl
@[simp] theorem busError_code (s : State) : (s.busError).code = s.code := rfl
@[simp] theorem busError_qm (s : State) : (s.busError).qm = s.qm := rfl
@[simp] theorem busError_coef (s : State) : (s.busError).coef = s.coef := rfl
@[simp] theorem busError_qblk (s : State) : (s.busError).qblk = s.qblk := rfl
@[simp] theorem busError_op (s : State) : (s.busError).op = s.op := rfl
@[simp] theorem busError_turns (s : State) : (s.busError).turns = s.turns := rfl
@[simp] theorem busError_resp (s : State) : (s.busError).resp = some ⟨0, true⟩ := rfl
@[simp] theorem busError_draws (s : State) : (s.busError).draws = s.draws := rfl

/-! STATUS -/

@[simp] theorem status_complete_busy (st : Status) (e : Option ErrorCode) : (st.complete e).busy = false := by
  cases e <;> rfl
@[simp] theorem status_complete_done (st : Status) (e : Option ErrorCode) : (st.complete e).done = true := by
  cases e <;> rfl
@[simp] theorem status_complete_cmddrop (st : Status) (e : Option ErrorCode) : (st.complete e).cmddrop = st.cmddrop := by
  cases e <;> rfl
@[simp] theorem status_complete_lastop (st : Status) (e : Option ErrorCode) : (st.complete e).lastop = st.lastop := by
  cases e <;> rfl
@[simp] theorem status_complete_err (st : Status) (e : Option ErrorCode) : (st.complete e).err = (st.err || e.isSome) := by
  cases e <;> simp [Status.complete]
@[simp] theorem status_accept_busy (st : Status) (opc : Byte) : (st.accept opc).busy = true := rfl
@[simp] theorem status_accept_done (st : Status) (opc : Byte) : (st.accept opc).done = false := rfl
@[simp] theorem status_accept_err (st : Status) (opc : Byte) : (st.accept opc).err = st.err := rfl
@[simp] theorem status_accept_errcode (st : Status) (opc : Byte) : (st.accept opc).errcode = st.errcode := rfl
@[simp] theorem status_accept_cmddrop (st : Status) (opc : Byte) : (st.accept opc).cmddrop = st.cmddrop := rfl
@[simp] theorem status_accept_lastop (st : Status) (opc : Byte) : (st.accept opc).lastop = opc := rfl

end Sys2Proof.Machine
end

