-- ==== Sys2Proof/Laws/Tab.lean ====
section
/-! SUPPORT. The laws of fixed-size tables: reading what was built or written. -/

namespace Sys2Proof.Tab

variable {α : Type} {n : Nat}

@[simp] theorem get_ofFn (f : Fin n → α) (i : Fin n) : (ofFn f).get i = f i := by
  simp [get, ofFn]

@[simp] theorem get_fill (v : α) (i : Fin n) : (fill n v).get i = v := by
  simp [get, fill]

@[simp] theorem get_set_same (t : Tab α n) (i : Fin n) (v : α) : (t.set i v).get i = v := by
  simp [get, set]

theorem get_set_of_ne (t : Tab α n) {i j : Fin n} (h : i ≠ j) (v : α) : (t.set i v).get j = t.get j := by
  have h' : i.val ≠ j.val := fun e => h (Fin.ext e)
  simp [get, set, h']

theorem get_set (t : Tab α n) (i j : Fin n) (v : α) : (t.set i v).get j = if i = j then v else t.get j := by
  split
  · next h => subst h; exact get_set_same t i v
  · next h => exact get_set_of_ne t h v

theorem ext_get {t u : Tab α n} (h : ∀ i, t.get i = u.get i) : t = u := by
  obtain ⟨l, hl⟩ := t
  obtain ⟨m, hm⟩ := u
  have : l = m := by
    apply List.ext_getElem (hl.trans hm.symm)
    intro k h1 h2
    simpa [get] using h ⟨k, hl ▸ h1⟩
  subst this
  rfl

theorem all_cells (t : Tab α n) (p : α → Bool) : t.cells.all p = true ↔ ∀ i, p (t.get i) = true := by
  rw [List.all_eq_true]
  constructor
  · intro h i
    exact h _ (List.getElem_mem _)
  · intro h x hx
    obtain ⟨k, hk, rfl⟩ := List.mem_iff_getElem.mp hx
    simpa [get] using h ⟨k, t.size_eq ▸ hk⟩

theorem any_cells (t : Tab α n) (p : α → Bool) : t.cells.any p = true ↔ ∃ i, p (t.get i) = true := by
  rw [List.any_eq_true]
  constructor
  · rintro ⟨x, hx, hp⟩
    obtain ⟨k, hk, rfl⟩ := List.mem_iff_getElem.mp hx
    exact ⟨⟨k, t.size_eq ▸ hk⟩, by simpa [get] using hp⟩
  · rintro ⟨i, hp⟩
    exact ⟨_, List.getElem_mem _, hp⟩

end Sys2Proof.Tab
end

