-- ==== Sys2Proof/Laws/Memory.lean ====
section
/-! SUPPORT. The laws of DMEM: reading what was written, and the canonical form that every write keeps. -/

namespace Sys2Proof.Machine

namespace Memory

theorem get?_put (m : Memory) (a b : Nat) (v : Byte) : (m.put a v).get? b = if a = b then some v else m.get? b := by
  induction m with
  | nil => simp [put, get?]
  | cons c rest ih =>
    obtain ⟨k, w⟩ := c
    unfold put
    split
    · next h1 =>
      simp only [get?, ih]
      split <;> split <;> first | rfl | omega
    · next h1 =>
      split
      · next h2 =>
        subst h2
        simp only [get?]
        split <;> rfl
      · next h2 => simp only [get?]

theorem rising_mono {size low low' : Nat} {m : Memory} (h : low' ≤ low) (hm : rising size low m = true) :
    rising size low' m = true := by
  cases m with
  | nil => rfl
  | cons c rest =>
    simp only [rising, Bool.and_eq_true, decide_eq_true_eq] at hm ⊢
    exact ⟨⟨by omega, hm.1.2⟩, hm.2⟩

theorem rising_put {size low a : Nat} {m : Memory} (v : Byte) (hl : low ≤ a) (ha : a < size)
    (hm : rising size low m = true) : rising size low (m.put a v) = true := by
  induction m generalizing low with
  | nil => simp [put, rising, hl, ha]
  | cons c rest ih =>
    obtain ⟨k, w⟩ := c
    simp only [rising, Bool.and_eq_true, decide_eq_true_eq] at hm
    unfold put
    split
    · next h =>
      simp only [rising, Bool.and_eq_true, decide_eq_true_eq]
      exact ⟨hm.1, ih (by omega) hm.2⟩
    · next h =>
      split
      · next h2 =>
        subst h2
        simp only [rising, Bool.and_eq_true, decide_eq_true_eq]
        exact hm
      · next h2 =>
        simp only [rising, Bool.and_eq_true, decide_eq_true_eq]
        exact ⟨⟨hl, ha⟩, ⟨by omega, hm.1.2⟩, hm.2⟩

/-- A write of an existing byte keeps the canonical form. -/
theorem wf_put {size a : Nat} {m : Memory} (v : Byte) (ha : a < size) (hm : wf size m = true) : wf size (m.put a v) = true :=
  rising_put v (Nat.zero_le a) ha hm

/-- Nothing written is canonical: reset's memory has the form. -/
theorem wf_nil (size : Nat) : wf size [] = true := rfl

/-- Every listed address is at least the lower bound of the rising list. -/
theorem get?_of_lt {size low a : Nat} {m : Memory} (hm : rising size low m = true) (h : a < low) : m.get? a = none := by
  induction m generalizing low with
  | nil => rfl
  | cons c rest ih =>
    obtain ⟨k, w⟩ := c
    simp only [rising, Bool.and_eq_true, decide_eq_true_eq] at hm
    have : k ≠ a := by omega
    simp [get?, this, ih hm.2 (by omega)]

/-- Equal memories are equal data: two canonical lists that hold the same at every address are the same list. -/
theorem ext_of_rising {size low : Nat} {m m' : Memory} (hm : rising size low m = true) (hm' : rising size low m' = true)
    (h : ∀ a, m.get? a = m'.get? a) : m = m' := by
  induction m generalizing m' low with
  | nil =>
    cases m' with
    | nil => rfl
    | cons c rest => simpa [get?] using h c.1
  | cons c rest ih =>
    cases m' with
    | nil => simpa [get?] using h c.1
    | cons c' rest' =>
      obtain ⟨k, w⟩ := c
      obtain ⟨k', w'⟩ := c'
      simp only [rising, Bool.and_eq_true, decide_eq_true_eq] at hm hm'
      have hk := h k
      have hk' := h k'
      have e : k = k' := by
        rcases Nat.lt_trichotomy k k' with hlt | he | hgt
        · have : k' ≠ k := by omega
          simp [get?, this, get?_of_lt hm'.2 (show k < k' + 1 by omega)] at hk
        · exact he
        · have : k ≠ k' := by omega
          simp [get?, this, get?_of_lt hm.2 (show k' < k + 1 by omega)] at hk'
      subst e
      have ew : w = w' := by simpa [get?] using hk
      subst ew
      congr 1
      apply ih hm.2 hm'.2
      intro a
      by_cases ha : k = a
      · subst ha
        rw [get?_of_lt hm.2 (by omega), get?_of_lt hm'.2 (by omega)]
      · simpa [get?, ha] using h a

end Memory

theorem readByte_writeByte (s : State) (a b : Nat) (v : Byte) :
    (s.writeByte a v).readByte b = if a = b then v else s.readByte b := by
  simp only [State.readByte, writeByte_mem, Memory.get?_put]
  split <;> rfl

@[simp] theorem readByte_writeByte_same (s : State) (a : Nat) (v : Byte) : (s.writeByte a v).readByte a = v := by
  simp [readByte_writeByte]

theorem readByte_writeByte_of_ne (s : State) {a b : Nat} (h : a ≠ b) (v : Byte) :
    (s.writeByte a v).readByte b = s.readByte b := by
  simp [readByte_writeByte, h]

/-- A read depends on the memory alone. -/
theorem readByte_congr {s t : State} (h : s.mem = t.mem) (a : Nat) : s.readByte a = t.readByte a := by
  simp [State.readByte, h]

@[simp] theorem complete_readByte (s : State) (e : Option ErrorCode) (a : Nat) : (s.complete e).readByte a = s.readByte a := rfl

/-! ### Writing a table of bytes -/

theorem foldl_writeByte_mem_only {n : Nat} (addr : Fin n → Nat) (v : Tab Byte n) (l : List (Fin n)) (s : State) :
    l.foldl (fun s i => s.writeByte (addr i) (v.get i)) s
      = { s with mem := (l.foldl (fun s i => s.writeByte (addr i) (v.get i)) s).mem } := by
  induction l generalizing s with
  | nil => rfl
  | cons i rest ih => rw [List.foldl_cons, ih]; rfl

/-- `writeCells` changes nothing but DMEM. -/
theorem writeCells_mem_only (s : State) {n : Nat} (addr : Fin n → Nat) (v : Tab Byte n) :
    s.writeCells addr v = { s with mem := (s.writeCells addr v).mem } := foldl_writeByte_mem_only addr v _ s

theorem foldl_writeByte_of_ne {n : Nat} (addr : Fin n → Nat) (v : Tab Byte n) (l : List (Fin n)) (s : State) (a : Nat)
    (h : ∀ i ∈ l, addr i ≠ a) : (l.foldl (fun s i => s.writeByte (addr i) (v.get i)) s).readByte a = s.readByte a := by
  induction l generalizing s with
  | nil => rfl
  | cons i rest ih =>
    rw [List.foldl_cons, ih _ (fun j hj => h j (List.mem_cons_of_mem _ hj)),
      readByte_writeByte_of_ne _ (h i List.mem_cons_self)]

/-- `writeCells` leaves every address that is no cell's as it was. -/
theorem readByte_writeCells_of_ne (s : State) {n : Nat} (addr : Fin n → Nat) (v : Tab Byte n) (a : Nat)
    (h : ∀ i, addr i ≠ a) : (s.writeCells addr v).readByte a = s.readByte a :=
  foldl_writeByte_of_ne addr v _ s a fun i _ => h i

theorem foldl_writeByte_last {n : Nat} (addr : Fin n → Nat) (v : Tab Byte n) (l : List (Fin n)) (s : State) (i : Fin n)
    (hs : l.Pairwise (· < ·)) (hi : i ∈ l) (h : ∀ j ∈ l, i < j → addr j ≠ addr i) :
    (l.foldl (fun s i => s.writeByte (addr i) (v.get i)) s).readByte (addr i) = v.get i := by
  induction l generalizing s with
  | nil => simp at hi
  | cons k rest ih =>
    rw [List.foldl_cons]
    rw [List.pairwise_cons] at hs
    rcases List.mem_cons.mp hi with he | hm
    · subst he
      rw [foldl_writeByte_of_ne]
      · simp
      · intro j hj
        exact h j (List.mem_cons_of_mem _ hj) (hs.1 j hj)
    · exact ih _ hs.2 hm fun j hj => h j (List.mem_cons_of_mem _ hj)

/-- The last cell that falls on an address is the byte found there. -/
theorem readByte_writeCells_last (s : State) {n : Nat} (addr : Fin n → Nat) (v : Tab Byte n) (i : Fin n)
    (h : ∀ j, i < j → addr j ≠ addr i) : (s.writeCells addr v).readByte (addr i) = v.get i :=
  foldl_writeByte_last addr v _ s i (List.pairwise_lt_finRange n) (List.mem_finRange i) fun j _ => h j

theorem foldl_writeByte_wf {size n : Nat} (addr : Fin n → Nat) (v : Tab Byte n) (l : List (Fin n)) (s : State)
    (h : ∀ i, addr i < size) (hm : Memory.wf size s.mem = true) :
    Memory.wf size (l.foldl (fun s i => s.writeByte (addr i) (v.get i)) s).mem = true := by
  induction l generalizing s with
  | nil => exact hm
  | cons i rest ih => exact ih _ (Memory.wf_put _ (h i) hm)

/-- `writeCells` within DMEM keeps the canonical form. -/
theorem wf_writeCells {size n : Nat} (s : State) (addr : Fin n → Nat) (v : Tab Byte n) (h : ∀ i, addr i < size)
    (hm : Memory.wf size s.mem = true) : Memory.wf size (s.writeCells addr v).mem = true :=
  foldl_writeByte_wf addr v _ s h hm

/-- The memory after reset is canonical. -/
theorem wf_reset : Memory.wf State.reset.params.dmemSize State.reset.mem = true := rfl

end Sys2Proof.Machine
end

