-- ==== Sys2Proof/Laws/Ops.lean ====
section
/-! SUPPORT. What the shared operations say: range checks as arithmetic, completion, and the two agents' bookkeeping. -/

namespace Sys2Proof.Machine

theorem inRange_iff (size a n : Nat) : inRange size a n = true ↔ a + n ≤ size := by simp [inRange]

theorem state_inRange_iff (s : State) (a n : Nat) : s.inRange a n = true ↔ a + n ≤ s.params.dmemSize := inRange_iff _ _ _

theorem rowOf_cellIx (r c : Fin 8) : rowOf (cellIx r c) = r := by
  apply Fin.ext; simp only [rowOf, cellIx]; omega

theorem colOf_cellIx (r c : Fin 8) : colOf (cellIx r c) = c := by
  apply Fin.ext; simp only [colOf, cellIx]; omega

theorem cellIx_rowOf_colOf (i : Fin 64) : cellIx (rowOf i) (colOf i) = i := by
  apply Fin.ext; simp only [rowOf, colOf, cellIx]; omega

theorem blockAddr_cellIx (base stride : Nat) (r c : Fin 8) :
    blockAddr base stride (cellIx r c) = base + r.val * stride + c.val := by
  rw [blockAddr, rowOf_cellIx, colOf_cellIx]

/-- The block check holds exactly when every cell's address exists. -/
theorem blockInRange_iff (size base stride : Nat) :
    blockInRange size base stride = true ↔ ∀ i, blockAddr base stride i < size := by
  simp [blockInRange, inRange_iff]

theorem blockInRange_iff_cells (size base stride : Nat) :
    blockInRange size base stride = true ↔ ∀ r c : Fin 8, base + r.val * stride + c.val < size := by
  rw [blockInRange_iff]
  constructor
  · intro h r c
    simpa [blockAddr_cellIx] using h (cellIx r c)
  · intro h i
    exact h (rowOf i) (colOf i)

/-- The latched-stride form of the block check. -/
theorem state_blockInRange_iff (s : State) (base : Nat) :
    s.blockInRange base = true ↔ ∀ i, blockAddr base s.opStride i < s.params.dmemSize := blockInRange_iff _ _ _

/-! ### Completion -/

/-- Every engine step of a legal word answers a next state: the rule's state, completed with the rule's error. -/
theorem finish_eq (r : Ran) : r.finish = .next (r.state.complete r.error) := rfl

theorem finish_next_iff (r : Ran) (t : State) : r.finish = .next t ↔ t = r.state.complete r.error := by
  simp only [Ran.finish, Host.Outcome.next.injEq, eq_comm]

@[simp] theorem ok_state (s : State) : s.ok.state = s := rfl
@[simp] theorem ok_error (s : State) : s.ok.error = none := rfl
@[simp] theorem raised_state (s : State) (e : ErrorCode) : (s.raised e).state = s := rfl
@[simp] theorem raised_error (s : State) (e : ErrorCode) : (s.raised e).error = some e := rfl

/-- Everything completion can do (60_exceptions.md R502): it touches STATUS alone, and there BUSY, DONE and, with an error, ERR and
the first ERRCODE. -/
theorem complete_cases (s : State) (e : Option ErrorCode) :
    (e = none ∧ s.complete e = { s with status := { s.status with busy := false, done := true } }) ∨
    (∃ c, e = some c ∧ s.complete e = { s with
      status := { s.status with
        busy := false
        done := true
        errcode := if s.status.err then s.status.errcode else c.code
        err := true } }) := by
  cases e with
  | none => exact .inl ⟨rfl, rfl⟩
  | some c => exact .inr ⟨c, rfl, rfl⟩

/-- The error codes are 0x01 to 0x0C (R511). -/
theorem code_range (e : ErrorCode) : 1 ≤ e.code.toNat ∧ e.code.toNat ≤ 12 := by cases e <;> decide

/-- Two errors have two codes (R511). -/
theorem code_injective {a b : ErrorCode} (h : a.code = b.code) : a = b := by
  cases a <;> cases b <;> first | rfl | exact absurd h (by decide)

/-- Completion keeps the legality of STATUS. -/
theorem status_complete_legal_code (st : Status) (e : Option ErrorCode) (h0 : st.err = false → st.errcode = 0)
    (h1 : st.err = true → 1 ≤ st.errcode.toNat ∧ st.errcode.toNat ≤ 12) :
    ((st.complete e).err = false → (st.complete e).errcode = 0) ∧
    ((st.complete e).err = true → 1 ≤ (st.complete e).errcode.toNat ∧ (st.complete e).errcode.toNat ≤ 12) := by
  cases e with
  | none => exact ⟨h0, h1⟩
  | some c =>
    refine ⟨by simp [Status.complete], fun _ => ?_⟩
    simp only [Status.complete]
    split
    · next h => exact h1 h
    · exact code_range c

/-! ### Soft reset -/

@[simp] theorem softReset_mem (s : State) : s.softReset.mem = s.mem := rfl
@[simp] theorem softReset_params (s : State) : s.softReset.params = s.params := rfl
@[simp] theorem softReset_turns (s : State) : s.softReset.turns = s.turns := rfl
@[simp] theorem softReset_draws (s : State) : s.softReset.draws = s.draws := rfl
@[simp] theorem softReset_status (s : State) : s.softReset.status = Status.reset := rfl

/-! ### What a rule leaves alone -/

/-- `t` differs from `s` at most in DMEM and the bit buffer. -/
def OnlyStream (s t : State) : Prop := t = { s with mem := t.mem, bb := t.bb }

theorem OnlyStream.rfl (s : State) : OnlyStream s s := by cases s; exact Eq.refl _

theorem OnlyStream.trans {s t u : State} (h1 : OnlyStream s t) (h2 : OnlyStream t u) : OnlyStream s u := by
  unfold OnlyStream at *
  rw [h2, h1]

end Sys2Proof.Machine
end

