-- ==== Sys2Proof/Laws/BitBuffer.lean ====
section
/-! SUPPORT. What an append does: it touches only the bit buffer and DMEM, counts its bits and its bytes, and fails before any
effect (44_bitbuffer.md R403). -/

namespace Sys2Proof.Machine

theorem pushBit_onlyStream (s : State) (b : Bool) : OnlyStream s (pushBit s b) := by
  unfold OnlyStream pushBit
  split <;> rfl

theorem pushBits_onlyStream (s : State) (bits : Word) (l : Nat) : OnlyStream s (pushBits s bits l) := by
  induction l generalizing s with
  | zero => exact OnlyStream.rfl s
  | succ j ih => exact (pushBit_onlyStream s _).trans (ih _)

@[simp] theorem pushBit_limit (s : State) (b : Bool) : (pushBit s b).bb.limit = s.bb.limit := by
  unfold pushBit; split <;> rfl

@[simp] theorem pushBit_tot (s : State) (b : Bool) : (pushBit s b).bb.tot = s.bb.tot + 1 := by
  unfold pushBit; split <;> rfl

theorem pushBit_nbits (s : State) (b : Bool) : (pushBit s b).bb.nbits.val = (s.bb.nbits.val + 1) % 8 := by
  unfold pushBit
  split
  · next h => simp [Nat.mod_eq_of_lt h]
  · next h =>
    have : s.bb.nbits.val + 1 = 8 := by omega
    simp [this]

theorem pushBit_outcnt (s : State) (b : Bool) :
    (pushBit s b).bb.outcnt = s.bb.outcnt + BitVec.ofNat 32 ((s.bb.nbits.val + 1) / 8) := by
  unfold pushBit
  split
  · next h =>
    have : (s.bb.nbits.val + 1) / 8 = 0 := by omega
    simp [this]
  · next h =>
    have : (s.bb.nbits.val + 1) / 8 = 1 := by omega
    simp [this]

theorem pushBit_outptr (s : State) (b : Bool) :
    (pushBit s b).bb.outptr = s.bb.outptr + BitVec.ofNat 32 ((s.bb.nbits.val + 1) / 8) := by
  unfold pushBit
  split
  · next h =>
    have : (s.bb.nbits.val + 1) / 8 = 0 := by omega
    simp [this]
  · next h =>
    have : (s.bb.nbits.val + 1) / 8 = 1 := by omega
    simp [this]

theorem ofNat_add_ofNat (x : Word) (a b : Nat) : x + BitVec.ofNat 32 a + BitVec.ofNat 32 b = x + BitVec.ofNat 32 (a + b) := by
  rw [BitVec.add_assoc, BitVec.ofNat_add]

/-- How far an append of `l` bits moves the stream. -/
theorem pushBits_counts (s : State) (bits : Word) (l : Nat) :
    (pushBits s bits l).bb.limit = s.bb.limit ∧
    (pushBits s bits l).bb.tot = s.bb.tot + BitVec.ofNat 64 l ∧
    (pushBits s bits l).bb.nbits.val = (s.bb.nbits.val + l) % 8 ∧
    (pushBits s bits l).bb.outcnt = s.bb.outcnt + BitVec.ofNat 32 ((s.bb.nbits.val + l) / 8) ∧
    (pushBits s bits l).bb.outptr = s.bb.outptr + BitVec.ofNat 32 ((s.bb.nbits.val + l) / 8) := by
  induction l generalizing s with
  | zero =>
    have h : s.bb.nbits.val < 8 := s.bb.nbits.isLt
    have h0 : s.bb.nbits.val / 8 = 0 := by omega
    simp [pushBits, Nat.mod_eq_of_lt h, h0]
  | succ j ih =>
    obtain ⟨h1, h2, h3, h4, h5⟩ := ih (pushBit s (bits.getLsbD j))
    have e : (s.bb.nbits.val + (j + 1)) / 8 = (s.bb.nbits.val + 1) / 8 + ((s.bb.nbits.val + 1) % 8 + j) / 8 := by omega
    simp only [pushBits]
    refine ⟨by rw [h1, pushBit_limit], ?_, ?_, ?_, ?_⟩
    · rw [h2, pushBit_tot, BitVec.add_assoc, Nat.add_comm j 1, BitVec.ofNat_add]; rfl
    · rw [h3, pushBit_nbits]; omega
    · rw [h4, pushBit_nbits, pushBit_outcnt, ofNat_add_ofNat, e]
    · rw [h5, pushBit_nbits, pushBit_outptr, ofNat_add_ofNat, e]

/-- The carried bits still fit: ACC < 2^NBITS. -/
theorem pushBit_acc_lt (s : State) (b : Bool) (h : s.bb.acc.toNat < 2 ^ s.bb.nbits.val) :
    (pushBit s b).bb.acc.toNat < 2 ^ (pushBit s b).bb.nbits.val := by
  unfold pushBit
  split
  · next h8 =>
    have hb : ((BitVec.ofBool b).zeroExtend 8).toNat < 2 := by cases b <;> decide
    have hp : 2 ^ s.bb.nbits.val ≤ 2 ^ 6 := Nat.pow_le_pow_right (by decide) (by omega)
    have h2 : (s.bb.acc <<< 1).toNat = 2 * s.bb.acc.toNat := by
      rw [BitVec.toNat_shiftLeft, Nat.shiftLeft_eq]; omega
    simp only [BitVec.toNat_or, h2]
    apply Nat.or_lt_two_pow
    · rw [Nat.pow_succ]; omega
    · exact Nat.lt_of_lt_of_le hb (by rw [Nat.pow_succ]; have := Nat.one_le_two_pow (n := s.bb.nbits.val); omega)
  · simp

theorem pushBits_acc_lt (s : State) (bits : Word) (l : Nat) (h : s.bb.acc.toNat < 2 ^ s.bb.nbits.val) :
    (pushBits s bits l).bb.acc.toNat < 2 ^ (pushBits s bits l).bb.nbits.val := by
  induction l generalizing s with
  | zero => exact h
  | succ j ih => exact ih _ (pushBit_acc_lt s _ h)

/-- Everything an append can do (R403): fail on the capacity, fail on the range, or push its bits. -/
theorem append_cases (s : State) (bits : Word) (l : Nat) :
    (s.bb.limit.toNat < s.bb.outcnt.toNat + bytesCompleted s l ∧ append s bits l = s.raised .overrun) ∨
    (s.bb.outcnt.toNat + bytesCompleted s l ≤ s.bb.limit.toNat ∧
      s.params.dmemSize < s.bb.outptr.toNat + bytesCompleted s l ∧ append s bits l = s.raised .addr) ∨
    (s.bb.outcnt.toNat + bytesCompleted s l ≤ s.bb.limit.toNat ∧
      s.bb.outptr.toNat + bytesCompleted s l ≤ s.params.dmemSize ∧ append s bits l = (pushBits s bits l).ok) := by
  unfold append
  split
  · next h => exact .inl ⟨h, rfl⟩
  · next h =>
    split
    · next h2 =>
      refine .inr (.inl ⟨by omega, ?_, rfl⟩)
      simp only [Bool.not_eq_true', ← Bool.not_eq_true, state_inRange_iff] at h2
      omega
    · next h2 =>
      refine .inr (.inr ⟨by omega, ?_, rfl⟩)
      simpa [state_inRange_iff] using h2

theorem append_onlyStream (s : State) (bits : Word) (l : Nat) : OnlyStream s (append s bits l).state := by
  rcases append_cases s bits l with ⟨-, h⟩ | ⟨-, -, h⟩ | ⟨-, -, h⟩ <;> rw [h]
  · exact OnlyStream.rfl s
  · exact OnlyStream.rfl s
  · exact pushBits_onlyStream s bits l

end Sys2Proof.Machine
end

