-- ==== Sys2Proof/Laws/Huffman.lean ====
section
/-! SUPPORT. What the loops of ENCODE and DECODE leave alone, and the small equations of the code table. -/

namespace Sys2Proof.Machine

/-- `t` differs from `s` at most in DMEM, the bit buffer and ENC_POS. -/
def OnlyEncode (s t : State) : Prop := t = { s with mem := t.mem, bb := t.bb, encPos := t.encPos }

theorem OnlyEncode.trans {s t u : State} (h1 : OnlyEncode s t) (h2 : OnlyEncode t u) : OnlyEncode s u := by
  unfold OnlyEncode at *
  rw [h2, h1]

theorem OnlyStream.onlyEncode {s t : State} (h : OnlyStream s t) : OnlyEncode s t := by
  unfold OnlyStream at h
  unfold OnlyEncode
  rw [h]

/-- ENCODE's loop touches DMEM, the bit buffer and ENC_POS alone (43_huffman.md R335). -/
theorem encodeLoop_onlyEncode (s : State) (n i : Nat) : OnlyEncode s (encodeLoop s n i).state := by
  induction n generalizing s i with
  | zero => exact Eq.refl _
  | succ n ih =>
    have h0 : OnlyEncode s { s with encPos := BitVec.ofNat 32 i } := Eq.refl _
    simp only [encodeLoop]
    split
    · exact h0
    · split
      · exact h0
      · split
        · exact h0.trans (append_onlyStream _ _ _).onlyEncode
        · exact (h0.trans (append_onlyStream _ _ _).onlyEncode).trans (ih _ _)

/-- DECODE's loop touches DMEM, DEC_OUTLEN and DEC_BITPOS alone (R337). -/
theorem decodeLoop_frame (s : State) (rem k p l n : Nat) :
    (decodeLoop s rem k p l n).state = { s with
      mem := (decodeLoop s rem k p l n).state.mem
      decOutlen := (decodeLoop s rem k p l n).state.decOutlen
      decBitpos := (decodeLoop s rem k p l n).state.decBitpos } := by
  induction rem generalizing s k p l n with
  | zero => simp only [decodeLoop]; split <;> rfl
  | succ rem ih =>
    simp only [decodeLoop]
    split
    · split
      · rfl
      · split
        · rfl
        · rw [ih]; rfl
    · split
      · rfl
      · rw [ih]

@[simp] theorem codeTable_get (cs : List Assigned) (s : Fin 256) :
    (codeTable cs).get s =
      match cs.find? (fun c => c.sym == s) with
      | some c => ⟨BitVec.ofNat 32 c.bits, BitVec.ofNat 6 c.len⟩
      | none => ⟨0, 0⟩ := Tab.get_ofFn _ _

/-- A found match is a present entry with that key (R336). -/
theorem matchCode_some {c : Tab CodeEntry 256} {p l : Nat} {s : Fin 256} (h : matchCode c p l = some s) :
    (c.get s).len ≠ 0 ∧ (c.get s).key = (p, l) := by
  have := List.find?_some h
  simpa using this

/-- No match: no present entry has that key (R336). -/
theorem matchCode_none {c : Tab CodeEntry 256} {p l : Nat} (h : matchCode c p l = none) (s : Fin 256) :
    (c.get s).len = 0 ∨ (c.get s).key ≠ (p, l) := by
  have := List.find?_eq_none.mp h s (List.mem_finRange s)
  by_contra hc
  push Not at hc
  simp [hc.2] at this
  exact hc.1 this

/-- `takeMin` removes one member: what it takes and what it leaves are the members it was given. -/
theorem takeMin_perm (m : QNode) (q : List QNode) : ((takeMin m q).1 :: (takeMin m q).2).Perm (m :: q) := by
  induction q generalizing m with
  | nil => exact List.Perm.refl _
  | cons x rest ih =>
    simp only [takeMin]
    split
    · exact ((List.Perm.swap m _ _).trans ((ih x).cons m))
    · exact ((List.Perm.swap x _ _).trans ((ih m).cons x)).trans (List.Perm.swap m x rest)

theorem takeMin_length (m : QNode) (q : List QNode) : (takeMin m q).2.length = q.length := by
  have := (takeMin_perm m q).length_eq
  simpa using this

end Sys2Proof.Machine
end

