-- ==== Sys2Proof/Laws/PerInstr.lean ====
section
/-! SUPPORT. One lemma per command about its word: it has a defined opcode and a zero reserved field (30_encoding.md R150, R154). -/

namespace Sys2Proof.Laws.LegalWord

/-- The command's word is none of the illegal words of R154. -/
def Statement (i : Instr) : Prop := (opcField (encode i)).toNat ≤ 0x12 ∧ rsvField (encode i) = 0

theorem nop : Statement .nop := ⟨by decide, by decide⟩
theorem qmset : Statement .qmset := ⟨by decide, by decide⟩
theorem fdct : Statement .fdct := ⟨by decide, by decide⟩
theorem idct : Statement .idct := ⟨by decide, by decide⟩
theorem recon : Statement .recon := ⟨by decide, by decide⟩
theorem quant : Statement .quant := ⟨by decide, by decide⟩
theorem dequant : Statement .dequant := ⟨by decide, by decide⟩
theorem zzscan : Statement .zzscan := ⟨by decide, by decide⟩
theorem zzunscan : Statement .zzunscan := ⟨by decide, by decide⟩
theorem freqclr : Statement .freqclr := ⟨by decide, by decide⟩
theorem freqacc : Statement .freqacc := ⟨by decide, by decide⟩
theorem treebuild : Statement .treebuild := ⟨by decide, by decide⟩
theorem bbreset : Statement .bbreset := ⟨by decide, by decide⟩
theorem bbput : Statement .bbput := ⟨by decide, by decide⟩
theorem bbflush : Statement .bbflush := ⟨by decide, by decide⟩
theorem encode : Statement .encode := ⟨by decide, by decide⟩
theorem decode : Statement .decode := ⟨by decide, by decide⟩
theorem blkenc : Statement .blkenc := ⟨by decide, by decide⟩
theorem blkdec : Statement .blkdec := ⟨by decide, by decide⟩

end Sys2Proof.Laws.LegalWord
end

