-- ==== Sys2Proof/Laws/Step.lean ====
section
/-! SUPPORT. Everything a step can do. -/

namespace Sys2Proof.Machine

/-- Every command, in every state, answers a next state that a completion ended (60_exceptions.md R500, R502). -/
theorem exec_completes (i : Instr) (s : State) : ∃ r : Ran, exec i s = .next (r.state.complete r.error) := by
  cases i <;> exact ⟨_, rfl⟩

/-- The engine's turn: idle, a command, or an illegal word. -/
theorem engineTurn_cases (s : State) :
    (s.status.busy = false ∧ engineTurn s = .next s) ∨
    (∃ i, s.status.busy = true ∧ decode s.op.word = .ok i ∧ engineTurn s = exec i s) ∨
    (∃ e, s.status.busy = true ∧ decode s.op.word = .error e ∧
      engineTurn s = .next (s.complete (some .illegalCmd))) := by
  unfold engineTurn
  split
  · next hb =>
    split
    · next i hd => exact .inr (.inl ⟨i, hb, hd, rfl⟩)
    · next e hd => exact .inr (.inr ⟨e, hb, hd, rfl⟩)
  · next hb => exact .inl ⟨by simpa using hb, rfl⟩

/-- One step is one turn: the engine's, where the list is empty or says so, else the host's. -/
theorem step_cases (s : State) :
    (s.turns = [] ∧ step s = engineTurn s) ∨
    (∃ rest, s.turns = .engine :: rest ∧ step s = engineTurn { s with turns := rest }) ∨
    (∃ o rest, s.turns = .host o :: rest ∧ step s = hostTurn { s with turns := rest } o) := by
  unfold step takeTurn
  split
  · next h => exact .inl ⟨h, rfl⟩
  · next rest h => exact .inr (.inl ⟨rest, h, rfl⟩)
  · next o rest h => exact .inr (.inr ⟨o, rest, h, rfl⟩)

/-- A host read of a register changes only the response and the draws (20_memory.md R109). -/
theorem hostRegRead_frame (s : State) (off size : Nat) :
    hostRegRead s off size = { s with resp := (hostRegRead s off size).resp, draws := (hostRegRead s off size).draws } := by
  unfold hostRegRead
  split
  · rfl
  · split <;> rfl

/-- A host read of DMEM changes only the response and the draws (R109). -/
theorem hostMemRead_frame (s : State) (a size : Nat) :
    hostMemRead s a size = { s with resp := (hostMemRead s a size).resp, draws := (hostMemRead s a size).draws } := by
  unfold hostMemRead
  split <;> rfl

theorem writeWord_mem_only (s : State) (a : Nat) (v : Word) (n : Nat) :
    writeWord s a v n = { s with mem := (writeWord s a v n).mem } := by
  induction n with
  | zero => rfl
  | succ n ih => rw [writeWord, ih]; rfl

/-- The bytes of a memory-port write (R104). -/
theorem readByte_writeWord (s : State) (a : Nat) (v : Word) (n b : Nat) :
    (writeWord s a v n).readByte b = if a ≤ b ∧ b < a + n then byteOf v (b - a) else s.readByte b := by
  induction n with
  | zero =>
    have : ¬ (a ≤ b ∧ b < a + 0) := by omega
    rw [if_neg this]; rfl
  | succ n ih =>
    rw [writeWord, readByte_writeByte, ih]
    by_cases h : a + n = b
    · have h1 : a ≤ b ∧ b < a + (n + 1) := by omega
      have h2 : b - a = n := by omega
      rw [if_pos h, if_pos h1, h2]
    · rw [if_neg h]
      by_cases h1 : a ≤ b ∧ b < a + n
      · have h2 : a ≤ b ∧ b < a + (n + 1) := by omega
        rw [if_pos h1, if_pos h2]
      · have h2 : ¬ (a ≤ b ∧ b < a + (n + 1)) := by omega
        rw [if_neg h1, if_neg h2]

/-- Everything a register-port write can do (R100, R620). -/
theorem hostRegWrite_cases (s : State) (off size : Nat) (v : Word) :
    (regAccessOk off size = false ∧ hostRegWrite s off size v = .next s.busError) ∨
    (∃ f, regAccessOk off size = true ∧ s.status.busy = true ∧ regWriteHazard v (regAt off) = some f ∧
      hostRegWrite s off size v = .fault f) ∨
    (regAccessOk off size = true ∧ (s.status.busy = true → regWriteHazard v (regAt off) = none) ∧
      hostRegWrite s off size v = .next ((regWrite s v (regAt off)).respond 0)) := by
  unfold hostRegWrite
  by_cases ha : regAccessOk off size = true
  · by_cases hb : s.status.busy = true
    · cases hz : regWriteHazard v (regAt off) with
      | none => exact .inr (.inr ⟨ha, fun _ => rfl, by simp [ha, hb]⟩)
      | some f => exact .inr (.inl ⟨f, ha, hb, rfl, by simp [ha, hb]⟩)
    · exact .inr (.inr ⟨ha, fun h => absurd h hb, by simp [ha, hb]⟩)
  · exact .inl ⟨by simpa using ha, by simp [ha]⟩

end Sys2Proof.Machine
end

