-- ==== Sys2Proof/Laws/Ports.lean ====
section
/-! SUPPORT. The machine's own tables of the ports and of the code table agree with the ones written out in Safety.lean from the spec's
tables. -/

namespace Sys2Proof.Machine

/-! ### Footprints (20_memory.md R112) -/

theorem within_iff (base n a : Nat) : within base n a = true ↔ base ≤ a ∧ a < base + n := by simp [within]

theorem inBlock_iff (s : State) (base a : Nat) :
    inBlock s base a = true ↔ ∃ r c : Fin 8, a = base + r.val * s.opStride + c.val := by
  simp only [inBlock, List.any_eq_true, List.mem_finRange, true_and, beq_iff_eq]
  constructor
  · rintro ⟨i, h⟩
    exact ⟨rowOf i, colOf i, h.symm⟩
  · rintro ⟨r, c, h⟩
    exact ⟨cellIx r c, by rw [blockAddr_cellIx, h]⟩

theorem readsByte_iff (s : State) (a : Nat) (i : Instr) : readsByte s a i = true ↔ FootprintReads s a i := by
  cases i <;> simp only [readsByte, FootprintReads, within_iff, inBlock_iff, Bool.false_eq_true]

theorem writesByte_iff (s : State) (a : Nat) (i : Instr) : writesByte s a i = true ↔ FootprintWrites s a i := by
  cases i <;> simp only [writesByte, FootprintWrites, within_iff, inBlock_iff, Bool.false_eq_true, capacityLeft] <;> omega

theorem pendingHas_iff (s : State) (p : Instr → Bool) : pendingHas s p = true ↔ ∃ i, Pending s i ∧ p i = true := by
  unfold pendingHas Pending
  cases hd : decode s.op.word with
  | ok i => simp
  | error e => simp

theorem inFootprint_iff (s : State) (a : Nat) :
    s.inFootprint a = true ↔ ∃ i, Pending s i ∧ (FootprintReads s a i ∨ FootprintWrites s a i) := by
  simp only [State.inFootprint, pendingHas_iff, Bool.or_eq_true, readsByte_iff, writesByte_iff]

theorem inWriteFootprint_iff (s : State) (a : Nat) :
    s.inWriteFootprint a = true ↔ ∃ i, Pending s i ∧ FootprintWrites s a i := by
  simp only [State.inWriteFootprint, pendingHas_iff, writesByte_iff]

/-! ### The register map (10_state.md §2, §3) and W(op) (70_reset_and_hazards.md R620) -/

theorem regAt_freq (i : Fin 256) : regAt (0x400 + 4 * i.val) = .freq i := by
  have h1 : ¬ 0x400 + 4 * i.val < 0x6C := by omega
  have h2 : ¬ 0x400 + 4 * i.val < 0x400 := by omega
  have h3 : 0x400 + 4 * i.val < 0x800 := by omega
  rw [regAt, if_neg h1, if_neg h2, dif_pos h3]
  exact congrArg Reg.freq (Fin.ext (show (0x400 + 4 * i.val - 0x400) / 4 = i.val by omega))

theorem regAt_codeBits (i : Fin 256) : regAt (0x800 + 8 * i.val) = .codeBits i := by
  have h1 : ¬ 0x800 + 8 * i.val < 0x6C := by omega
  have h2 : ¬ 0x800 + 8 * i.val < 0x400 := by omega
  have h3 : ¬ 0x800 + 8 * i.val < 0x800 := by omega
  have h4 : 0x800 + 8 * i.val < 0x1000 := by omega
  have h5 : (0x800 + 8 * i.val) % 8 = 0 := by omega
  rw [regAt, if_neg h1, if_neg h2, dif_neg h3, dif_pos h4, if_pos h5]
  exact congrArg Reg.codeBits (Fin.ext (show (0x800 + 8 * i.val - 0x800) / 8 = i.val by omega))

theorem regAt_codeLen (i : Fin 256) : regAt (0x804 + 8 * i.val) = .codeLen i := by
  have h1 : ¬ 0x804 + 8 * i.val < 0x6C := by omega
  have h2 : ¬ 0x804 + 8 * i.val < 0x400 := by omega
  have h3 : ¬ 0x804 + 8 * i.val < 0x800 := by omega
  have h4 : 0x804 + 8 * i.val < 0x1000 := by omega
  have h5 : ¬ (0x804 + 8 * i.val) % 8 = 0 := by omega
  rw [regAt, if_neg h1, if_neg h2, dif_neg h3, dif_pos h4, if_neg h5]
  exact congrArg Reg.codeLen (Fin.ext (show (0x804 + 8 * i.val - 0x800) / 8 = i.val by omega))

theorem regAt_qm (i : Fin 64) : regAt (0x1000 + 4 * i.val) = .qm i := by
  have h1 : ¬ 0x1000 + 4 * i.val < 0x6C := by omega
  have h2 : ¬ 0x1000 + 4 * i.val < 0x400 := by omega
  have h3 : ¬ 0x1000 + 4 * i.val < 0x800 := by omega
  have h4 : ¬ 0x1000 + 4 * i.val < 0x1000 := by omega
  have h5 : 0x1000 + 4 * i.val < 0x1100 := by omega
  rw [regAt, if_neg h1, if_neg h2, dif_neg h3, dif_neg h4, dif_pos h5]
  exact congrArg Reg.qm (Fin.ext (show (0x1000 + 4 * i.val - 0x1000) / 4 = i.val by omega))

theorem regAt_coefLo (i : Fin 64) : regAt (0x1100 + 8 * i.val) = .coefLo i := by
  have h1 : ¬ 0x1100 + 8 * i.val < 0x6C := by omega
  have h2 : ¬ 0x1100 + 8 * i.val < 0x400 := by omega
  have h3 : ¬ 0x1100 + 8 * i.val < 0x800 := by omega
  have h4 : ¬ 0x1100 + 8 * i.val < 0x1000 := by omega
  have h5 : ¬ 0x1100 + 8 * i.val < 0x1100 := by omega
  have h6 : 0x1100 + 8 * i.val < 0x1300 := by omega
  have h7 : (0x1100 + 8 * i.val) % 8 = 0 := by omega
  rw [regAt, if_neg h1, if_neg h2, dif_neg h3, dif_neg h4, dif_neg h5, dif_pos h6, if_pos h7]
  exact congrArg Reg.coefLo (Fin.ext (show (0x1100 + 8 * i.val - 0x1100) / 8 = i.val by omega))

theorem regAt_coefHi (i : Fin 64) : regAt (0x1104 + 8 * i.val) = .coefHi i := by
  have h1 : ¬ 0x1104 + 8 * i.val < 0x6C := by omega
  have h2 : ¬ 0x1104 + 8 * i.val < 0x400 := by omega
  have h3 : ¬ 0x1104 + 8 * i.val < 0x800 := by omega
  have h4 : ¬ 0x1104 + 8 * i.val < 0x1000 := by omega
  have h5 : ¬ 0x1104 + 8 * i.val < 0x1100 := by omega
  have h6 : 0x1104 + 8 * i.val < 0x1300 := by omega
  have h7 : ¬ (0x1104 + 8 * i.val) % 8 = 0 := by omega
  rw [regAt, if_neg h1, if_neg h2, dif_neg h3, dif_neg h4, dif_neg h5, dif_pos h6, if_neg h7]
  exact congrArg Reg.coefHi (Fin.ext (show (0x1104 + 8 * i.val - 0x1100) / 8 = i.val by omega))

theorem regAt_qblk (k : Fin 16) : regAt (0x1300 + 4 * k.val) = .qblk k := by
  have h1 : ¬ 0x1300 + 4 * k.val < 0x6C := by omega
  have h2 : ¬ 0x1300 + 4 * k.val < 0x400 := by omega
  have h3 : ¬ 0x1300 + 4 * k.val < 0x800 := by omega
  have h4 : ¬ 0x1300 + 4 * k.val < 0x1000 := by omega
  have h5 : ¬ 0x1300 + 4 * k.val < 0x1100 := by omega
  have h6 : ¬ 0x1300 + 4 * k.val < 0x1300 := by omega
  have h7 : 0x1300 + 4 * k.val < 0x1340 := by omega
  rw [regAt, if_neg h1, if_neg h2, dif_neg h3, dif_neg h4, dif_neg h5, dif_neg h6, dif_pos h7]
  exact congrArg Reg.qblk (Fin.ext (show (0x1300 + 4 * k.val - 0x1300) / 4 = k.val by omega))

theorem stateWord_eq (bb : BitBuffer) : bb.stateWord = BitVec.ofNat 32 (bb.acc.toNat + 256 * bb.nbits.val) := by
  apply BitVec.eq_of_toNat_eq
  have h1 := bb.acc.isLt
  have h2 := bb.nbits.isLt
  rw [BitBuffer.stateWord, BitVec.toNat_append, BitVec.toNat_append, BitVec.toNat_ofNat, BitVec.toNat_ofNat,
    ← Nat.shiftLeft_add_eq_or_of_lt h1, Nat.shiftLeft_eq, Nat.mod_eq_of_lt (show bb.nbits.val < 2 ^ 4 by omega)]
  rw [show (0 : BitVec 20).toNat = 0 from rfl, Nat.zero_mul, Nat.zero_or, Nat.shiftLeft_eq]
  omega

/-- CTRL reads IE in bit 0 (R43). -/
theorem ctrlWord_eq (b : Bool) : (BitVec.ofBool b).zeroExtend 32 = if b then 1 else (0 : Word) := by cases b <;> rfl

/-- Every offset of the register map is one a read may use, and the machine finds the map's value there. -/
theorem registerMap_value (s : State) :
    ∀ p ∈ registerMap s, p.1 % 4 = 0 ∧ p.1 < 0x2000 ∧ regValue s (regAt p.1) = p.2 := by
  simp only [registerMap, List.forall_mem_append, List.forall_mem_cons, List.forall_mem_map, List.not_mem_nil, false_implies,
    implies_true, and_true, List.mem_finRange, forall_const, regAt_freq, regAt_codeBits, regAt_codeLen, regAt_qm, regAt_coefLo,
    regAt_coefHi, regAt_qblk]
  and_intros
  any_goals intro n; exact ⟨by omega, by omega, rfl⟩
  any_goals first | rfl | decide
  · exact ctrlWord_eq s.ie
  · exact stateWord_eq s.bb

/-- A property of every offset that is a multiple of 4 is one of the 27 registers at the bottom, of the reserved offsets, and of each
window's words (10_state.md §2, §3). -/
theorem offset_cases {P : Nat → Prop} (low : ∀ k : Fin 27, P (4 * k.val))
    (reserved : ∀ off, 0x6C ≤ off ∧ off < 0x400 ∨ 0x1340 ≤ off → regAt off = .reserved → P off)
    (freq : ∀ i : Fin 256, P (0x400 + 4 * i.val))
    (codeBits : ∀ i : Fin 256, P (0x800 + 8 * i.val)) (codeLen : ∀ i : Fin 256, P (0x804 + 8 * i.val))
    (qm : ∀ i : Fin 64, P (0x1000 + 4 * i.val))
    (coefLo : ∀ i : Fin 64, P (0x1100 + 8 * i.val)) (coefHi : ∀ i : Fin 64, P (0x1104 + 8 * i.val))
    (qblk : ∀ k : Fin 16, P (0x1300 + 4 * k.val)) (off : Nat) (h4 : off % 4 = 0) : P off := by
  -- `off` is word `n` of a window of `len` words, `step` bytes apart, from `base` up
  have at' {base step len : Nat} (f : ∀ i : Fin len, P (base + step * i.val)) (hb : base ≤ off) (hs : (off - base) % step = 0)
      (hn : (off - base) / step < len) : P off := by
    have e : base + step * ((off - base) / step) = off := by
      rw [Nat.mul_div_cancel' (Nat.dvd_of_mod_eq_zero hs)]; omega
    exact e ▸ f ⟨_, hn⟩
  by_cases h1 : off < 0x6C
  · exact at' (base := 0) (fun k => (congrArg P (Nat.zero_add _)).mpr (low k)) (by omega) (by omega) (by omega)
  by_cases h2 : off < 0x400
  · exact reserved off (.inl ⟨by omega, h2⟩) (by rw [regAt, if_neg h1, if_pos h2])
  by_cases h3 : off < 0x800
  · exact at' freq (by omega) (by omega) (by omega)
  by_cases h5 : off < 0x1000
  · by_cases h : off % 8 = 0
    · exact at' codeBits (by omega) (by omega) (by omega)
    · exact at' codeLen (by omega) (by omega) (by omega)
  by_cases h6 : off < 0x1100
  · exact at' qm (by omega) (by omega) (by omega)
  by_cases h7 : off < 0x1300
  · by_cases h : off % 8 = 0
    · exact at' coefLo (by omega) (by omega) (by omega)
    · exact at' coefHi (by omega) (by omega) (by omega)
  by_cases h8 : off < 0x1340
  · exact at' qblk (by omega) (by omega) (by omega)
  · exact reserved off (.inr (by omega))
      (by rw [regAt, if_neg h1, if_neg h2, dif_neg h3, dif_neg h5, dif_neg h6, dif_neg h7, dif_neg h8])

theorem mayWrite_iff (off : Nat) (i : Instr) (h4 : off % 4 = 0) : mayWrite (regAt off) i = true ↔ WriteSet off i := by
  apply offset_cases (P := fun off => mayWrite (regAt off) i = true ↔ WriteSet off i) (h4 := h4)
  case low => cases i <;> · unfold WriteSet; decide
  all_goals
    intros
    simp only [regAt_freq, regAt_codeBits, regAt_codeLen, regAt_qm, regAt_coefLo, regAt_coefHi, regAt_qblk, *]
    cases i <;>
      simp [mayWrite, WriteSet, Reg.isQm, Reg.isCoef, Reg.isQblk, Reg.isFreq, Reg.isCode, Reg.isBitBuffer] <;> omega

theorem inWriteSet_iff (s : State) (off : Nat) (h4 : off % 4 = 0) :
    s.inWriteSet (regAt off) = true ↔ ∃ i, Pending s i ∧ WriteSet off i := by
  simp only [State.inWriteSet, pendingHas_iff, mayWrite_iff off _ h4]

/-! ### The code table (43_huffman.md R336) -/

theorem allDistinct_iff (l : List (Nat × Nat)) : allDistinct l = true ↔ l.Nodup := by
  induction l with
  | nil => simp [allDistinct]
  | cons k rest ih => simp [allDistinct, ih]

theorem presentKeys_eq (c : Tab CodeEntry 256) :
    presentKeys c = ((List.finRange 256).filter fun i => (c.get i).len != 0).map fun i => (c.get i).key := by
  have h : c.cells = (List.finRange 256).map c.get := by
    apply List.ext_getElem (by simp [c.size_eq])
    intro n h1 h2
    simp [Tab.get]
  rw [presentKeys, h, List.filter_map, List.map_map]
  rfl

theorem tableValid_iff (c : Tab CodeEntry 256) : tableValid c = true ↔ ValidTable c := by
  rw [tableValid, Bool.and_eq_true, Tab.all_cells, allDistinct_iff, presentKeys_eq,
    List.nodup_map_iff_inj_on ((List.nodup_finRange 256).filter _)]
  simp only [decide_eq_true_eq, List.mem_filter, List.mem_finRange, true_and, bne_iff_ne, ValidTable, CodeEntry.key, Prod.mk.injEq]
  refine and_congr_right fun _ => ⟨fun h i j hij hi hl hb => hij (h i hi j (hl ▸ hi) ⟨hb, congrArg _ hl⟩), fun h i hi j _ hk => ?_⟩
  by_contra hij
  exact h i j hij hi (BitVec.eq_of_toNat_eq hk.2) hk.1

end Sys2Proof.Machine
end

