-- ==== Sys2Proof/Tests/Slice0.lean ====
section
/-! SUPPORT. Tests and witnesses.

Every expected value is the spec's own: the words of 30_encoding.md R150 and R152, and the vectors of 95_test_vectors.md named in each
comment.  A `witness_X` theorem gives states and operands that meet the hypotheses of the statement `Obligations.X`, clause by
clause, at the ends of their ranges. -/

namespace Sys2Proof.Tests

open Sys2Proof Sys2Proof.Machine

set_option Elab.async false

/-! ### Small states -/

/-- The operand registers after reset, with SRC, DST, LEN and DSTLEN. -/
def args (src dst len dstlen : Word) : Operands := { Operands.reset with src := src, dst := dst, len := len, dstlen := dstlen }

/-- After reset, with command word `w` pending on operands `a`, and DMEM `m`. -/
def pendingWord (w : Word) (a : Operands) (m : Memory) : State := { State.accept { State.reset with regs := a } w with mem := m }

/-- After reset, with a command pending. -/
def pending (i : Instr) (a : Operands) (m : Memory) : State := pendingWord (encode i) a m

/-- A NOP pending after E_QUALITY. -/
def pendingFailed : State :=
  let s := pending .nop Operands.reset [];
  { s with status := { s.status with err := true, errcode := 0x02 } }

/-- The state a command leaves. -/
def ran (i : Instr) (s : State) : State :=
  match exec i s with
  | .next t => t
  | .fault _ | .refused _ => State.reset

theorem exec_ran (i : Instr) (s : State) : exec i s = .next (ran i s) := by
  obtain ⟨t, h⟩ := exec_completes i s
  simp [ran, h]

/-- The state a turn leaves. -/
def after (o : Host.Outcome State Fault Refusal) : State :=
  match o with
  | .next t => t
  | .fault _ | .refused _ => State.reset

/-- The bytes `bs` from `a` up. -/
def bytesAt (a : Nat) (bs : List Byte) : Memory := bs.mapIdx fun j b => (a + j, b)

/-- "ABRACADABRA" (T10). -/
def abra : List Byte := [0x41, 0x42, 0x52, 0x41, 0x43, 0x41, 0x44, 0x41, 0x42, 0x52, 0x41]

/-- The counts of T10. -/
def abraFreq : Tab Word 256 := Tab.ofFn fun b =>
  if b = 0x41 then 5 else if b = 0x42 then 2 else if b = 0x43 then 1 else if b = 0x44 then 1 else if b = 0x52 then 2 else 0

/-- The code table of T10. -/
def abraCode : Tab CodeEntry 256 := Tab.ofFn fun b =>
  if b = 0x41 then ⟨0b1, 1⟩ else if b = 0x42 then ⟨0b001, 3⟩ else if b = 0x43 then ⟨0b011, 3⟩ else if b = 0x44 then ⟨0b010, 3⟩
  else if b = 0x52 then ⟨0b000, 3⟩ else ⟨0, 0⟩

/-- A stream opened by BBRESET (R400). -/
def stream (dst dstlen : Word) : BitBuffer := ⟨dst, 0, dstlen, 0, 0, 0⟩

/-- COEF with `v` in cell `i` and +0.0 elsewhere. -/
def oneCoef (i : Fin 64) (v : F64) : Tab F64 64 := (Tab.fill 64 0).set i v

/-- The 64 bytes 00..3F at 0 (T3). -/
def ramp : Memory := bytesAt 0 ((List.range 64).map fun j => BitVec.ofNat 8 j)

/-- 64 bytes `b` at 0. -/
def flat (b : Byte) : Memory := bytesAt 0 (List.replicate 64 b)

/-- The first `n` Fibonacci numbers in FREQ[0..n−1] (T13). -/
def fibFreq (n : Nat) : Tab Word 256 := Tab.ofFn fun b => if b.val < n then BitVec.ofNat 32 (Nat.fib (b.val + 1)) else 0

/-! ### Decoding: words written out from 30_encoding.md R150 (RSV in [31:8], OPC in [7:0]) and R152 -/

theorem test_decode_system : decode 0b00000000000000000000000000000000#32 = .ok .nop := by decide
theorem test_decode_quantizer :
    decode 0b00000000000000000000000000000001#32 = .ok .qmset ∧ decode 0b00000000000000000000000000000101#32 = .ok .quant ∧
    decode 0b00000000000000000000000000000110#32 = .ok .dequant := by decide
theorem test_decode_transform :
    decode 0b00000000000000000000000000000010#32 = .ok .fdct ∧ decode 0b00000000000000000000000000000011#32 = .ok .idct ∧
    decode 0b00000000000000000000000000000100#32 = .ok .recon := by decide
theorem test_decode_zigzag :
    decode 0b00000000000000000000000000000111#32 = .ok .zzscan ∧
    decode 0b00000000000000000000000000001000#32 = .ok .zzunscan := by decide
theorem test_decode_huffman :
    decode 0b00000000000000000000000000001001#32 = .ok .freqclr ∧ decode 0b00000000000000000000000000001010#32 = .ok .freqacc ∧
    decode 0b00000000000000000000000000001011#32 = .ok .treebuild ∧ decode 0b00000000000000000000000000001111#32 = .ok .encode ∧
    decode 0b00000000000000000000000000010000#32 = .ok .decode := by decide
theorem test_decode_bitbuffer :
    decode 0b00000000000000000000000000001100#32 = .ok .bbreset ∧ decode 0b00000000000000000000000000001101#32 = .ok .bbput ∧
    decode 0b00000000000000000000000000001110#32 = .ok .bbflush := by decide
theorem test_decode_pipeline :
    decode 0b00000000000000000000000000010001#32 = .ok .blkenc ∧
    decode 0b00000000000000000000000000010010#32 = .ok .blkdec := by decide
theorem test_decode_illegal :
    decode 0b00000000000000000000000000010011#32 = .error .unknownOpcode ∧
    decode 0b00000000000000000000000011111111#32 = .error .unknownOpcode ∧
    decode 0b00000000000000000000000100000000#32 = .error .reservedBits ∧
    decode 0b10000000000000000000000000000010#32 = .error .reservedBits := by decide

/-- Every opcode of the table runs as the first command after reset. -/
theorem test_first_command_runs :
    (List.range 19).all (fun w => (decodeTableWord 32 w).isSome &&
      (match step (State.reset.withFetchWord 32 w) with | .next t => t.status.done | .fault _ | .refused _ => false)) = true := by
  decide +kernel

/-! ### WellFormed refuses ill-formed terms -/

theorem test_params_default : Params.default.wellFormed = true := by decide +kernel
theorem test_params_size_too_small : ({ Params.default with dmemSize := 512 } : Params).wellFormed = false := by decide +kernel
theorem test_params_size_no_power : ({ Params.default with dmemSize := 65535 } : Params).wellFormed = false := by decide +kernel
theorem test_params_qbase_zero :
    ({ Params.default with qbase := Config.defaultQBase.set 63 0 } : Params).wellFormed = false := by decide +kernel
/-- 1.0000000000000002 is no cosine, nor is a NaN. -/
theorem test_params_no_cosine :
    ({ Params.default with cosTable := Config.defaultCosTable.set 0 0x3FF0000000000001 } : Params).wellFormed = false ∧
    ({ Params.default with cosTable := Config.defaultCosTable.set 9 0x7FF8000000000000 } : Params).wellFormed = false := by
  decide +kernel
theorem test_hostop_forms :
    (HostOp.regRead 0x1FFC 4).wellFormed = true ∧ (HostOp.regRead 0x2000 4).wellFormed = false ∧
    (HostOp.regRead 0x00E 4).wellFormed = false ∧ (HostOp.regRead 0x00C 2).wellFormed = false ∧
    (HostOp.regWrite 0x00E 4 0).wellFormed = false ∧ (HostOp.regWrite 0x00C 2 0).wellFormed = false ∧
    (HostOp.regWrite 0x2000 4 0).wellFormed = false ∧ (HostOp.memWrite 0 8 0).wellFormed = false ∧
    (HostOp.memRead 2 4).wellFormed = false ∧ (HostOp.memRead 0 3).wellFormed = false ∧
    (HostOp.memWrite 1 2 0).wellFormed = false ∧ (HostOp.memWrite 1 1 0).wellFormed = true := by decide
theorem test_instr_wellFormed : Instr.blkdec.wellFormed = true := by decide

/-! ### The commands -/

/-- T18, row NOP. -/
theorem test_nop : (ran .nop (pending .nop Operands.reset [])).status.word = 0x00000002 := by decide
/-- T18, the illegal rows. -/
theorem test_illegal_words :
    (after (step (pendingWord 0x13 Operands.reset []))).status.word = 0x00130106 ∧
    (after (step (pendingWord 0x80000002 Operands.reset []))).status.word = 0x00020106 := by decide

/-- T5, q = 70 and q = 98. -/
theorem test_qmset :
    (let t := ran .qmset (pending .qmset { Operands.reset with quality := 70 } []);
      t.qm.get 0 = 10 ∧ t.qm.get 1 = 7 ∧ t.qm.get 63 = 59) ∧
    (let t := ran .qmset (pending .qmset { Operands.reset with quality := 98 } []); t.qm.get 0 = 1 ∧ t.qm.get 7 = 2) := by
  decide +kernel
/-- T9: E_QUALITY; QM stays QBASE. -/
theorem test_qmset_error :
    let t := ran .qmset (pending .qmset { Operands.reset with quality := 100 } []);
    t.status.word = 0x00010206 ∧ t.qm.get 1 = 11 := by decide +kernel

/-- T1: COEF[0] and COEF[1] of the all-zero block. -/
theorem test_fdct :
    let t := ran .fdct (pending .fdct Operands.reset (flat 0));
    t.coef.get 0 = 0xC090000000000001 ∧ t.coef.get 1 = 0xBD40F876CCDF6CDA := by decide +kernel
/-- T4: SRC = 65473 is E_ADDR. -/
theorem test_fdct_addr : (ran .fdct (pending .fdct (args 65473 0 0 0) [])).status.word = 0x00020306 := by decide +kernel

/-- T2: COEF[0] = −1020.0 gives 0.4999999999999858. -/
theorem test_idct :
    (ran .idct { pending .idct Operands.reset [] with coef := oneCoef 0 0xC08FE00000000000 }).coef.get 63 = 0x3FDFFFFFFFFFFF00 := by
  decide +kernel

/-- T7: the RECON table, 254.5 and 0.49999999999999994 among its rows. -/
theorem test_recon_rounding :
    reconCell .nearestEven 0x406FD00000000000 = 254 ∧ reconCell .trunc 0x406FD00000000000 = 254 ∧
    reconCell .nearestAway 0x406FD00000000000 = 255 ∧ reconCell .nearestAway 0x3FDFFFFFFFFFFFFF = 0 ∧
    reconCell .nearestEven 0x7FF0000000000000 = 255 ∧ reconCell .nearestEven 0xFFF0000000000000 = 0 ∧
    reconCell .nearestEven 0x8000000000000000 = 0 := by decide +kernel
/-- T7: 300.0 saturates; a NaN is E_FP. -/
theorem test_recon :
    (ran .recon { pending .recon Operands.reset [] with coef := oneCoef 9 0x4072C00000000000 }).readByte 9 = 255 ∧
    (ran .recon { pending .recon Operands.reset [] with coef := oneCoef 9 0x7FF0000000000001 }).status.word = 0x00040406 := by
  decide +kernel

/-- T7: with QM = 1: 300.0 and −129.0 wrap; 127.99999999999999 truncates; with QM = 2: −7.5. -/
theorem test_quant_cells :
    quantCell 0x4072C00000000000 1 = 0x2C ∧ quantCell 0xC060200000000000 1 = 0x7F ∧ quantCell 0x405FFFFFFFFFFFFF 1 = 0x7F ∧
    quantCell 0xC01E000000000000 2 = 0xFD ∧ quantCell 0x7E37E43C8800759C 1 = 0x00 := by decide +kernel
/-- T6: −1024.0000000000002 by QM(50)'s 16 is −64; an infinity is E_FP. -/
theorem test_quant :
    (ran .quant { pending .quant Operands.reset [] with coef := oneCoef 0 0xC088200000000002 }).qblk.get 0 = 0xD0 ∧
    (ran .quant { pending .quant Operands.reset [] with coef := oneCoef 63 0xFFF0000000000000 }).status.word = 0x00050406 := by
  decide +kernel

/-- T6: 0x9A by QM(70)'s 10 is −1020.0. -/
theorem test_dequant :
    let t := ran .dequant { pending .dequant Operands.reset [] with
      qblk := (Tab.fill 64 0).set 0 0x9A
      qm := qmMatrix Params.default 70 };
    t.coef.get 0 = 0xC08FE00000000000 ∧ t.coef.get 1 = 0 := by decide +kernel

/-- T8: QBLK[i] = i scans to ZZ[k]; DST = 65473 is E_ADDR. -/
theorem test_zzscan :
    (ran .zzscan { pending .zzscan (args 0 0x100 0 0) [] with qblk := Tab.ofFn fun i => BitVec.ofNat 8 i.val }).readBytes 0x100 16 =
      [0x00, 0x01, 0x08, 0x10, 0x09, 0x02, 0x03, 0x0A, 0x11, 0x18, 0x20, 0x19, 0x12, 0x0B, 0x04, 0x05] ∧
    (ran .zzscan (pending .zzscan (args 0 65473 0 0) [])).status.word = 0x00070306 := by decide +kernel

/-- T8: QBLK words 0 and 15. -/
theorem test_zzunscan :
    let t := ran .zzunscan (pending .zzunscan Operands.reset ramp);
    regValue t (.qblk 0) = 0x06050100 ∧ regValue t (.qblk 15) = 0x3F3E3A39 := by decide +kernel

theorem test_freqclr :
    (ran .freqclr { pending .freqclr Operands.reset [] with freq := abraFreq }).freq.get 0x41 = 0 := by decide +kernel

/-- T10. -/
theorem test_freqacc :
    let t := ran .freqacc (pending .freqacc (args 0 0 11 0) (bytesAt 0 abra));
    t.freq.get 0x41 = 5 ∧ t.freq.get 0x42 = 2 ∧ t.freq.get 0x43 = 1 ∧ t.freq.get 0x52 = 2 ∧ t.freq.get 0x45 = 0 := by
  decide +kernel
/-- T17. -/
theorem test_freqacc_saturates :
    let t := ran .freqacc { pending .freqacc (args 0 0 3 0) (bytesAt 0 [7, 7, 8]) with freq := (Tab.fill 256 0).set 7 0xFFFFFFFE };
    t.freq.get 7 = 0xFFFFFFFF ∧ t.freq.get 8 = 1 ∧ t.status.errcode = 0x05 := by decide +kernel

/-- T10: the code table. -/
theorem test_treebuild :
    let t := ran .treebuild { pending .treebuild Operands.reset [] with freq := abraFreq };
    t.code = abraCode ∧ t.nsym = 5 ∧ t.maxlen = 3 ∧ t.status.err = false := by decide +kernel
/-- T13: 33 Fibonacci counts give a code of 32 bits, 34 one of 33 bits, which is E_CODE_LEN. -/
theorem test_treebuild_lengths :
    (ran .treebuild { pending .treebuild Operands.reset [] with freq := fibFreq 33 }).maxlen = 32 ∧
    (let t := ran .treebuild { pending .treebuild Operands.reset [] with freq := fibFreq 34 };
      t.maxlen = 33 ∧ t.status.errcode = 0x07) := by decide +kernel

/-- T14, row 1. -/
theorem test_bbreset : (ran .bbreset (pending .bbreset (args 0 0x100 0 16) [])).bb = stream 0x100 16 := by decide
/-- T14: BBPUT 0xFF, 8 after 3 bits 101. -/
theorem test_bbput :
    let t := ran .bbput { pending .bbput { Operands.reset with putbits := 0xFF, putlen := 8 } [] with
      bb := { stream 0x100 16 with acc := 0b101, nbits := 3, tot := 3 } };
    t.readByte 0x100 = 0xBF ∧ t.bb.stateWord = 0x00000307 ∧ t.bb.tot = 11 := by decide +kernel
/-- T14: 0b1 then 0xDEADBEEF; PUTLEN = 33. -/
theorem test_bbput_carry :
    (ran .bbput { pending .bbput { Operands.reset with putbits := 0xDEADBEEF, putlen := 32 } [] with
      bb := { stream 0x100 16 with acc := 1, nbits := 1, tot := 1 } }).readBytes 0x100 4 = [0xEF, 0x56, 0xDF, 0x77] ∧
    (ran .bbput (pending .bbput { Operands.reset with putlen := 33 } [])).status.errcode = 0x0A := by decide +kernel
/-- T14: BBFLUSH after 11 bits. -/
theorem test_bbflush :
    let t := ran .bbflush { pending .bbflush Operands.reset [] with bb := ⟨0x101, 1, 16, 0b111, 3, 11⟩ };
    t.readByte 0x101 = 0xE0 ∧ t.regs.bitcnt = 11 ∧ t.bb = ⟨0x102, 2, 16, 0, 0, 0⟩ := by decide +kernel
/-- T14: DSTLEN = 0. -/
theorem test_bbflush_overrun :
    (ran .bbflush { pending .bbflush Operands.reset [] with bb := ⟨0x100, 0, 0, 1, 1, 1⟩ }).status.errcode = 0x0B := by decide

/-- The state in which ENCODE of T10 runs. -/
def encodeAbra : State := { pending .encode (args 0 0x100 11 16) (bytesAt 0 abra) with bb := stream 0x100 16, code := abraCode }

/-- T10: 23 bits 91 75 and 7 carried. -/
theorem test_encode :
    let t := ran .encode encodeAbra;
    t.readBytes 0x100 2 = [0x91, 0x75] ∧ t.bb.tot = 23 ∧ t.bb.nbits = 7 ∧ t.encPos = 11 := by decide +kernel
/-- T16: E_NO_CODE at byte 2. -/
theorem test_encode_no_code :
    let t := ran .encode { encodeAbra with mem := bytesAt 0 [0x41, 0x42, 0x5A, 0x41] };
    t.status.errcode = 0x08 ∧ t.encPos = 2 ∧ t.bb.acc = 0b1001 ∧ t.bb.nbits = 4 := by decide +kernel

/-- The code table of P3: 00 has the code 0, 9A the code 1. -/
def pairCode : Tab CodeEntry 256 := ((Tab.fill 256 ⟨0, 0⟩).set 0 ⟨0, 1⟩).set 0x9A ⟨1, 1⟩

/-- P3's DECODE on the first `n` bits of its stream 80, with capacity `cap`. -/
def decodePair (n : DWord) (cap : Word) : State :=
  { pending .decode { args 0x300 0x400 8 cap with bitcnt := n } (bytesAt 0x300 [0x80, 0, 0, 0, 0, 0, 0, 0]) with code := pairCode }

/-- P3: the stream's first bits give 9A 00 00. -/
theorem test_decode :
    let t := ran .decode (decodePair 3 64);
    t.readBytes 0x400 3 = [0x9A, 0, 0] ∧ t.decOutlen = 3 ∧ t.decBitpos = 3 ∧ t.status.err = false := by decide +kernel
/-- T15: a duplicate code, in which bit 1 of CODE[2].bits is ignored; and a bit count larger than the payload. -/
theorem test_decode_errors :
    (ran .decode { decodePair 3 64 with code := ((Tab.fill 256 ⟨0, 0⟩).set 1 ⟨1, 1⟩).set 2 ⟨3, 1⟩ }).status.errcode = 0x09 ∧
    (ran .decode (decodePair 65 64)).status.errcode = 0x0C ∧ (ran .decode (decodePair 3 1)).status.errcode = 0x0B := by
  decide +kernel

/-- T19: the first bytes of the ramp's block at quality 50. -/
theorem test_blkenc : (ran .blkenc (pending .blkenc (args 0 0x100 0 0) ramp)).readBytes 0x100 3 = [0xD0, 0xFF, 0xF4] := by
  decide +kernel
/-- T19: the last sample of the decoded block. -/
theorem test_blkdec :
    (ran .blkdec (pending .blkdec (args 0x100 0x200 0 0)
      (bytesAt 0x100 ([0xD0, 0xFF, 0xF4, 0, 0, 0, 0, 0, 0, 0xFF] ++ List.replicate 54 0)))).readByte 0x23F = 61 := by
  decide +kernel

/-! ### The host's ports -/

/-- R46 (T9): QUALITY = 0x163 stores 0x63. -/
theorem test_quality_write :
    (after (hostTurn State.reset (.regWrite 0x010 4 0x00000163))).regs.quality = 0x63 := by decide
/-- T20: IE, then a NOP, raises IRQ; writing DONE drops it. -/
theorem test_irq :
    let s := { pending .nop Operands.reset [] with ie := true };
    (ran .nop s).irq = true ∧ (after (hostTurn (ran .nop s) (.regWrite 0x008 4 2))).irq = false := by decide
/-- R104: a little-endian store and load. -/
theorem test_memory_port :
    let t := after (hostTurn State.reset (.memWrite 0x100 4 0x44332211));
    t.readByte 0x100 = 0x11 ∧ t.readByte 0x103 = 0x44 ∧
    (after (hostTurn t (.memRead 0x102 2))).resp = some ⟨0x4433, false⟩ := by decide
/-- P7, the run in which the engine's step comes last: the second command is dropped. -/
theorem test_dropped_command :
    (after (step (after (hostTurn (after (hostTurn State.reset (.regWrite 0x00C 4 0x02))) (.regWrite 0x00C 4 0x03))))).status.word =
      0x0002000A := by decide +kernel

/-! ### Witnesses: states and operands that meet the hypotheses of each statement

A statement without hypotheses needs none.  Where the clauses of a statement are ranges, each end is shown. -/

theorem witness_DecodeFollowsOpcodeMap :
    (0x100 : Word).extractLsb' 8 24 ≠ 0 ∧ (0x80000002 : Word).extractLsb' 8 24 ≠ 0 ∧ (0x12 : Word).extractLsb' 8 24 = 0 ∧
    (0x13 : Word).extractLsb' 8 24 = 0 ∧ (0xFF : Word).extractLsb' 8 24 = 0 := by decide

theorem witness_DecodeEncodeAgree :
    Instr.blkdec.wellFormed = true ∧ decode 0x12 = .ok .blkdec ∧ 0x12 = encode .blkdec := by decide

/-- A pending command, the engine to move from an empty list and from the head of one; an idle engine; a host's turn. -/
theorem witness_StepRunsThePendingCommand :
    (∃ s : State, s.turns = [] ∧ s.status.busy = true ∧ decode s.op.word = .ok .nop) ∧
    (∃ s : State, s.turns = .engine :: [.engine] ∧ s.status.busy = true ∧ decode s.op.word = .ok .blkdec) ∧
    (∃ s : State, s.turns = [] ∧ s.status.busy = false) ∧
    ∃ s : State, s.turns = .host (.regRead 0 4) :: [.engine] :=
  ⟨⟨pending .nop Operands.reset [], by decide⟩,
   ⟨{ pending .blkdec Operands.reset [] with turns := [.engine, .engine] }, by decide⟩, ⟨State.reset, by decide⟩,
   ⟨{ State.reset with turns := [.host (.regRead 0 4), .engine] }, rfl⟩⟩

/-- The first unknown opcode with no turns in the list, and a reserved bit with the engine's turn at the head of the list. -/
theorem witness_IllegalWordOnlyFails :
    (∃ s : State, s.turns = [] ∧ s.status.busy = true ∧ 0x13 ≤ (s.op.word.extractLsb' 0 8).toNat) ∧
    ∃ s : State, s.turns = .engine :: [.engine] ∧ s.status.busy = true ∧ s.op.word.extractLsb' 8 24 ≠ 0 :=
  ⟨⟨pendingWord 0x13 Operands.reset [], by decide⟩,
   ⟨{ pendingWord 0x100 Operands.reset [] with turns := [.engine, .engine] }, by decide⟩⟩

/-- A success, an error, and an illegal word. -/
theorem witness_CompletionWritesStatus :
    (pending .nop Operands.reset []).status.busy = true ∧
    (∃ t, engineTurn (pending .nop Operands.reset []) = .next t ∧ t.status.err = false) ∧
    (∃ t, engineTurn (pending .treebuild Operands.reset []) = .next t ∧ t.status.errcode = 0x06) ∧
    ∀ i, decode (pendingWord 0x13 Operands.reset []).op.word ≠ .ok i :=
  ⟨by decide, ⟨ran .nop (pending .nop Operands.reset []), rfl, by decide⟩,
   ⟨ran .treebuild (pending .treebuild Operands.reset []), exec_ran .treebuild _, by decide +kernel⟩, by intro i; cases i <;> decide⟩

theorem witness_CommandWriteAcceptsOrDrops :
    State.reset.status.busy = false ∧ (pending .fdct Operands.reset []).status.busy = true := by decide

theorem witness_CommandsKeepTheRest : ∃ s t : State, exec .bbflush s = .next t ∧ t.regs ≠ s.regs :=
  ⟨{ State.reset with bb := ⟨0, 0, 16, 0, 0, 8⟩ }, ran .bbflush { State.reset with bb := ⟨0, 0, 16, 0, 0, 8⟩ }, exec_ran _ _, by decide⟩

/-- One register that changes, for each command that may change one. -/
theorem witness_CommandsWriteOnlyTheirSet :
    [(Instr.qmset, pending .qmset { Operands.reset with quality := 1 } [], Reg.qm 63),
     (.fdct, { pending .fdct Operands.reset (flat 128) with coef := Tab.fill 64 1 }, .coefLo 63),
     (.idct, State.reset, .coefHi 63),
     (.dequant, { State.reset with qblk := Tab.fill 64 1 }, .coefHi 0),
     (.quant, { State.reset with coef := oneCoef 0 0xC088200000000002 }, .qblk 0),
     (.zzunscan, pending .zzunscan Operands.reset ramp, .qblk 15),
     (.freqclr, { State.reset with freq := Tab.fill 256 1 }, .freq 255),
     (.freqacc, pending .freqacc (args 0 0 1 0) (bytesAt 0 [0x00]), .freq 0),
     (.treebuild, { State.reset with freq := (Tab.fill 256 0).set 5 7 }, .codeLen 5),
     (.bbreset, pending .bbreset (args 0 0 0 5) [], .bbLimit),
     (.bbput, { pending .bbput { Operands.reset with putlen := 1 } [] with bb := stream 0 4 }, .bbState),
     (.bbflush, { State.reset with bb := ⟨0, 0, 16, 0, 0, 8⟩ }, .bitcntLo),
     (.encode, encodeAbra, .encPos),
     (.decode, decodePair 1 64, .decOutlen),
     (.blkenc, { pending .blkenc (args 0 0x100 0 0) (flat 128) with coef := Tab.fill 64 1 }, .coefLo 63),
     (.blkdec, pending .blkdec (args 0x100 0x200 0 0) (bytesAt 0x100 (List.replicate 64 0)), .coefHi 0)].all
      (fun p => p.2.2 != .status && regValue (ran p.1 p.2.1) p.2.2 != regValue p.2.1 p.2.2) = true := by decide +kernel

/-- One byte that changes, for each command that stores. -/
theorem witness_DmemOutsideFootprintIsKept :
    Params.default.wellFormed = true ∧
    [(Instr.recon, { pending .recon Operands.reset (flat 1) with coef := Tab.fill 64 0 }, 63),
     (.zzscan, pending .zzscan (args 0 0 0 0) (flat 1), 63),
     (.encode, { encodeAbra with bb := stream 12 16, mem := bytesAt 0 (abra ++ [0, 0, 0]) }, 12),
     (.bbput, { pending .bbput { Operands.reset with putlen := 32 } (bytesAt 0x100 [1, 1, 1, 1]) with bb := stream 0x100 4 }, 0x103),
     (.bbflush, { pending .bbflush Operands.reset (bytesAt 0x100 [0]) with bb := ⟨0x100, 0, 1, 1, 1, 1⟩ }, 0x100),
     (.decode, { decodePair 1 1 with mem := bytesAt 0x300 [0x80] ++ bytesAt 0x400 [0] }, 0x400),
     (.blkenc, pending .blkenc (args 0 0 0 0) (flat 0), 0),
     (.blkdec, pending .blkdec (args 0 0 0 0) (flat 0), 63)].all
      (fun p => State.readByte (ran p.1 p.2.1) p.2.2 != State.readByte p.2.1 p.2.2) = true := by decide +kernel

/-- ZZUNSCAN reads 0 to 63; the two memories differ at 64. -/
theorem witness_DmemOutsideFootprintIsNotRead :
    let s := pending .zzunscan Operands.reset [(64, 1)];
    exec .zzunscan s = .next (ran .zzunscan s) ∧
    (∀ a, FootprintReads s a .zzunscan → s.readByte a = State.readByte { s with mem := [(64, 2)] } a) ∧
    s.readByte 64 ≠ State.readByte { s with mem := [(64, 2)] } 64 := by
  refine ⟨exec_ran _ _, fun a h => ?_, by decide⟩
  have h64 : a ≠ 64 := by rintro rfl; exact absurd h.2 (by decide)
  simp [State.readByte, Memory.get?, pending, pendingWord, State.accept, Ne.symm h64]

/-- The state after reset, and one with a command pending. -/
theorem witness_legal : State.reset.Legal ∧ (pending .blkdec Operands.reset ramp).Legal := by
  have hq : ∀ i, State.reset.qm.get i ≠ 0 := by decide +kernel
  constructor <;>
    refine { params := by decide +kernel, mem := by decide +kernel, qm := hq, bb := ?_, status := ?_, lastop := by decide,
             pending := by decide, nsym := by decide } <;>
    constructor <;> decide

theorem witness_LegalStatesStayLegal :
    State.Legal (pending .blkdec Operands.reset ramp) ∧
    step (pending .blkdec Operands.reset ramp) = .next (ran .blkdec (pending .blkdec Operands.reset ramp)) :=
  ⟨witness_legal.2, exec_ran .blkdec _⟩

theorem witness_PowerOnIsLegal : Params.wellFormed { Params.default with dmemSize := 2 ^ 31 } = true := by decide +kernel

/-- A state with ERR set, the engine to move, and one in which the host clears DONE only. -/
theorem witness_ErrorIsSticky :
    (∃ s t : State, step s = .next t ∧ s.status.err = true ∧ ∀ o rest, s.turns = .host o :: rest → ¬ HostOp.clearsErr o) ∧
    ∃ s t : State, step s = .next t ∧ s.status.err = true ∧ s.turns = [.host (.regWrite 0x008 4 2)] ∧
      ¬ HostOp.clearsErr (.regWrite 0x008 4 2) := by
  refine ⟨⟨pendingFailed, ran .nop pendingFailed, exec_ran .nop _, by decide, ?_⟩,
    ⟨{ pendingFailed with turns := [.host (.regWrite 0x008 4 2)] }, _, rfl, by decide, rfl, ?_⟩⟩
  · intro o rest h; cases h
  · rintro ⟨v, ⟨⟨off, h, -, -, -⟩, hv⟩ | ⟨⟨off, h, -, -, hr⟩, -⟩⟩
    · injection h with _ _ h3; subst h3; revert hv; decide
    · injection h with h1 _ _; subst h1; revert hr; decide

theorem witness_QmChangesOnlyByQmset :
    (let s := pending .qmset { Operands.reset with quality := 1 } [];
      step s = .next (ran .qmset s) ∧ (ran .qmset s).qm ≠ s.qm) ∧
    ∃ s t : State, s.turns = [.host (.regWrite 0x004 4 2)] ∧ step s = .next t ∧ t.qm ≠ s.qm := by
  refine ⟨⟨exec_ran .qmset _, by decide +kernel⟩,
    ⟨{ State.reset with qm := Tab.fill 64 1, turns := [.host (.regWrite 0x004 4 2)] }, _, rfl, rfl, by decide +kernel⟩⟩

theorem witness_OnlyHazardousWritesStop :
    ¬ Goes (step { pending .fdct Operands.reset [] with turns := [.host (.regWrite 0x030 4 0)] }) ∧
    ¬ Goes (step { pending .fdct Operands.reset [] with turns := [.host (.memWrite 0 4 0)] }) := by
  constructor <;> · rintro ⟨t, h⟩; revert h; rw [show step _ = Host.Outcome.fault _ from rfl]; exact fun h => by cases h

/-- The ends of the windows, and of the offsets that ignore a write; SRST and no SRST; the first and the last operand register. -/
theorem witness_BusyRegisterWrites :
    (pending .fdct Operands.reset []).status.busy = true ∧ (2 : Word).getLsbD 1 = true ∧ (1 : Word).getLsbD 1 = false ∧
    [0x400, 0xFFC, 0x1100, 0x133C].all
      (fun off => off % 4 == 0 && ((0x400 ≤ off && off < 0x1000) || (0x1100 ≤ off && off < 0x1340))) = true ∧
    [0x038, 0x3FC, 0x1000, 0x10FC, 0x1340, 0x1FFC].all
      (fun off => off % 4 == 0 &&
        ((0x038 ≤ off && off < 0x400) || (0x1000 ≤ off && off < 0x1100) || (0x1340 ≤ off && off < 0x2000))) = true ∧
    (operandWrites Operands.reset 0).map (fun p => p.1) = [0x010, 0x014, 0x018, 0x01C, 0x020, 0x024, 0x028, 0x02C] := by decide

/-- What is pending after `pendingWord`: nothing but the command its word decodes to. -/
theorem pending_unique {s : State} {i j : Instr} (h : decode s.op.word = .ok i) (hj : Pending s j) : j = i := by
  have h2 := hj.2
  rw [h] at h2
  injection h2 with h3
  exact h3.symm

/-- The two edges of FDCT's write set: COEF is inside, QM's last word and QBLK's first are outside; an illegal word; an idle engine. -/
theorem witness_BusyReadsAreDraws :
    let s := pending .fdct Operands.reset [];
    [0x10FC, 0x1100, 0x12FC, 0x1300].all (fun off => (registerMap s).any fun p => p.1 == off) = true ∧
    Pending s .fdct ∧ WriteSet 0x1100 .fdct ∧ WriteSet 0x12FC .fdct ∧
    (∀ i, Pending s i → ¬ WriteSet 0x10FC i) ∧ (∀ i, Pending s i → ¬ WriteSet 0x1300 i) ∧
    (∀ i, Pending (pendingWord 0x13 Operands.reset []) i → ¬ WriteSet 0x1100 i) ∧ ∀ i, Pending State.reset i → ¬ WriteSet 0x000 i := by
  intro s
  have hd : decode s.op.word = .ok .fdct := by decide
  refine ⟨by decide +kernel, ⟨by decide, hd⟩, by unfold WriteSet; decide, by unfold WriteSet; decide, fun i h => ?_, fun i h => ?_,
    fun i h => ?_, fun i h => absurd h.1 (by decide)⟩
  · rw [pending_unique hd h]; unfold WriteSet; decide
  · rw [pending_unique hd h]; unfold WriteSet; decide
  · have h2 := h.2
    rw [show decode (pendingWord 0x13 Operands.reset []).op.word = .error .unknownOpcode by decide] at h2
    exact absurd h2 (by simp)

/-- Idle after reset; the ends of each range of offsets, all of them in the map; the bits of a register of each width. -/
theorem witness_RegisterWritesReadBack :
    State.reset.status.busy = false ∧
    [0x010, 0x034, 0x038, 0x068, 0x400, 0x7FC, 0x800, 0xFFC, 0x1000, 0x10FC, 0x1100, 0x12FC, 0x1300, 0x133C].all
      (fun off => off % 4 == 0 && (registerMap State.reset).any fun p => p.1 == off) = true ∧
    [0x010, 0x034, 0x400, 0xFFC, 0x1100, 0x133C].all
      (fun off => (0x010 ≤ off && off ≤ 0x034) || (0x400 ≤ off && off < 0x1000) || (0x1100 ≤ off && off < 0x1340)) = true ∧
    [0x000, 0x038, 0x068, 0x1000, 0x10FC].all
      (fun off => off == 0x000 || (0x038 ≤ off && off ≤ 0x068) || (0x1000 ≤ off && off < 0x1100)) = true ∧
    [0x804, 0xFFC].all (fun off => 0x800 ≤ off && off < 0x1000 && off % 8 == 4) = true := by decide +kernel

/-- The ends of both ranges, and their neighbours, which are no reserved offsets. -/
theorem witness_ReservedOffsetsReadZero :
    [0x06C, 0x3FC, 0x1340, 0x1FFC].all
      (fun off => off % 4 == 0 && ((0x06C ≤ off && off ≤ 0x3FC) || (0x1340 ≤ off && off ≤ 0x1FFC))) = true ∧
    regAt 0x068 = .dmemsz ∧ regAt 0x400 = .freq 0 ∧ regAt 0x133C = .qblk 15 := by decide

theorem witness_BadRegisterAccessIsBusError : (2 : Nat) ≠ 4 ∧ 0x1FFE % 4 ≠ 0 ∧ 0x1FFF < 0x2000 := by decide

theorem witness_IrqFollowsDone :
    (∃ s t : State, s.status.busy = true ∧ engineTurn s = .next t) ∧
    ∃ (s t : State) (w : Word), s.status.busy = false ∧ hostTurn s (.regWrite 0x00C 4 w) = .next t :=
  ⟨⟨pending .nop Operands.reset [], _, by decide, rfl⟩, ⟨State.reset, _, 0x12, by decide, rfl⟩⟩

/-- A bad size, a misaligned address, the first address too high; a good access at the end of DMEM: idle, with a byte in the write part of the
pending footprint, with one in its read part, and just below it. -/
theorem witness_MemoryPortWritesBytes :
    let w := pending .zzscan (args 0 65472 0 0) [];
    let r := pending .zzunscan (args 65472 0 0 0) [];
    ((3 : Nat) ≠ 1 ∧ (3 : Nat) ≠ 2 ∧ (3 : Nat) ≠ 4) ∧ (65534 : Word).toNat % 4 ≠ 0 ∧
    State.reset.params.dmemSize < (65536 : Word).toNat + 4 ∧
    (65532 : Word).toNat % 4 = 0 ∧ (65532 : Word).toNat + 4 ≤ State.reset.params.dmemSize ∧ (∀ i, ¬ Pending State.reset i) ∧
    (Pending w .zzscan ∧ FootprintWrites w ((65532 : Word).toNat + 3) .zzscan) ∧
    (Pending r .zzunscan ∧ FootprintReads r ((65532 : Word).toNat + 3) .zzunscan) ∧
    ∀ i j, Pending w i → j < 4 → ¬ FootprintReads w ((65468 : Word).toNat + j) i ∧ ¬ FootprintWrites w ((65468 : Word).toNat + j) i := by
  intro w r
  have hw : decode w.op.word = .ok .zzscan := by decide
  refine ⟨by decide, by decide, by decide, by decide, by decide, fun i h => absurd h.1 (by decide),
    ⟨⟨by decide, hw⟩, by unfold FootprintWrites; decide⟩, ⟨⟨by decide, by decide⟩, by unfold FootprintReads; decide⟩, fun i j h hj => ?_⟩
  rw [pending_unique hw h]
  have h1 : w.opDst = 65472 := by decide
  have h2 : (65468 : Word).toNat = 65468 := by decide
  simp only [FootprintReads, FootprintWrites, h1, h2, not_false_eq_true, true_and]
  omega

/-- A bad size, a misaligned address, an address too high; a good access at the end of DMEM: idle, with its last byte in the write part of the
pending footprint, and just below it. -/
theorem witness_MemoryPortReadsBytes :
    let w := pending .zzscan (args 0 65472 0 0) [];
    ((0 : Nat) ≠ 1 ∧ (0 : Nat) ≠ 2 ∧ (0 : Nat) ≠ 4) ∧ (65535 : Word).toNat % 2 ≠ 0 ∧
    State.reset.params.dmemSize < (65536 : Word).toNat + 1 ∧
    (65532 : Word).toNat % 4 = 0 ∧ (65532 : Word).toNat + 4 ≤ State.reset.params.dmemSize ∧ (∀ i, ¬ Pending State.reset i) ∧
    (Pending w .zzscan ∧ FootprintWrites w ((65532 : Word).toNat + 3) .zzscan) ∧
    ∀ i, Pending w i → ¬ FootprintWrites w ((65468 : Word).toNat + 3) i := by
  intro w
  have hw : decode w.op.word = .ok .zzscan := by decide
  refine ⟨by decide, by decide, by decide, by decide, by decide, fun i h => absurd h.1 (by decide),
    ⟨⟨by decide, hw⟩, by unfold FootprintWrites; decide⟩, fun i h => ?_⟩
  rw [pending_unique hw h]
  unfold FootprintWrites
  decide

theorem witness_SoftResetKeepsOnlyDmem :
    (3 : Word).getLsbD 1 = true ∧ (1 : Word).getLsbD 1 = false ∧ State.reset.status.busy = false ∧
    (pending .nop Operands.reset []).status.busy = true := by decide

/-- Qualities 1, 99, 0 and 100. -/
theorem witness_QmsetDerivesMatrix :
    (∃ s : State, s.opQuality = 1) ∧ (∃ s : State, s.opQuality = 99) ∧ (∃ s : State, s.opQuality = 0) ∧
    ∃ s : State, s.opQuality = 100 :=
  ⟨⟨pending .qmset { Operands.reset with quality := 1 } [], by decide⟩,
   ⟨pending .qmset { Operands.reset with quality := 99 } [], by decide⟩,
   ⟨pending .qmset { Operands.reset with quality := 0 } [], by decide⟩,
   ⟨pending .qmset { Operands.reset with quality := 100 } [], by decide⟩⟩

theorem witness_QualityFiftyIsQBase :
    let s := pending .qmset Operands.reset [];
    s.opQuality = 50 ∧ (∀ i, s.params.qbase.get i ≠ 0) ∧ exec .qmset s = .next (ran .qmset s) :=
  ⟨by decide, by decide +kernel, exec_ran _ _⟩

/-- The greatest finite number; a NaN; an infinity. -/
theorem witness_QuantTruncates :
    (∀ i, F64.isNaN ((oneCoef 63 0x7FEFFFFFFFFFFFFF).get i) = false ∧ F64.isInf ((oneCoef 63 0x7FEFFFFFFFFFFFFF).get i) = false) ∧
    F64.isNaN ((oneCoef 63 0x7FF0000000000001).get 63) = true ∧ F64.isInf ((oneCoef 0 0xFFF0000000000000).get 0) = true := by
  decide +kernel

/-- The value of a finite pattern from its fields. -/
theorem value_of {x : F64} {n : Bool} {m : Nat} {e : Int} (hn : F64.neg x = n) (hm : F64.sig x = m) (he : F64.ulp x = e) :
    F64.value x = (if n then -1 else 1) * (m : ℚ) * (2 : ℚ) ^ e := by rw [F64.value, hn, hm, he]

/-- The greatest integers of the rule; 1.0 and −1.0, whose sum is 0, and 1.0 and 1.0, whose sum is not; 1.0 by 0.0, and 0.0 by 0.0; the least
NaN; two infinities of either sign. -/
theorem witness_IntegersConvertExactly :
    ((9007199254740991 : Int).natAbs < 2 ^ 53 ∧ (-9007199254740991 : Int).natAbs < 2 ^ 53) ∧
    (F64.isFinite 0x3FF0000000000000 = true ∧ F64.isFinite 0xBFF0000000000000 = true ∧ F64.isFinite 0 = true) ∧
    F64.value 0x3FF0000000000000 + F64.value 0x3FF0000000000000 ≠ 0 ∧ F64.value 0x3FF0000000000000 + F64.value 0xBFF0000000000000 = 0 ∧
    F64.value 0x3FF0000000000000 ≠ 0 ∧ F64.value 0 = 0 ∧ F64.isNaN 0x7FF0000000000001 = true ∧
    F64.isInf 0x7FF0000000000000 = true ∧ F64.isInf 0xFFF0000000000000 = true ∧
    F64.neg 0x7FF0000000000000 ≠ F64.neg 0xFFF0000000000000 := by
  have one := value_of (x := 0x3FF0000000000000) (n := false) (m := 2 ^ 52) (e := -52) (by decide) (by decide) (by decide)
  have minus := value_of (x := 0xBFF0000000000000) (n := true) (m := 2 ^ 52) (e := -52) (by decide) (by decide) (by decide)
  have none := value_of (x := 0) (n := false) (m := 0) (e := -1074) (by decide) (by decide) (by decide)
  refine ⟨by decide, by decide, ?_, ?_, ?_, ?_, by decide, by decide, by decide, by decide⟩
  · rw [one]; norm_num
  · rw [one, minus]; norm_num
  · rw [one]; norm_num
  · rw [none]; norm_num

theorem witness_DequantThenQuantRestores :
    let s := { pending .dequant Operands.reset [] with qblk := Tab.fill 64 0x80 };
    (∀ i, s.qm.get i ≠ 0) ∧ exec .dequant s = .next (ran .dequant s) :=
  ⟨by decide +kernel, exec_ran _ _⟩

/-- The last block that exists (T4), and the first that does not. -/
theorem witness_FdctComputesCoefficients :
    BlockExists (pending .fdct (args 65472 0 0 0) []) 65472 ∧ ¬ BlockExists (pending .fdct (args 65473 0 0 0) []) 65473 := by
  unfold BlockExists; decide +kernel

theorem witness_TransformOutputsAreFinite :
    let s := pending .fdct (args 65472 0 0 0) [];
    s.params.wellFormed = true ∧ BlockExists s s.opSrc ∧ exec .fdct s = .next (ran .fdct s) ∧
    exec .dequant s = .next (ran .dequant s) ∧ exec .idct (ran .dequant s) = .next (ran .idct (ran .dequant s)) :=
  ⟨by decide +kernel, by unfold BlockExists; decide +kernel, exec_ran _ _, exec_ran _ _, exec_ran _ _⟩

theorem witness_FlatBlocksTransformExactly :
    let s := pending .fdct Operands.reset (flat 128);
    s.params.wellFormed = true ∧ BlockExists s s.opSrc ∧
    (∀ r c : Fin 8, s.readByte (s.opSrc + r.val * s.opStride + c.val) = 128) ∧ exec .fdct s = .next (ran .fdct s) ∧
    (∀ i, s.coef.get i = 0) ∧ exec .idct s = .next (ran .idct s) :=
  ⟨by decide +kernel, by unfold BlockExists; decide +kernel, by decide +kernel, exec_ran _ _, by decide +kernel, exec_ran _ _⟩

/-- A NaN in COEF reaches an output cell. -/
theorem witness_IdctComputesSamples : F64.isNaN ((inverseDct Params.default (oneCoef 0 0x7FF0000000000001)).get 63) = true := by
  decide +kernel

/-- No block; a NaN; and with STRIDE = 0 a cell of the last row, which no later cell overwrites. -/
theorem witness_ReconStoresClampedSamples :
    let s := pending .recon { args 0 65528 0 0 with stride := 0 } [];
    ¬ BlockExists (pending .recon (args 0 65473 0 0) []) 65473 ∧ BlockExists s s.opDst ∧
    F64.isNaN ((oneCoef 63 0xFFF8000000000000).get 63) = true ∧ (∀ i, F64.isNaN (s.coef.get i) = false) ∧
    ∀ r' c' : Fin 8, 7 * 8 + 3 < r'.val * 8 + c'.val → s.opDst + r'.val * s.opStride + c'.val ≠ s.opDst + 7 * s.opStride + 3 := by
  unfold BlockExists; decide +kernel

/-- +0.0, 0.5 and 255.0. -/
theorem witness_SampleRounding :
    ([0x0000000000000000, 0x3FE0000000000000, 0x406FE00000000000] : List F64).all (fun x =>
      !F64.isNaN x && !F64.lt x 0 && !F64.lt 0x406FE00000000000 x) = true ∧
    F64.ulp 0 = -1074 ∧ F64.ulp 0x3FE0000000000000 = -53 ∧ F64.ulp 0x406FE00000000000 = -45 := by decide +kernel

/-- The last two cells, and neighbours on an odd and on an even diagonal and across two of them. -/
theorem witness_ZigzagTablesAreInverse :
    (62 : Fin 64).val + 1 = (63 : Fin 64).val ∧ (zigzag.get 62).val = 8 * 7 + 6 ∧ (zigzag.get 63).val = 8 * 7 + 7 ∧
    (zigzag.get 1).val = 8 * 0 + 1 ∧ (zigzag.get 2).val = 8 * 1 + 0 ∧ (zigzag.get 3).val = 8 * 2 + 0 ∧
    (zigzag.get 4).val = 8 * 1 + 1 := by decide

theorem witness_ZzscanStoresInOrder :
    (pending .zzscan (args 0 65472 0 0) []).opDst + 64 ≤ State.reset.params.dmemSize ∧
    State.reset.params.dmemSize < (pending .zzscan (args 0 65473 0 0) []).opDst + 64 := by decide

theorem witness_ZzunscanLoadsInOrder :
    (pending .zzunscan (args 65472 0 0 0) []).opSrc + 64 ≤ State.reset.params.dmemSize ∧
    State.reset.params.dmemSize < (pending .zzunscan (args 65473 0 0 0) []).opSrc + 64 := by decide

theorem witness_ZigzagRoundTrip :
    let s := pending .zzscan (args 65472 65472 0 0) [];
    s.opDst + 64 ≤ s.params.dmemSize ∧ s.opSrc + 64 ≤ s.params.dmemSize ∧ (args 65472 0 0 0).src = s.op.args.dst ∧
    (args 0 65472 0 0).dst = s.op.args.src ∧ exec .zzscan s = .next (ran .zzscan s) ∧
    exec .zzunscan s = .next (ran .zzunscan s) :=
  ⟨by decide, by decide, by decide, by decide, exec_ran _ _, exec_ran _ _⟩

/-- T17: SRC = 65536 with LEN = 0, SRC = 65537 with LEN = 0, and a counter that saturates. -/
theorem witness_FreqaccCountsExactly :
    (pending .freqacc (args 65536 0 0 0) []).opSrc + 0 ≤ State.reset.params.dmemSize ∧
    State.reset.params.dmemSize < (pending .freqacc (args 65537 0 0 0) []).opSrc + 0 ∧
    (let s := { pending .freqacc (args 0 0 3 0) (bytesAt 0 [7, 7, 8]) with freq := (Tab.fill 256 0).set 7 0xFFFFFFFE };
      0xFFFFFFFF < (s.freq.get (byteIx 7)).toNat + (s.readBytes s.opSrc s.opLen).count 7) ∧
    ∀ b : Byte, (State.reset.freq.get (byteIx b)).toNat + (State.readBytes State.reset 0 0).count b ≤ 0xFFFFFFFF := by
  refine ⟨by decide, by decide, by decide +kernel, fun b => ?_⟩
  simp [State.reset, State.powerOn, State.readBytes]

/-- All counts 0; one symbol; two symbols in either order of their counts; T13's 34 Fibonacci counts. -/
theorem witness_TreebuildSmallAndFailingTrees :
    (∀ b, (Tab.fill 256 (0 : Word)).get b = 0) ∧
    (((Tab.fill 256 (0 : Word)).set 42 1000).get 42 ≠ 0 ∧ ∀ c, c ≠ 42 → ((Tab.fill 256 (0 : Word)).set 42 1000).get c = 0) ∧
    (∀ c, c ≠ 0 → c ≠ 255 → (((Tab.fill 256 (0 : Word)).set 0 1).set 255 1).get c = 0) ∧
    (((Tab.fill 256 (0 : Word)).set 0 1).set 255 1).get 0 = 1 ∧ (((Tab.fill 256 (0 : Word)).set 0 1).set 255 1).get 255 = 1 ∧
    (((Tab.fill 256 (0 : Word)).set 0 2).set 255 1).get 0 = 2 ∧ (((Tab.fill 256 (0 : Word)).set 0 2).set 255 1).get 255 = 1 ∧
    (fibFreq 34).get 33 ≠ 0 ∧ 32 < maxCodeLen (buildCodes (fibFreq 34)) := by
  refine ⟨fun b => by simp, ⟨by decide, fun c h => by simp [Tab.get_set, Ne.symm h]⟩,
    fun c h0 h1 => by simp [Tab.get_set, Ne.symm h0, Ne.symm h1], by decide, by decide, by decide, by decide, by decide, by decide +kernel⟩

/-- T13's 33 Fibonacci counts, with MAXLEN 32, and its 34, with MAXLEN 33; in both there are at least two symbols. -/
theorem witness_TreebuildMakesPrefixFreeTable :
    let s := { pending .treebuild Operands.reset [] with freq := fibFreq 33 };
    let u := { pending .treebuild Operands.reset [] with freq := fibFreq 34 };
    s.freq.get 0 ≠ 0 ∧ exec .treebuild s = .next (ran .treebuild s) ∧ (ran .treebuild s).maxlen.toNat ≤ 32 ∧
    u.freq.get 33 ≠ 0 ∧ exec .treebuild u = .next (ran .treebuild u) ∧ 32 < (ran .treebuild u).maxlen.toNat ∧
    2 ≤ ((List.finRange 256).filter fun b => s.freq.get b != 0).length :=
  ⟨by decide, exec_ran _ _, by rw [test_treebuild_lengths.1]; decide, by decide, exec_ran _ _,
   by rw [test_treebuild_lengths.2.1]; decide, by decide +kernel⟩

/-- T14: PUTLEN = 33; DSTLEN too small; DST = 65535; and 0xDEADBEEF behind one carried bit. -/
theorem witness_BbputAppendsBits :
    32 < (pending .bbput { Operands.reset with putlen := 33 } []).opPutlen ∧
    (pending .bbput { Operands.reset with putlen := 32 } []).opPutlen = 32 ∧
    (stream 0x100 3).limit.toNat < (stream 0x100 3).outcnt.toNat + (0 + 32) / 8 ∧
    (stream 65533 4).outcnt.toNat + (0 + 32) / 8 ≤ (stream 65533 4).limit.toNat ∧
    State.reset.params.dmemSize < (stream 65533 4).outptr.toNat + (0 + 32) / 8 ∧
    State.reset.params.wellFormed = true ∧ (1 : Byte).toNat < 2 ^ (1 : Fin 8).val ∧
    (stream 65532 4).outcnt.toNat + (1 + 32) / 8 ≤ (stream 65532 4).limit.toNat ∧
    (stream 65532 4).outptr.toNat + (1 + 32) / 8 ≤ State.reset.params.dmemSize := by decide +kernel

/-- T14: nothing carried; one bit carried with no capacity, out of range, and with both. -/
theorem witness_BbflushClosesStream :
    (stream 0x100 0).nbits = 0 ∧
    (let bb : BitBuffer := ⟨0x100, 0, 0, 1, 1, 1⟩; bb.nbits ≠ 0 ∧ bb.limit.toNat < bb.outcnt.toNat + 1) ∧
    (let bb : BitBuffer := ⟨65536, 0, 1, 1, 1, 1⟩;
      bb.nbits ≠ 0 ∧ bb.outcnt.toNat + 1 ≤ bb.limit.toNat ∧ State.reset.params.dmemSize < bb.outptr.toNat + 1) ∧
    (let bb : BitBuffer := ⟨65535, 0, 1, 1, 1, 1⟩;
      bb.nbits ≠ 0 ∧ bb.outcnt.toNat + 1 ≤ bb.limit.toNat ∧ bb.outptr.toNat + 1 ≤ State.reset.params.dmemSize) := by decide

/-- T14's 101 and FF at the last two bytes of DMEM. -/
theorem witness_BitStreamIsExact :
    let s0 := pending .bbreset (args 0 65534 0 2) [];
    let pairs : List (Word × BitVec 6) := [(0b101, 3), (0xFF, 8)];
    let bits := [true, false, true, true, true, true, true, true, true, true, true];
    s0.params.wellFormed = true ∧ exec .bbreset s0 = .next (ran .bbreset s0) ∧ (∀ p ∈ pairs, p.2.toNat ≤ 32) ∧
    bits = pairs.flatMap (fun p => lowBits p.1 p.2.toNat) ∧ (bits.length + 7) / 8 ≤ s0.opDstlen ∧
    s0.opDst + (bits.length + 7) / 8 ≤ s0.params.dmemSize :=
  ⟨by decide +kernel, exec_ran _ _, by simp,
   by decide +kernel, by decide +kernel, by decide +kernel⟩

/-- T10: the 23 bits of "ABRACADABRA". -/
theorem witness_EncodeAppendsCodes :
    let s := encodeAbra;
    let codes := (s.readBytes s.opSrc s.opLen).flatMap (fun b => (s.code.get (byteIx b)).stream);
    s.params.wellFormed = true ∧ s.bb.acc.toNat < 2 ^ s.bb.nbits.val ∧ s.opSrc + s.opLen ≤ s.params.dmemSize ∧
    (s.readBytes s.opSrc s.opLen).all
      (fun b => 1 ≤ (s.code.get (byteIx b)).len.toNat && (s.code.get (byteIx b)).len.toNat ≤ 32) = true ∧
    codes.length = 23 ∧ s.bb.outcnt.toNat + (s.bb.nbits.val + 23) / 8 ≤ s.bb.limit.toNat ∧
    s.bb.outptr.toNat + (s.bb.nbits.val + 23) / 8 ≤ s.params.dmemSize ∧
    s.opSrc + s.opLen ≤ s.bb.outptr.toNat := by decide +kernel

/-- Each clause: no region; an empty region at DMEM's end; no code; a code of 33 bits; no capacity; no DMEM; and a byte with room. -/
theorem witness_EncodeRunsByteByByte :
    (pending .encode (args 65537 0 0 0) []).params.dmemSize < (pending .encode (args 65537 0 0 0) []).opSrc ∧
    (pending .encode (args 65536 0 0 0) []).opSrc ≤ State.reset.params.dmemSize ∧
    encodeAbra.opSrc + encodeAbra.opLen ≤ encodeAbra.params.dmemSize ∧ 1 ≤ encodeAbra.opLen ∧
    (let e := abraCode.get (byteIx 0x5A); e.len = 0) ∧ (let e : CodeEntry := ⟨0, 33⟩; 32 < e.len.toNat) ∧
    (let e := abraCode.get (byteIx (encodeAbra.readByte encodeAbra.opSrc)); 1 ≤ e.len.toNat ∧ e.len.toNat ≤ 32) ∧
    (let bb : BitBuffer := ⟨0x100, 0, 0, 0, 7, 7⟩; bb.limit.toNat < bb.outcnt.toNat + (bb.nbits.val + 1) / 8) ∧
    (let bb : BitBuffer := ⟨65536, 0, 1, 0, 7, 7⟩;
      bb.outcnt.toNat + (bb.nbits.val + 1) / 8 ≤ bb.limit.toNat ∧
      State.reset.params.dmemSize < bb.outptr.toNat + (bb.nbits.val + 1) / 8) ∧
    (let bb : BitBuffer := ⟨65535, 0, 1, 0, 7, 7⟩;
      bb.outcnt.toNat + (bb.nbits.val + 1) / 8 ≤ bb.limit.toNat ∧
      bb.outptr.toNat + (bb.nbits.val + 1) / 8 ≤ State.reset.params.dmemSize) ∧ State.reset.params.wellFormed = true := by
  decide +kernel

/-- P3's table has the codes of 00 and 9A. -/
theorem pairCode_present (k : Fin 256) (hk : (pairCode.get k).len ≠ 0) : k = 0 ∨ k = 0x9A := by
  by_cases h0 : (0 : Fin 256) = k
  · exact .inl h0.symm
  · by_cases h1 : (0x9A : Fin 256) = k
    · exact .inr h1.symm
    · simp [pairCode, Tab.get_set, h0, h1] at hk

/-- The code table of P3 is prefix-free: its two codes are 0 and 1. -/
theorem pairCode_prefixFree : PrefixFree pairCode := by
  intro i j hij hi hj
  rcases pairCode_present i hi with rfl | rfl <;> rcases pairCode_present j hj with rfl | rfl
  · exact absurd rfl hij
  · decide
  · decide
  · exact absurd rfl hij

theorem pairCode_valid : ValidTable pairCode := (tableValid_iff _).mp (by decide +kernel)

theorem pairCode_firstMatch (b : Fin 256) (h : b = 0 ∨ b = 0x9A) : FirstMatch pairCode b := by
  have hb : (pairCode.get b).len ≠ 0 := by rcases h with rfl | rfl <;> decide
  exact ⟨hb, fun j hj hp => by_contra fun hij => pairCode_prefixFree j b hij hj hb hp⟩

/-- A table in which only 9A has a code, the code 1. -/
def soloCode : Tab CodeEntry 256 := (Tab.fill 256 ⟨0, 0⟩).set 0x9A ⟨1, 1⟩

theorem soloCode_present (k : Fin 256) (hk : (soloCode.get k).len ≠ 0) : k = 0x9A := by
  by_contra h
  simp [soloCode, Tab.get_set, Ne.symm h] at hk

theorem soloCode_noMatch (n : Nat) : NoMatch soloCode (List.replicate n false) := by
  intro j hj hp
  rw [soloCode_present j hj, show (soloCode.get 0x9A).stream = [true] by decide] at hp
  have := List.eq_of_mem_replicate (hp.mem (List.mem_singleton_self true))
  exact absurd this (by decide)

/-- P3's stream, its first three symbols. -/
theorem witness_DecodeRecoversSymbols :
    let s := decodePair 3 3;
    let syms : List Byte := [0x9A, 0, 0];
    ValidTable s.code ∧ PrefixFree s.code ∧ (∀ b ∈ syms, (s.code.get (byteIx b)).len ≠ 0) ∧ s.opBitcnt ≤ 8 * s.opLen ∧
    s.opSrc + (s.opBitcnt + 7) / 8 ≤ s.params.dmemSize ∧
    storedBits s s.opSrc s.opBitcnt = syms.flatMap (fun b => (s.code.get (byteIx b)).stream) ∧ syms.length ≤ s.opDstlen ∧
    s.opDst + syms.length ≤ s.params.dmemSize ∧ Disjoint s.opSrc ((s.opBitcnt + 7) / 8) s.opDst syms.length :=
  ⟨pairCode_valid, pairCode_prefixFree, by decide +kernel, by decide, by decide, by decide +kernel, by decide, by decide,
   .inr (.inr (.inl (by decide)))⟩

/-- What `DecodeReportsProgress` asks of a run into its loop. -/
def LoopReached (s : State) (syms : List Byte) (rest : List Bool) : Prop :=
  ValidTable s.code ∧ s.opBitcnt ≤ 8 * s.opLen ∧ s.opSrc + (s.opBitcnt + 7) / 8 ≤ s.params.dmemSize ∧
  (∀ b ∈ syms, FirstMatch s.code (byteIx b)) ∧ storedBits s s.opSrc s.opBitcnt = codesOf s.code syms ++ rest ∧
  syms.length ≤ s.opDstlen ∧ (∀ n, n < syms.length → s.opDst + n < s.params.dmemSize) ∧
  Disjoint s.opSrc ((s.opBitcnt + 7) / 8) s.opDst syms.length

/-- P3's DECODE with the table `soloCode`. -/
def decodeSolo (n : DWord) : State := { decodePair n 1 with code := soloCode }

theorem decodeSolo_loopReached (n : DWord) (rest : List Bool) (h : n = 33 ∨ n = 2) (hr : rest = List.replicate (n.toNat - 1) false) :
    LoopReached (decodeSolo n) [0x9A] rest := by
  have hm : ∀ b ∈ ([0x9A] : List Byte), FirstMatch soloCode (byteIx b) := by
    intro b hb
    rw [List.mem_singleton.mp hb]
    exact ⟨by decide, fun j hj _ => soloCode_present j hj⟩
  have hv : ValidTable soloCode := (tableValid_iff _).mp (by decide +kernel)
  rw [hr]
  rcases h with rfl | rfl <;>
    exact ⟨hv, by decide, by decide, hm, by decide +kernel, by decide, by decide, .inr (.inr (.inl (by decide)))⟩

/-- Tables with a duplicate code and with a code of 33 bits; 65 bits of 8 bytes; 64 bits at an address with 7 bytes left; P3's three symbols at
the stream's end, with no capacity and with no DMEM for a fourth; 32 bits without a match, and one; and a run that succeeds. -/
theorem witness_DecodeReportsProgress :
    (¬ ValidTable (((Tab.fill 256 ⟨0, 0⟩).set 1 ⟨1, 1⟩).set 2 ⟨3, 1⟩) ∧ ¬ ValidTable ((Tab.fill 256 ⟨0, 0⟩).set 0 ⟨0, 33⟩)) ∧
    8 * (decodePair 65 1).opLen < (decodePair 65 1).opBitcnt ∧
    (let s := { decodePair 64 1 with op := ⟨0x10, { args 65529 0 8 1 with bitcnt := 64 }⟩ };
      s.opBitcnt ≤ 8 * s.opLen ∧ s.params.dmemSize < s.opSrc + (s.opBitcnt + 7) / 8) ∧
    LoopReached (decodePair 3 3) [0x9A, 0, 0] [] ∧
    (LoopReached (decodePair 4 3) [0x9A, 0, 0] [false] ∧ FirstMatch pairCode 0 ∧ (pairCode.get 0).stream <+: [false] ∧
      [0x9A, 0, 0].length = (decodePair 4 3).opDstlen) ∧
    (let s := { decodePair 4 64 with op := ⟨0x10, { args 0x300 65533 8 64 with bitcnt := 4 }⟩ };
      LoopReached s [0x9A, 0, 0] [false] ∧ [0x9A, 0, 0].length < s.opDstlen ∧
      s.params.dmemSize ≤ s.opDst + [0x9A, 0, 0].length) ∧
    (LoopReached (decodeSolo 33) [0x9A] (List.replicate 32 false) ∧ NoMatch soloCode (List.replicate 32 false)) ∧
    (LoopReached (decodeSolo 2) [0x9A] (List.replicate 1 false) ∧ NoMatch soloCode (List.replicate 1 false)) ∧
    (ran .decode (decodePair 3 3)).status.err = false := by
  have hm : ∀ b ∈ ([0x9A, 0, 0] : List Byte), FirstMatch pairCode (byteIx b) := by
    intro b hb
    simp only [List.mem_cons, List.not_mem_nil, or_false] at hb
    rcases hb with rfl | rfl | rfl
    · exact pairCode_firstMatch _ (.inr (by decide))
    · exact pairCode_firstMatch _ (.inl (by decide))
    · exact pairCode_firstMatch _ (.inl (by decide))
  refine ⟨⟨fun h => ?_, fun h => ?_⟩, by decide, by decide, ?_, ⟨?_, pairCode_firstMatch _ (.inl rfl), by decide, by decide⟩,
    ⟨?_, by decide, by decide⟩, ⟨decodeSolo_loopReached _ _ (.inl rfl) (by decide), soloCode_noMatch _⟩,
    ⟨decodeSolo_loopReached _ _ (.inr rfl) (by decide), soloCode_noMatch _⟩, by decide +kernel⟩
  · exact absurd ((tableValid_iff _).mpr h) (by decide +kernel)
  · exact absurd ((tableValid_iff _).mpr h) (by decide +kernel)
  · exact ⟨pairCode_valid, by decide, by decide, hm, by decide +kernel, by decide, by decide, .inr (.inr (.inl (by decide)))⟩
  · exact ⟨pairCode_valid, by decide, by decide, hm, by decide +kernel, by decide, by decide, .inr (.inr (.inl (by decide)))⟩
  · exact ⟨pairCode_valid, by decide, by decide, hm, by decide +kernel, by decide, by decide, .inr (.inr (.inl (by decide)))⟩

/-- ENCODE of 9A 00 00 with P3's table (codes 1 0 0, the byte 80), BBFLUSH, and DECODE's operands. -/
theorem witness_HuffmanRoundTrip :
    let s := { pending .encode (args 0 0 3 0) (bytesAt 0 [0x9A, 0, 0]) with bb := stream 0x300 1, code := pairCode };
    let t := ran .encode s;
    let u := ran .bbflush t;
    let a : Operands := { args 0x300 0x400 1 3 with bitcnt := 3 };
    (s.params.wellFormed = true ∧ 1 ≤ s.opLen ∧ s.bb.nbits = 0 ∧ s.bb.acc = 0 ∧ s.bb.tot = 0 ∧
      s.bb.outcnt = 0 ∧ s.status.err = false ∧ (s.readBytes s.opSrc s.opLen).all (fun b => (s.code.get (byteIx b)).len != 0) = true ∧
      t.status.err = false ∧ u.status.err = false ∧ s.opSrc + s.opLen ≤ s.bb.outptr.toNat ∧ a.src = s.bb.outptr ∧
      a.len = u.bb.outcnt ∧ a.bitcnt = u.regs.bitcnt ∧ s.opLen ≤ a.dstlen.toNat ∧
      a.dst.toNat + s.opLen ≤ s.params.dmemSize ∧ s.bb.outptr.toNat + u.bb.outcnt.toNat ≤ a.dst.toNat) ∧
    ValidTable s.code ∧ PrefixFree s.code ∧ exec .encode s = .next t ∧ exec .bbflush t = .next u :=
  ⟨by decide +kernel, pairCode_valid, pairCode_prefixFree, exec_ran _ _, exec_ran _ _⟩

/-- Adding products with +0.0 to +0.0, for every cosine and either sign. -/
theorem zero_products : ∀ i, F64.add F64.zero (F64.mul F64.zero (Config.defaultCosTable.get i)) = F64.zero := by decide +kernel

theorem sum8_zero (f : Fin 8 → F64) (h : ∀ k, F64.add F64.zero (f k) = F64.zero) : sum8 f = F64.zero := by
  unfold sum8
  induction List.finRange 8 with
  | nil => rfl
  | cons k l ih => rw [List.foldl_cons, h k, ih]

/-- T4: all samples 128, whose level-shifted values are +0.0, give +0.0 in every cell. -/
theorem flat_forward (s : State) (hp : s.params = Params.default) (hb : s.blockInRange s.opSrc = true)
    (h : (Tab.ofFn fun i => levelShift ((readBlock s s.opSrc).get i)) = Tab.fill 64 F64.zero) (i : Fin 64) :
    (ran .fdct s).coef.get i = F64.zero := by
  have rows : fdctRows Params.default (Tab.fill 64 F64.zero) = Tab.fill 64 F64.zero := by
    refine Tab.ext_get fun i => ?_
    rw [fdctRows, Tab.get_ofFn, Tab.get_fill]
    exact sum8_zero _ fun k => by rw [Tab.get_fill]; exact zero_products _
  have scale : ∀ u v, F64.mul (F64.mul (F64.mul beta (alpha u)) (alpha v)) F64.zero = F64.zero := by decide +kernel
  simp only [ran, exec, execFdct, runFdct, hb, if_true, finish_eq, ok_state, complete_coef, fdctBody, forwardDct, hp, h, rows,
    fdctCols, Tab.get_ofFn]
  rw [sum8_zero _ fun k => by rw [Tab.get_fill]; exact zero_products _, scale]

/-- No source block; no destination; both, and finite coefficients. -/
theorem witness_BlkencRunsItsStages :
    ¬ BlockExists (pending .blkenc (args 65473 0 0 0) []) 65473 ∧
    (let s := pending .blkenc (args 65472 65473 0 0) []; BlockExists s s.opSrc ∧ s.params.dmemSize < s.opDst + 64) ∧
    (let s := pending .blkenc (args 0 65472 0 0) (flat 128);
      BlockExists s s.opSrc ∧ s.opDst + 64 ≤ s.params.dmemSize ∧ ∀ i, F64.isFinite ((ran .fdct s).coef.get i) = true) := by
  refine ⟨by unfold BlockExists; decide +kernel, by unfold BlockExists; decide +kernel, by unfold BlockExists; decide +kernel,
    by decide, fun i => ?_⟩
  rw [flat_forward _ rfl (by decide +kernel) (by decide +kernel)]
  decide

/-- T2: COEF all +0.0 gives 128.0 in every cell. -/
theorem zero_inverse (s : State) (hp : s.params = Params.default) (h : s.coef = Tab.fill 64 F64.zero) (i : Fin 64) :
    (ran .idct s).coef.get i = f128 := by
  have one : ∀ v, F64.mul F64.zero (alpha v) = F64.zero := by decide +kernel
  have rows : idctRows Params.default (Tab.fill 64 F64.zero) = Tab.fill 64 F64.zero := by
    refine Tab.ext_get fun i => ?_
    rw [idctRows, Tab.get_ofFn, Tab.get_fill]
    exact sum8_zero _ fun k => by rw [Tab.get_fill, one]; exact zero_products _
  have shift : F64.add (F64.mul beta F64.zero) f128 = f128 := by decide +kernel
  have num : F64.isNaN f128 = false := by decide
  simp only [ran, exec, execIdct, finish_eq, ok_state, complete_coef, idctBody, inverseDct, hp, h, rows, idctCols, Tab.get_ofFn]
  rw [sum8_zero _ fun k => by rw [Tab.get_fill, one]; exact zero_products _, shift]
  simp only [settleNaN, num, Bool.false_eq_true, if_false]

/-- No source; no destination block; both, and no NaN. -/
theorem witness_BlkdecRunsItsStages :
    State.reset.params.dmemSize < (pending .blkdec (args 65473 0 0 0) []).opSrc + 64 ∧
    (let s := pending .blkdec (args 65472 65473 0 0) []; s.opSrc + 64 ≤ s.params.dmemSize ∧ ¬ BlockExists s s.opDst) ∧
    (let s := pending .blkdec (args 0 65472 0 0) (flat 0);
      s.opSrc + 64 ≤ s.params.dmemSize ∧ BlockExists s s.opDst ∧
      ∀ i, F64.isNaN ((ran .idct (ran .dequant (ran .zzunscan s))).coef.get i) = false) := by
  refine ⟨by decide, by unfold BlockExists; decide +kernel, by decide, by unfold BlockExists; decide +kernel, fun i => ?_⟩
  rw [zero_inverse _ (by decide +kernel) (by decide +kernel)]
  decide

end Sys2Proof.Tests
end

section
/-! SUPPORT. Binary64 patterns as rationals (00_scope.md R15): the lower 63 bits of a finite pattern number the magnitudes in ascending order, and
`F64.round` places the exact result on them. -/

namespace Sys2Proof.Machine.F64

/-! ### Fields of a pattern -/

/-- The lower 63 bits: the pattern without its sign. -/
def mag (x : F64) : ℕ := x.toNat % 2 ^ 63

/-- The sign as a factor. -/
def sgn (n : Bool) : ℚ := if n then -1 else 1

theorem sgn_xor (m n : Bool) : sgn (m != n) = sgn m * sgn n := by cases m <;> cases n <;> simp [sgn]

theorem sgn_div (m n : Bool) : sgn m / sgn n = sgn (m != n) := by cases m <;> cases n <;> simp [sgn]

theorem sgn_mul_self (n : Bool) : sgn n * sgn n = 1 := by cases n <;> simp [sgn]

theorem abs_sgn (n : Bool) : |sgn n| = 1 := by cases n <;> simp [sgn]

theorem sgn_ne_zero (n : Bool) : sgn n ≠ 0 := by cases n <;> simp [sgn]

theorem mag_lt (x : F64) : mag x < 2 ^ 63 := Nat.mod_lt _ (by decide)

theorem expo_eq (x : F64) : expo x = mag x / 2 ^ 52 := by
  rw [expo, mag, Nat.shiftRight_eq_div_pow]; omega

theorem frac_eq (x : F64) : frac x = mag x % 2 ^ 52 := by rw [frac, mag]; omega

theorem isFinite_iff {x : F64} : isFinite x = true ↔ mag x < infMag := by
  have := mag_lt x
  simp only [isFinite, expo_eq, bne_iff_ne, infMag]; omega

theorem isInf_iff {x : F64} : isInf x = true ↔ mag x = infMag := by
  have := mag_lt x
  simp only [isInf, expo_eq, frac_eq, Bool.and_eq_true, beq_iff_eq, infMag]; omega

theorem isNaN_iff {x : F64} : isNaN x = true ↔ infMag < mag x := by
  have := mag_lt x
  simp only [isNaN, expo_eq, frac_eq, Bool.and_eq_true, beq_iff_eq, bne_iff_ne, infMag]; omega

theorem not_isNaN_of_isFinite {x : F64} (h : isFinite x = true) : isNaN x = false := by
  rw [isFinite_iff] at h; rw [Bool.eq_false_iff, ne_eq, isNaN_iff]; omega

theorem not_isInf_of_isFinite {x : F64} (h : isFinite x = true) : isInf x = false := by
  rw [isFinite_iff] at h; rw [Bool.eq_false_iff, ne_eq, isInf_iff]; omega

theorem not_isNaN_of_isInf {x : F64} (h : isInf x = true) : isNaN x = false := by
  rw [isInf_iff] at h; rw [Bool.eq_false_iff, ne_eq, isNaN_iff]; omega

theorem not_isFinite_of_isInf {x : F64} (h : isInf x = true) : isFinite x = false := by
  rw [isInf_iff] at h; rw [Bool.eq_false_iff, ne_eq, isFinite_iff]; omega

theorem toNat_pack (n : Bool) {M : ℕ} (h : M < 2 ^ 63) : (pack n M).toNat = (if n then 2 ^ 63 else 0) + M := by
  rw [pack, BitVec.toNat_ofNat]; split <;> omega

theorem mag_pack (n : Bool) {M : ℕ} (h : M < 2 ^ 63) : mag (pack n M) = M := by
  rw [mag, toNat_pack n h]; split <;> omega

theorem neg_pack (n : Bool) {M : ℕ} (h : M < 2 ^ 63) : neg (pack n M) = n := by
  rw [neg, ← BitVec.testBit_toNat, toNat_pack n h, Nat.testBit_eq_decide_div_mod_eq]
  cases n <;> simp <;> omega

/-! ### Magnitudes -/

/-- The significand of the magnitude numbered `M`. -/
def sigOf (M : ℕ) : ℕ := if M / 2 ^ 52 = 0 then M % 2 ^ 52 else M % 2 ^ 52 + 2 ^ 52

/-- The exponent of the last place of the magnitude numbered `M`. -/
def ulpOf (M : ℕ) : ℤ := (if M / 2 ^ 52 = 0 then 1 else ((M / 2 ^ 52 : ℕ) : ℤ)) - 1075

/-- The magnitude numbered `M`. -/
def magValue (M : ℕ) : ℚ := sigOf M * 2 ^ ulpOf M

theorem sig_eq (x : F64) : sig x = sigOf (mag x) := by rw [sig, sigOf, expo_eq, frac_eq]

theorem ulp_eq (x : F64) : ulp x = ulpOf (mag x) := by rw [ulp, ulpOf, expo_eq]

theorem value_eq (x : F64) : value x = sgn (neg x) * (sig x * 2 ^ ulp x) := mul_assoc _ _ _

theorem value_eq_magValue (x : F64) : value x = sgn (neg x) * magValue (mag x) := by
  rw [value_eq, magValue, sig_eq, ulp_eq]

theorem sig_lt (x : F64) : sig x < 2 ^ 53 := by rw [sig_eq, sigOf]; split <;> omega

theorem ulp_ge (x : F64) : -1074 ≤ ulp x := by rw [ulp_eq, ulpOf]; split <;> omega

theorem value_eq_zero_iff {x : F64} : value x = 0 ↔ sig x = 0 := by
  rw [value_eq, mul_eq_zero, mul_eq_zero]
  simp [sgn_ne_zero, zpow_ne_zero]

/-- The pattern `round` makes from the exponent `K − 1074` of the last place and a significand `s`, a carry `s = 2^53` included. -/
theorem magValue_place {K s : ℕ} (hs : s ≤ 2 ^ 53) (hK : K = 0 ∨ 2 ^ 52 ≤ s) :
    magValue (K * 2 ^ 52 + s) = s * 2 ^ ((K : ℤ) - 1074) := by
  rcases lt_trichotomy s (2 ^ 53) with h | h | h
  · have hsig : sigOf (K * 2 ^ 52 + s) = s := by rw [sigOf]; split <;> omega
    have hulp : ulpOf (K * 2 ^ 52 + s) = (K : ℤ) - 1074 := by rw [ulpOf]; split <;> omega
    rw [magValue, hsig, hulp]
  · have hsig : sigOf (K * 2 ^ 52 + s) = 2 ^ 52 := by rw [sigOf]; split <;> omega
    have hulp : ulpOf (K * 2 ^ 52 + s) = (K : ℤ) - 1074 + 1 := by rw [ulpOf]; split <;> omega
    rw [magValue, hsig, hulp, h, zpow_add_one₀ two_ne_zero]
    push_cast; ring
  · omega

theorem magValue_strictMono : StrictMono magValue := by
  refine strictMono_nat_of_lt_succ fun M => ?_
  obtain ⟨K, s, rfl, hs, hK⟩ : ∃ K s, M = K * 2 ^ 52 + s ∧ s < 2 ^ 53 ∧ (K = 0 ∨ 2 ^ 52 ≤ s) :=
    ⟨M / 2 ^ 52 - 1, M - (M / 2 ^ 52 - 1) * 2 ^ 52, by omega, by omega, by omega⟩
  rw [add_assoc, magValue_place hs.le hK, magValue_place hs (by omega)]
  push_cast
  have : (0 : ℚ) < 2 ^ ((K : ℤ) - 1074) := by positivity
  linarith

theorem magValue_nonneg (M : ℕ) : 0 ≤ magValue M := by unfold magValue; positivity

theorem magValue_pos_iff {M : ℕ} : 0 < magValue M ↔ 0 < M := by
  have zero : magValue 0 = 0 := by simp [magValue, sigOf]
  rw [← zero, magValue_strictMono.lt_iff_lt]

theorem rank_eq (x : F64) : rank x = if neg x then -(mag x : ℤ) else mag x := rfl

/-- `rank` orders the patterns as their values, −0.0 and +0.0 alike. -/
theorem rank_lt_rank_iff (a b : F64) : rank a < rank b ↔ value a < value b := by
  have ha := magValue_nonneg (mag a)
  have hb := magValue_nonneg (mag b)
  rw [rank_eq, rank_eq, value_eq_magValue, value_eq_magValue]
  cases neg a <;> cases neg b <;> simp only [sgn, Bool.false_eq_true, if_true, if_false, one_mul, neg_one_mul]
  case false.false => rw [magValue_strictMono.lt_iff_lt, Nat.cast_lt]
  case false.true => constructor <;> intro <;> [omega; linarith]
  case true.false =>
    rw [show -(mag a : ℤ) < mag b ↔ 0 < mag a ∨ 0 < mag b by omega, ← magValue_pos_iff, ← magValue_pos_iff]
    constructor
    · rintro (h | h) <;> linarith
    · intro h; by_contra! hc; linarith [hc.1, hc.2]
  case true.true => rw [neg_lt_neg_iff, neg_lt_neg_iff, magValue_strictMono.lt_iff_lt, Nat.cast_lt]

/-! ### Rounding to an integer -/

/-- `s` is the integer nearest to `x`, ties to even. -/
def NearestEven (x : ℚ) (s : ℕ) : Prop := |x - s| ≤ 1 / 2 ∧ (|x - s| = 1 / 2 → s % 2 = 0)

theorem NearestEven.eq_of_natCast {i s : ℕ} (h : NearestEven i s) : s = i := by
  obtain ⟨h, -⟩ := h
  rw [abs_le] at h
  have h1 : (s : ℚ) < i + 1 := by linarith
  have h2 : (i : ℚ) < s + 1 := by linarith
  norm_cast at h1 h2; omega

theorem nearestEven_natCast (i : ℕ) : NearestEven i i := by simp [NearestEven]

/-- No other integer is nearer, and one as near means that `s` is even. -/
theorem NearestEven.dist_le {x : ℚ} {s : ℕ} (h : NearestEven x s) {t : ℤ} (ht : (t : ℚ) ≠ s) :
    |s - x| ≤ |t - x| ∧ (|s - x| = |t - x| → s % 2 = 0) := by
  obtain ⟨hle, htie⟩ := h
  have far : (1 : ℚ) ≤ |(t : ℚ) - s| := by
    have : t ≠ (s : ℤ) := by rintro rfl; simp at ht
    have := Int.one_le_abs (sub_ne_zero.mpr this)
    exact_mod_cast this
  have tri := abs_sub_le (t : ℚ) x s
  rw [abs_sub_comm] at hle htie
  rw [abs_sub_comm x] at tri
  exact ⟨by linarith, fun he => htie (by linarith)⟩

theorem shiftRightEven_nearest (m k : ℕ) : NearestEven (m / 2 ^ k) (shiftRightEven m k) := by
  have hp : (0 : ℚ) < 2 ^ k := by positivity
  have hm : (m : ℚ) / 2 ^ k = (m / 2 ^ k : ℕ) + (m % 2 ^ k : ℕ) / 2 ^ k := by
    rw [div_eq_iff hp.ne', add_mul, div_mul_cancel₀ _ hp.ne']
    exact_mod_cast (Nat.div_add_mod' m (2 ^ k)).symm
  have hr : ((m % 2 ^ k : ℕ) : ℚ) / 2 ^ k < 1 := by
    rw [div_lt_one hp]; exact_mod_cast Nat.mod_lt m (by positivity)
  have hr0 : (0 : ℚ) ≤ ((m % 2 ^ k : ℕ) : ℚ) / 2 ^ k := by positivity
  rw [hm, shiftRightEven, Nat.shiftRight_eq_div_pow]
  generalize m / 2 ^ k = q at *
  generalize m % 2 ^ k = r at *
  have lo : 2 * r < 2 ^ k ↔ (r : ℚ) / 2 ^ k < 1 / 2 := by
    rw [div_lt_iff₀ hp, ← Nat.cast_lt (α := ℚ)]; push_cast; constructor <;> intro <;> linarith
  have hi : 2 ^ k < 2 * r ↔ 1 / 2 < (r : ℚ) / 2 ^ k := by
    rw [lt_div_iff₀ hp, ← Nat.cast_lt (α := ℚ)]; push_cast; constructor <;> intro <;> linarith
  generalize (r : ℚ) / 2 ^ k = f at *
  rw [NearestEven]
  split_ifs with below above
  · rw [add_sub_cancel_left, abs_of_nonneg hr0]
    have := lo.mp below
    exact ⟨this.le, fun he => absurd he this.ne⟩
  · have := hi.mp above
    push_cast
    rw [add_sub_add_left_eq_sub, abs_of_nonpos (by linarith)]
    exact ⟨by linarith, fun _ => by linarith⟩
  · have half : f = 1 / 2 := le_antisymm (not_lt.mp (mt hi.mpr above)) (not_lt.mp (mt lo.mpr below))
    rw [half]; push_cast
    rcases Nat.mod_two_eq_zero_or_one q with h | h <;> rw [h]
    · norm_num; exact h
    · norm_num; omega

/-! ### Placing a rounded significand -/

/-- Counted in units of the last place `K − 1074`, the exact magnitude is `x`: it has 53 bits there, or the place is that of the subnormals; and
`s` is its nearest integer. -/
structure Placed (x : ℚ) (K s : ℕ) : Prop where
  nonneg : 0 ≤ x
  lt : x < 2 ^ 53
  ge : K = 0 ∨ 2 ^ 52 ≤ x
  near : NearestEven x s

theorem Placed.sig_le {x : ℚ} {K s : ℕ} (h : Placed x K s) : s ≤ 2 ^ 53 := by
  have hn := abs_le.mp h.near.1
  have : (s : ℚ) < (2 ^ 53 : ℕ) + 1 := by push_cast; linarith [h.lt]
  norm_cast at this; omega

theorem Placed.sig_ge {x : ℚ} {K s : ℕ} (h : Placed x K s) : K = 0 ∨ 2 ^ 52 ≤ s := by
  refine h.ge.imp_right fun hx => ?_
  have hn := abs_le.mp h.near.1
  have : ((2 ^ 52 : ℕ) : ℚ) < s + 1 := by push_cast; linarith
  norm_cast at this; omega

/-- In the binade of the greatest finite magnitude, only what lies below the last halfway point does not carry out of it. -/
theorem Placed.lt_carry_iff {x : ℚ} {K s : ℕ} (h : Placed x K s) : s < 2 ^ 53 ↔ x < 2 ^ 53 - 1 / 2 := by
  obtain ⟨hlo, hhi⟩ := abs_le.mp h.near.1
  constructor
  · intro hlt
    have hs : (s : ℚ) + 1 ≤ 2 ^ 53 := by exact_mod_cast (by omega : s + 1 ≤ 2 ^ 53)
    by_contra! hx
    have htie := h.near.2 (by rw [abs_of_nonneg (by linarith)]; linarith)
    have heq : s + 1 = 2 ^ 53 := by
      have : (s : ℚ) + 1 = 2 ^ 53 := by linarith
      exact_mod_cast this
    omega
  · intro hx
    have : (s : ℚ) < 2 ^ 53 := by linarith
    exact_mod_cast this

/-- The rounded magnitude is past the greatest finite one exactly from halfway past it. -/
theorem Placed.lt_infMag_iff {x : ℚ} {K s : ℕ} (h : Placed x K s) :
    K * 2 ^ 52 + s < infMag ↔ x * 2 ^ ((K : ℤ) - 1074) < 2 ^ 1024 - 2 ^ 970 := by
  have hs := h.sig_le
  have hge := h.sig_ge
  have limit : (2 : ℚ) ^ 1024 - 2 ^ 970 = (2 ^ 54 - 1) * 2 ^ 970 := by rw [sub_mul, ← pow_add, one_mul]
  have unit : (2 : ℚ) ^ ((K : ℤ) - 1074) = 2 ^ ((K : ℤ) - 2044) * 2 ^ 970 := by
    rw [← zpow_natCast, ← zpow_add₀ two_ne_zero]; congr 1; push_cast; ring
  rw [limit, unit, ← mul_assoc, mul_lt_mul_iff_left₀ (by positivity), infMag]
  rcases lt_trichotomy K 2045 with hK | rfl | hK
  · have : (2 : ℚ) ^ ((K : ℤ) - 2044) ≤ 1 := zpow_le_one_of_nonpos₀ (by norm_num) (by omega)
    have : x * 2 ^ ((K : ℤ) - 2044) ≤ x := mul_le_of_le_one_right h.nonneg this
    exact iff_of_true (by omega) (by linarith [h.lt])
  · have hunit : (2 : ℚ) ^ (((2045 : ℕ) : ℤ) - 2044) = 2 := by norm_num
    rw [show 2045 * 2 ^ 52 + s < 2047 * 2 ^ 52 ↔ s < 2 ^ 53 by omega, h.lt_carry_iff, hunit]
    constructor <;> intro <;> linarith
  · have hx := h.ge.resolve_left (by omega)
    have : (2 : ℚ) ^ (2 : ℤ) ≤ 2 ^ ((K : ℤ) - 2044) := zpow_le_zpow_right₀ (by norm_num) (by omega)
    have : (2 : ℚ) ^ 52 * 2 ^ (2 : ℤ) ≤ x * 2 ^ ((K : ℤ) - 2044) := mul_le_mul hx this (by positivity) h.nonneg
    norm_num at this
    exact iff_of_false (by omega) (by linarith)

/-- A number too small to have 53 bits at the place is farther off than the rounded significand: 2^52 lies between. -/
theorem Placed.dist_lt_of_small {x z : ℚ} {K s : ℕ} (h : Placed x K s) (hx : 2 ^ 52 ≤ x) (hz : |z| < 2 ^ 52) :
    |s - x| < |z - x| := by
  have hz' := (abs_lt.mp hz).2
  have base : |(s : ℚ) - x| ≤ |((2 ^ 52 : ℤ) : ℚ) - x| := by
    by_cases hs : ((2 ^ 52 : ℤ) : ℚ) = s
    · rw [hs]
    · exact (h.near.dist_le hs).1
  refine lt_of_le_of_lt base ?_
  push_cast
  rw [abs_of_nonpos (by linarith), abs_of_neg (by linarith)]
  linarith

/-- A value is a whole number of units 2^q, or too small to have 53 bits there. -/
theorem value_lattice (y : F64) (q : ℤ) :
    (∃ t : ℤ, value y = t * 2 ^ q) ∨ (-1074 < q ∧ |value y| < 2 ^ 52 * 2 ^ q) := by
  rcases le_or_gt q (ulp y) with h | h
  · obtain ⟨k, hk⟩ := Int.eq_ofNat_of_zero_le (sub_nonneg.mpr h)
    have hu : ulp y = k + q := by omega
    refine .inl ⟨(if neg y then -1 else 1) * sig y * 2 ^ k, ?_⟩
    rw [value, hu, zpow_add₀ two_ne_zero, zpow_natCast]
    push_cast; ring
  · refine .inr ⟨lt_of_le_of_lt (ulp_ge y) h, ?_⟩
    rw [value_eq, abs_mul, abs_sgn, one_mul, abs_of_nonneg (by positivity)]
    have hs : (sig y : ℚ) < 2 ^ 53 := by exact_mod_cast sig_lt y
    calc (sig y : ℚ) * 2 ^ ulp y < 2 ^ 53 * 2 ^ ulp y := by gcongr
      _ ≤ 2 ^ 53 * 2 ^ (q - 1) := by gcongr <;> [norm_num; omega]
      _ = 2 ^ 52 * 2 ^ q := by rw [zpow_sub_one₀ two_ne_zero]; ring

/-- No value lies nearer to a placed magnitude than the rounded one does. -/
theorem Placed.nearest {x : ℚ} {K s : ℕ} (h : Placed x K s) (n : Bool) (y : F64) :
    let u := (2 : ℚ) ^ ((K : ℤ) - 1074)
    |sgn n * (s * u) - sgn n * (x * u)| ≤ |value y - sgn n * (x * u)| ∧
    (|sgn n * (s * u) - sgn n * (x * u)| = |value y - sgn n * (x * u)| → value y ≠ sgn n * (s * u) → s % 2 = 0) := by
  intro u
  have hu : 0 < u := by positivity
  obtain ⟨z, hz⟩ : ∃ z, value y = sgn n * (z * u) :=
    ⟨sgn n * value y / u, by rw [div_mul_cancel₀ _ hu.ne', ← mul_assoc, sgn_mul_self, one_mul]⟩
  have scale (w : ℚ) : |sgn n * (w * u) - sgn n * (x * u)| = |w - x| * u := by
    rw [← mul_sub, ← sub_mul, abs_mul, abs_mul, abs_sgn, one_mul, abs_of_pos hu]
  rw [hz, scale, scale, mul_le_mul_iff_left₀ hu, mul_left_inj' hu.ne']
  rcases value_lattice y ((K : ℤ) - 1074) with ⟨t, ht⟩ | ⟨hq, hy⟩
  · obtain ⟨j, rfl⟩ : ∃ j : ℤ, z = j := by
      have hzt : sgn n * z = t := mul_right_cancel₀ hu.ne' (by rw [mul_assoc, ← hz, ht])
      cases n
      · exact ⟨t, by simpa [sgn] using hzt⟩
      · exact ⟨-t, by rw [Int.cast_neg, ← hzt]; simp [sgn]⟩
    by_cases hj : (j : ℚ) = s
    · rw [hj]; exact ⟨le_rfl, fun _ hc => absurd rfl hc⟩
    · obtain ⟨hle, heven⟩ := h.near.dist_le hj
      exact ⟨hle, fun he _ => heven he⟩
  · have hzlt : |z| < 2 ^ 52 := by
      rw [hz, abs_mul, abs_sgn, one_mul, abs_mul, abs_of_pos hu] at hy
      exact lt_of_mul_lt_mul_right hy hu.le
    have strict := h.dist_lt_of_small (h.ge.resolve_left (by omega)) hzlt
    exact ⟨strict.le, fun he => absurd he strict.ne⟩

theorem place_mag_lt (K s : ℕ) : min (K * 2 ^ 52 + s) infMag < 2 ^ 63 := by rw [infMag]; omega

theorem Placed.value_pack {x : ℚ} {K s : ℕ} (h : Placed x K s) (n : Bool) (hf : K * 2 ^ 52 + s < infMag) :
    value (pack n (min (K * 2 ^ 52 + s) infMag)) = sgn n * (s * 2 ^ ((K : ℤ) - 1074)) := by
  have hM := place_mag_lt K s
  rw [value_eq_magValue, neg_pack n hM, mag_pack n hM, min_eq_left hf.le, magValue_place h.sig_le h.sig_ge]

theorem sgn_mul_lt_zero_iff {n : Bool} {w : ℚ} (hw : 0 ≤ w) (h0 : sgn n * w ≠ 0) : n = true ↔ sgn n * w < 0 := by
  have hpos : 0 < w := lt_of_le_of_ne hw fun h => h0 (by rw [← h, mul_zero])
  cases n <;> simp [sgn, hpos, hw]

/-- The pattern of a placed and rounded magnitude is the correctly rounded one. -/
theorem Placed.roundsTo {x : ℚ} {K s : ℕ} (h : Placed x K s) (n : Bool) :
    RoundsTo (sgn n * (x * 2 ^ ((K : ℤ) - 1074))) (pack n (min (K * 2 ^ 52 + s) infMag)) := by
  have hM := place_mag_lt K s
  have hv : 0 ≤ x * 2 ^ ((K : ℤ) - 1074) := mul_nonneg h.nonneg (by positivity)
  rw [RoundsTo, abs_mul, abs_sgn, one_mul, abs_of_nonneg hv, ← h.lt_infMag_iff, neg_pack n hM,
    ← not_lt, ← h.lt_infMag_iff, isFinite_iff, isInf_iff, frac_eq, mag_pack n hM]
  refine ⟨fun hf => ⟨by omega, fun y _ => ?_⟩, fun hf => by omega, sgn_mul_lt_zero_iff hv⟩
  obtain ⟨hle, heven⟩ := h.nearest n y
  rw [h.value_pack n hf]
  exact ⟨hle, fun he hne => by have := heven he hne; omega⟩

/-! ### `round` -/

/-- `m` stands for the magnitude `w` in rounding: it is `w`, or an odd number that marks `w` as strictly between its two even neighbours, with two
bits at least below the 53 that are kept. -/
def Sticky (w : ℚ) (m : ℕ) : Prop := w = m ∨ (2 ^ 54 ≤ m ∧ m % 2 = 1 ∧ |w - m| < 1)

theorem Sticky.nearest {w : ℚ} {m : ℕ} (h : Sticky w m) {k : ℕ} (hk : 2 ^ 54 ≤ m → 2 ≤ k) :
    NearestEven (w / 2 ^ k) (shiftRightEven m k) := by
  have near := shiftRightEven_nearest m k
  obtain rfl | ⟨hm, hodd, hw⟩ := h
  · exact near
  obtain ⟨j, rfl⟩ := Nat.exists_eq_add_of_le (hk hm)
  generalize shiftRightEven m (2 + j) = s at *
  have hp : (0 : ℚ) < 2 ^ (2 + j) := by positivity
  have hpow : (2 : ℚ) ^ (2 + j) = 4 * 2 ^ j := by rw [pow_add]; norm_num
  obtain ⟨hlo, hhi⟩ := abs_le.mp near.1
  have lo : 4 * (s * 2 ^ j) ≤ m + 2 * 2 ^ j := by
    have : ((s : ℚ) - 1 / 2) * 2 ^ (2 + j) ≤ m := by rw [← le_div_iff₀ hp]; linarith
    rw [← Nat.cast_le (α := ℚ)]; push_cast; rw [hpow] at this; linarith
  have hi : m ≤ 4 * (s * 2 ^ j) + 2 * 2 ^ j := by
    have : (m : ℚ) ≤ (s + 1 / 2) * 2 ^ (2 + j) := by rw [← div_le_iff₀ hp]; linarith
    rw [← Nat.cast_le (α := ℚ)]; push_cast; rw [hpow] at this; linarith
  have lo' : ((4 * (s * 2 ^ j) + 1 : ℕ) : ℚ) ≤ ((m + 2 * 2 ^ j : ℕ) : ℚ) := by exact_mod_cast (by omega)
  have hi' : ((m + 1 : ℕ) : ℚ) ≤ ((4 * (s * 2 ^ j) + 2 * 2 ^ j : ℕ) : ℚ) := by exact_mod_cast (by omega)
  push_cast at lo' hi'
  obtain ⟨hwlo, hwhi⟩ := abs_lt.mp hw
  have strict : |w / 2 ^ (2 + j) - s| < 1 / 2 := by
    rw [abs_lt, lt_sub_iff_add_lt, sub_lt_iff_lt_add, lt_div_iff₀ hp, div_lt_iff₀ hp, hpow]
    constructor <;> linarith
  exact ⟨strict.le, fun he => absurd he strict.ne⟩

theorem Sticky.log2_bounds {w : ℚ} {m : ℕ} (h : Sticky w m) (hm : m ≠ 0) : 2 ^ m.log2 ≤ w ∧ w < 2 ^ (m.log2 + 1) := by
  have hlo := Nat.log2_self_le hm
  have hhi := Nat.lt_log2_self (n := m)
  obtain rfl | ⟨hbig, hodd, hw⟩ := h
  · exact_mod_cast And.intro hlo hhi
  obtain ⟨j, hj⟩ : ∃ j, m.log2 = j + 1 :=
    Nat.exists_eq_succ_of_ne_zero fun h0 => by rw [h0] at hhi; omega
  rw [hj] at hlo hhi ⊢
  obtain ⟨hwlo, hwhi⟩ := abs_lt.mp hw
  have lo : ((2 ^ (j + 1) + 1 : ℕ) : ℚ) ≤ m := by
    rw [Nat.cast_le]; rw [pow_succ] at *; omega
  have hi : ((m + 1 : ℕ) : ℚ) ≤ ((2 ^ (j + 1 + 1) : ℕ) : ℚ) := Nat.cast_le.mpr hhi
  push_cast at lo hi
  constructor <;> linarith

/-- `round` of a significand that is not 0, by the place `K − 1074` it keeps. -/
theorem round_eq {m K : ℕ} (hm : m ≠ 0) (n : Bool) {e : ℤ} (hK : max (e + (m.log2 : ℤ) - 52) (-1074) = (K : ℤ) - 1074) :
    round n m e = pack n (min (K * 2 ^ 52 + if e ≤ (K : ℤ) - 1074 then shiftRightEven m ((K : ℤ) - 1074 - e).toNat
      else m <<< (e - ((K : ℤ) - 1074)).toNat) infMag) := by
  simp only [round, if_neg hm, hK, sub_add_cancel, Int.toNat_natCast]

/-- What `round` makes: the sticky magnitude, placed. -/
theorem round_placed {w : ℚ} {m : ℕ} (h : Sticky w m) (hm : m ≠ 0) (n : Bool) (e : ℤ) :
    ∃ K s : ℕ, Placed (w * 2 ^ (e - ((K : ℤ) - 1074))) K s ∧ round n m e = pack n (min (K * 2 ^ 52 + s) infMag) := by
  obtain ⟨hlo, hhi⟩ := h.log2_bounds hm
  have hw : 0 < w := lt_of_lt_of_le (by positivity) hlo
  have log2_ge : 2 ^ 54 ≤ m → 54 ≤ m.log2 := (Nat.le_log2 hm).mpr
  obtain ⟨K, hK⟩ := Int.eq_ofNat_of_zero_le (a := max (e + (m.log2 : ℤ) - 52) (-1074) + 1074) (by omega)
  have hq : max (e + (m.log2 : ℤ) - 52) (-1074) = (K : ℤ) - 1074 := by omega
  have hlt : w * 2 ^ (e - ((K : ℤ) - 1074)) < 2 ^ 53 := calc
    _ < (2 : ℚ) ^ (m.log2 + 1) * 2 ^ (e - ((K : ℤ) - 1074)) := by gcongr
    _ = 2 ^ (((m.log2 + 1 : ℕ) : ℤ) + (e - ((K : ℤ) - 1074))) := by rw [zpow_add₀ two_ne_zero, zpow_natCast]
    _ ≤ 2 ^ (53 : ℤ) := zpow_le_zpow_right₀ (by norm_num) (by omega)
    _ = 2 ^ 53 := by norm_num
  have hge : K = 0 ∨ 2 ^ 52 ≤ w * 2 ^ (e - ((K : ℤ) - 1074)) := by
    refine or_iff_not_imp_left.mpr fun hK0 => ?_
    calc (2 : ℚ) ^ 52 = 2 ^ ((m.log2 : ℤ) + (e - ((K : ℤ) - 1074))) := by
          rw [← zpow_natCast]; congr 1; omega
      _ = 2 ^ m.log2 * 2 ^ (e - ((K : ℤ) - 1074)) := by rw [zpow_add₀ two_ne_zero, zpow_natCast]
      _ ≤ _ := by gcongr
  rw [round_eq hm n hq]
  rcases le_or_gt e ((K : ℤ) - 1074) with he | he
  · obtain ⟨k, hk⟩ := Int.eq_ofNat_of_zero_le (sub_nonneg.mpr he)
    rw [if_pos he, hk, Int.toNat_natCast]
    refine ⟨K, _, ⟨by positivity, hlt, hge, ?_⟩, rfl⟩
    rw [show e - ((K : ℤ) - 1074) = -(k : ℤ) by omega, zpow_neg, zpow_natCast, ← div_eq_mul_inv]
    exact h.nearest fun hm54 => by have := log2_ge hm54; omega
  · obtain ⟨k, hk⟩ := Int.eq_ofNat_of_zero_le (sub_nonneg.mpr he.le)
    rw [if_neg he.not_ge]
    refine ⟨K, _, ⟨by positivity, hlt, hge, ?_⟩, rfl⟩
    obtain rfl : w = m := h.resolve_right fun hs => by have := log2_ge hs.1; omega
    rw [hk, Int.toNat_natCast, Nat.shiftLeft_eq, zpow_natCast]
    exact_mod_cast nearestEven_natCast (m * 2 ^ k)

theorem Sticky.eq_zero {w : ℚ} (h : Sticky w 0) : w = 0 := by
  rcases h with h | ⟨h, -⟩
  · simpa using h
  · omega

theorem round_zero (n : Bool) (e : ℤ) : round n 0 e = pack n 0 := if_pos rfl

@[simp] theorem neg_round (n : Bool) (m : ℕ) (e : ℤ) : neg (round n m e) = n := by
  by_cases hm : m = 0
  · rw [hm, round_zero, neg_pack n (by decide)]
  · obtain ⟨K, s, -, hr⟩ := round_placed (.inl rfl) hm n e
    rw [hr, neg_pack n (place_mag_lt K s)]

/-- `round` rounds the magnitude its significand stands for, once. -/
theorem round_roundsTo {w : ℚ} {m : ℕ} (h : Sticky w m) (n : Bool) (e : ℤ) :
    RoundsTo (sgn n * (w * 2 ^ e)) (round n m e) := by
  by_cases hm : m = 0
  · subst hm
    have zero : Placed 0 0 0 := ⟨le_rfl, by norm_num, .inl rfl, by simpa using nearestEven_natCast 0⟩
    rw [h.eq_zero, zero_mul, round_zero]
    simpa using zero.roundsTo n
  · obtain ⟨K, s, hp, hr⟩ := round_placed h hm n e
    have hv := hp.roundsTo n
    rwa [mul_assoc, ← zpow_add₀ two_ne_zero, sub_add_cancel, ← hr] at hv

theorem round_exact_roundsTo (n : Bool) (m : ℕ) (e : ℤ) : RoundsTo (sgn n * (m * 2 ^ e)) (round n m e) :=
  round_roundsTo (.inl rfl) n e

end Sys2Proof.Machine.F64
end

section
/-! SUPPORT. The operations of Binary64.lean on the classes of operands (00_scope.md R14, R15). -/

namespace Sys2Proof.Machine.F64

/-! ### Results that are not rounded -/

@[simp] theorem isNaN_nan : isNaN nan = true := by decide

@[simp] theorem isInf_inf (n : Bool) : isInf (inf n) = true := by cases n <;> decide

@[simp] theorem neg_inf (n : Bool) : neg (inf n) = n := neg_pack n (by decide)

theorem pack_zero (n : Bool) : pack n 0 = if n then 0x8000000000000000 else 0 := by cases n <;> decide

/-! ### Finite operands -/

section
variable {a b : F64} (ha : isFinite a = true) (hb : isFinite b = true)
include ha hb

theorem add_of_isFinite {e : ℤ} (he : min (ulp a) (ulp b) = e) : add a b =
    if scaled a e + scaled b e = 0 then pack (neg a && neg b) 0
    else round (decide (scaled a e + scaled b e < 0)) (scaled a e + scaled b e).natAbs e := by
  simp [add, not_isNaN_of_isFinite, not_isInf_of_isFinite, ha, hb, he]

theorem mul_of_isFinite : mul a b = round (neg a != neg b) (sig a * sig b) (ulp a + ulp b) := by
  simp [mul, not_isNaN_of_isFinite, not_isInf_of_isFinite, ha, hb]

theorem div_of_sig_ne_zero (h : sig b ≠ 0) : div a b =
    round (neg a != neg b) (2 * (sig a <<< 120 / sig b) + if sig a <<< 120 % sig b = 0 then 0 else 1)
      (ulp a - ulp b - 121) := by
  simp [div, not_isNaN_of_isFinite, not_isInf_of_isFinite, ha, hb, h]

theorem div_of_sig_eq_zero (h : sig b = 0) : div a b = if sig a = 0 then nan else inf (neg a != neg b) := by
  simp [div, not_isNaN_of_isFinite, not_isInf_of_isFinite, ha, hb, h]

theorem lt_iff_value_lt : lt a b = true ↔ value a < value b := by
  simp [lt, not_isNaN_of_isFinite, ha, hb, rank_lt_rank_iff]

end

/-- `scaled` counts the value in units of 2^e. -/
theorem scaled_mul_zpow (x : F64) {e : ℤ} (h : e ≤ ulp x) : (scaled x e : ℚ) * 2 ^ e = value x := by
  obtain ⟨k, hk⟩ := Int.eq_ofNat_of_zero_le (sub_nonneg.mpr h)
  have hu : ulp x = k + e := by omega
  rw [value, scaled, hk, hu, zpow_add₀ two_ne_zero, Nat.shiftLeft_eq, Int.toNat_natCast, zpow_natCast]
  split <;> push_cast <;> ring

theorem sgn_mul_natAbs (z : ℤ) : sgn (decide (z < 0)) * (z.natAbs : ℚ) = z := by
  rw [Nat.cast_natAbs]
  by_cases hz : z < 0
  · simp [sgn, hz, abs_of_neg hz]
  · simp [sgn, hz, abs_of_nonneg (not_lt.mp hz)]

/-- The exact sum is a whole number of units of the smaller last place, rounded once. -/
theorem add_spec {a b : F64} (ha : isFinite a = true) (hb : isFinite b = true) :
    (value a + value b ≠ 0 → RoundsTo (value a + value b) (add a b)) ∧
    (value a + value b = 0 → add a b = if neg a && neg b then 0x8000000000000000 else 0) := by
  obtain ⟨e, he⟩ : ∃ e, min (ulp a) (ulp b) = e := ⟨_, rfl⟩
  rw [add_of_isFinite ha hb he]
  have sum : ((scaled a e + scaled b e : ℤ) : ℚ) * 2 ^ e = value a + value b := by
    rw [Int.cast_add, add_mul, scaled_mul_zpow a (by omega), scaled_mul_zpow b (by omega)]
  generalize scaled a e + scaled b e = z at sum ⊢
  have zero : z = 0 ↔ value a + value b = 0 := by
    rw [← sum, mul_eq_zero, or_iff_left (zpow_ne_zero _ two_ne_zero), Int.cast_eq_zero]
  constructor <;> intro h
  · rw [if_neg (mt zero.mp h), ← sum, ← sgn_mul_natAbs, mul_assoc]
    exact round_exact_roundsTo _ _ _
  · rw [if_pos (zero.mpr h), pack_zero]

theorem mul_spec {a b : F64} (ha : isFinite a = true) (hb : isFinite b = true) :
    RoundsTo (value a * value b) (mul a b) ∧ neg (mul a b) = (neg a != neg b) := by
  rw [mul_of_isFinite ha hb]
  refine ⟨?_, neg_round _ _ _⟩
  have prod : value a * value b = sgn (neg a != neg b) * ((sig a * sig b : ℕ) * 2 ^ (ulp a + ulp b)) := by
    rw [value_eq, value_eq, sgn_xor, zpow_add₀ two_ne_zero]; push_cast; ring
  rw [prod]
  exact round_exact_roundsTo _ _ _

/-- The quotient of 2·t by d, cut to an even integer with a sticky last bit. -/
theorem sticky_quotient {t d : ℕ} (ht : t = 0 ∨ 2 ^ 120 ≤ t) (hd : 0 < d) (hlt : d < 2 ^ 53) :
    Sticky (2 * t / d) (2 * (t / d) + if t % d = 0 then 0 else 1) := by
  have hd' : (0 : ℚ) < d := by exact_mod_cast hd
  have quot : 2 * (t : ℚ) / d = 2 * (t / d : ℕ) + 2 * (t % d : ℕ) / d := by
    rw [div_eq_iff hd'.ne', add_mul, div_mul_cancel₀ _ hd'.ne']
    exact_mod_cast (by linarith [Nat.div_add_mod' t d] : 2 * t = 2 * (t / d) * d + 2 * (t % d))
  split
  case isTrue h0 => exact .inl (by rw [quot, h0]; simp)
  case isFalse h0 =>
    have ht' : 2 ^ 120 ≤ t := ht.resolve_left (by rintro rfl; simp at h0)
    have big : 2 ^ 53 ≤ t / d := by rw [Nat.le_div_iff_mul_le hd]; omega
    have frac0 : (0 : ℚ) < 2 * (t % d : ℕ) / d := by
      have : (0 : ℚ) < (t % d : ℕ) := by exact_mod_cast Nat.pos_of_ne_zero h0
      positivity
    have frac2 : 2 * ((t % d : ℕ) : ℚ) / d < 2 := by
      rw [div_lt_iff₀ hd', mul_lt_mul_iff_right₀ two_pos]
      exact_mod_cast Nat.mod_lt t hd
    refine .inr ⟨by omega, by omega, ?_⟩
    rw [quot, abs_lt]
    push_cast
    constructor <;> linarith

theorem div_spec {a b : F64} (ha : isFinite a = true) (hb : isFinite b = true) (h : value b ≠ 0) :
    RoundsTo (value a / value b) (div a b) ∧ neg (div a b) = (neg a != neg b) := by
  have hs : sig b ≠ 0 := mt value_eq_zero_iff.mpr h
  have hs' : (sig b : ℚ) ≠ 0 := by exact_mod_cast hs
  rw [div_of_sig_ne_zero ha hb hs]
  refine ⟨?_, neg_round _ _ _⟩
  rw [Nat.shiftLeft_eq]
  have quot : value a / value b =
      sgn (neg a != neg b) * (2 * (sig a * 2 ^ 120 : ℕ) / sig b * 2 ^ (ulp a - ulp b - 121)) := by
    have hz := zpow_ne_zero (ulp b) (two_ne_zero (α := ℚ))
    have hn := sgn_ne_zero (neg b)
    rw [value_eq, value_eq, ← sgn_div, zpow_sub₀ two_ne_zero, zpow_sub₀ two_ne_zero]
    push_cast
    field_simp
    ring
  rw [quot]
  exact round_roundsTo (sticky_quotient (by omega) (Nat.pos_of_ne_zero hs) (sig_lt b)) _ _

theorem div_zero_spec {a b : F64} (ha : isFinite a = true) (hb : isFinite b = true) (h : value b = 0) :
    (value a = 0 → isNaN (div a b) = true) ∧
    (value a ≠ 0 → isInf (div a b) = true ∧ neg (div a b) = (neg a != neg b)) := by
  rw [div_of_sig_eq_zero ha hb (value_eq_zero_iff.mp h), ne_eq, value_eq_zero_iff]
  constructor <;> intro hs
  · rw [if_pos hs, isNaN_nan]
  · rw [if_neg hs]; exact ⟨isInf_inf _, neg_inf _⟩

/-! ### NaNs and infinities -/

theorem nan_spec {a b : F64} (h : isNaN a = true ∨ isNaN b = true) :
    isNaN (add a b) = true ∧ isNaN (mul a b) = true ∧ isNaN (div a b) = true ∧ lt a b = false := by
  have hor : (isNaN a || isNaN b) = true := by simpa using h
  have hand : (!isNaN a && !isNaN b) = false := by simpa [← Bool.not_or] using hor
  refine ⟨?_, ?_, ?_, ?_⟩
  · rw [add, if_pos hor, isNaN_nan]
  · rw [mul, if_pos hor, isNaN_nan]
  · rw [div, if_pos hor, isNaN_nan]
  · rw [lt, hand, Bool.false_and]

theorem inf_inf_spec {a b : F64} (ha : isInf a = true) (hb : isInf b = true) :
    (neg a = neg b → add a b = a) ∧ (neg a ≠ neg b → isNaN (add a b) = true) ∧
    isInf (mul a b) = true ∧ neg (mul a b) = (neg a != neg b) ∧ isNaN (div a b) = true := by
  have hadd : add a b = if neg a != neg b then nan else a := by simp [add, not_isNaN_of_isInf, ha, hb]
  have hmul : mul a b = inf (neg a != neg b) := by
    simp [mul, not_isNaN_of_isInf, not_isFinite_of_isInf, ha, hb]
  have hdiv : div a b = nan := by simp [div, not_isNaN_of_isInf, ha, hb]
  rw [hadd, hmul, hdiv]
  exact ⟨fun h => by simp [h], fun h => by simp [h, isNaN_nan], isInf_inf _, neg_inf _, isNaN_nan⟩

section
variable {a b : F64} (ha : isInf a = true) (hb : isFinite b = true)
include ha hb

theorem add_inf : add a b = a ∧ add b a = a := by
  simp [add, not_isNaN_of_isInf, not_isNaN_of_isFinite, not_isInf_of_isFinite, ha, hb]

/-- Infinity times zero is a NaN, in either order. -/
theorem mul_inf : mul a b = (if sig b = 0 then nan else inf (neg a != neg b)) ∧ mul b a = mul a b := by
  constructor <;> simp [mul, not_isNaN_of_isInf, not_isNaN_of_isFinite, not_isInf_of_isFinite, not_isFinite_of_isInf, ha, hb,
    bne_comm (a := neg b)]

theorem div_inf : div a b = inf (neg a != neg b) ∧ div b a = pack (neg a != neg b) 0 := by
  simp [div, not_isNaN_of_isInf, not_isNaN_of_isFinite, not_isInf_of_isFinite, ha, hb, bne_comm (a := neg b)]

/-- A finite pattern lies between the two infinities. -/
theorem lt_inf : (lt a b = true ↔ neg a = true) ∧ (lt b a = true ↔ neg a = false) := by
  have hma : mag a = infMag := isInf_iff.mp ha
  have hmb : mag b < infMag := isFinite_iff.mp hb
  have hra : rank a = if neg a then -(infMag : ℤ) else infMag := by rw [rank_eq, hma]
  have hrb : -(infMag : ℤ) < rank b ∧ rank b < infMag := by
    rw [rank_eq]; split <;> omega
  simp only [lt, not_isNaN_of_isInf ha, not_isNaN_of_isFinite hb, hra, Bool.not_false, Bool.true_and, decide_eq_true_eq]
  cases neg a <;> simp only [Bool.false_eq_true, if_true, if_false] <;> simp <;> omega

theorem inf_finite_spec :
    add a b = a ∧ add b a = a ∧
    (value b = 0 → isNaN (mul a b) = true ∧ isNaN (mul b a) = true) ∧
    (value b ≠ 0 → (isInf (mul a b) = true ∧ neg (mul a b) = (neg a != neg b)) ∧ mul b a = mul a b) ∧
    (isInf (div a b) = true ∧ neg (div a b) = (neg a != neg b)) ∧
    div b a = (if neg a != neg b then 0x8000000000000000 else 0) ∧
    (lt a b = true ↔ neg a = true) ∧ (lt b a = true ↔ neg a = false) := by
  obtain ⟨hab, hba⟩ := add_inf ha hb
  obtain ⟨hmul, hcomm⟩ := mul_inf ha hb
  obtain ⟨hdiv, hdiv'⟩ := div_inf ha hb
  rw [hcomm, hmul, hdiv, hdiv', pack_zero, ne_eq, value_eq_zero_iff]
  refine ⟨hab, hba, fun h => ?_, fun h => ?_, ⟨isInf_inf _, neg_inf _⟩, rfl, lt_inf ha hb⟩
  · rw [if_pos h]; exact ⟨isNaN_nan, isNaN_nan⟩
  · rw [if_neg h]; exact ⟨⟨isInf_inf _, neg_inf _⟩, rfl⟩

end

/-! ### Truncation and integers -/

/-- `trunc` is the signed floor of the magnitude. -/
theorem trunc_eq (x : F64) : (trunc x : ℚ) = sgn (neg x) * (⌊(sig x : ℚ) * 2 ^ ulp x⌋₊ : ℕ) := by
  have floor : (if 0 ≤ ulp x then sig x <<< (ulp x).toNat else sig x >>> (-(ulp x)).toNat) = ⌊(sig x : ℚ) * 2 ^ ulp x⌋₊ := by
    split
    case isTrue h =>
      obtain ⟨k, hk⟩ := Int.eq_ofNat_of_zero_le h
      rw [hk, Int.toNat_natCast, Nat.shiftLeft_eq, zpow_natCast]
      exact_mod_cast (Nat.floor_natCast (R := ℚ) _).symm
    case isFalse h =>
      obtain ⟨k, hk⟩ := Int.eq_ofNat_of_zero_le (a := -(ulp x)) (by omega)
      rw [hk, show ulp x = -(k : ℤ) by omega, Int.toNat_natCast, Nat.shiftRight_eq_div_pow, zpow_neg, zpow_natCast,
        ← div_eq_mul_inv]
      exact_mod_cast (Nat.floor_div_eq_div (K := ℚ) _ _).symm
  rw [trunc, floor]
  cases neg x <;> simp [sgn]

theorem trunc_spec (x : F64) :
    |(trunc x : ℚ)| ≤ |value x| ∧ |value x| < |(trunc x : ℚ)| + 1 ∧ 0 ≤ (trunc x : ℚ) * value x := by
  have hv : (0 : ℚ) ≤ sig x * 2 ^ ulp x := by positivity
  rw [trunc_eq, value_eq, abs_mul, abs_mul, abs_sgn, one_mul, one_mul, abs_of_nonneg hv, Nat.abs_cast]
  refine ⟨Nat.floor_le hv, Nat.lt_floor_add_one _, ?_⟩
  rw [mul_mul_mul_comm, sgn_mul_self, one_mul]
  positivity

theorem trunc_eq_of_value_eq {x : F64} {i : ℤ} (h : value x = i) : trunc x = i := by
  obtain ⟨hle, hlt, hsign⟩ := trunc_spec x
  rw [h] at hle hlt hsign
  norm_cast at hle hlt hsign
  have habs : |trunc x| = |i| := by omega
  rcases abs_eq_abs.mp habs with h | h
  · exact h
  · rw [h] at hsign
    have : i = 0 := by nlinarith
    omega

theorem ofInt_zero : ofInt 0 = 0 := by decide

/-- An integer below 2^53 needs no rounding. -/
theorem ofInt_exact {i : ℤ} (h : i.natAbs < 2 ^ 53) : isFinite (ofInt i) = true ∧ value (ofInt i) = i := by
  by_cases hi : i = 0
  · rw [hi, ofInt_zero]
    exact ⟨by decide, by rw [Int.cast_zero, value_eq_zero_iff]; decide⟩
  have hm : i.natAbs ≠ 0 := Int.natAbs_ne_zero.mpr hi
  obtain ⟨K, s, hp, hr⟩ := round_placed (.inl rfl) hm (decide (i < 0)) 0
  have hlt : (i.natAbs : ℚ) < 2 ^ 53 := by exact_mod_cast h
  have hK : K ≤ 1074 := by
    by_contra! hK
    have hge := hp.ge.resolve_left (by omega)
    have : (2 : ℚ) ^ (0 - ((K : ℤ) - 1074)) ≤ 2 ^ (-1 : ℤ) := zpow_le_zpow_right₀ (by norm_num) (by omega)
    have : (i.natAbs : ℚ) * 2 ^ (0 - ((K : ℤ) - 1074)) ≤ i.natAbs * 2 ^ (-1 : ℤ) := by gcongr
    rw [zpow_neg_one] at this
    linarith
  obtain ⟨j, hj⟩ := Nat.exists_eq_add_of_le hK
  have hplace : (K : ℤ) - 1074 = -(j : ℤ) := by omega
  have hs : s = i.natAbs * 2 ^ j := by
    have near := hp.near
    rw [hplace, zero_sub, neg_neg, zpow_natCast] at near
    exact NearestEven.eq_of_natCast (by exact_mod_cast near)
  have hf : K * 2 ^ 52 + s < infMag := by have := hp.sig_le; rw [infMag]; omega
  have hround : ofInt i = _ := hr
  rw [hround]
  constructor
  · rw [isFinite_iff, mag_pack _ (place_mag_lt K s)]; omega
  · rw [hp.value_pack _ hf, hplace, hs, zpow_neg, zpow_natCast, Nat.cast_mul, Nat.cast_pow, Nat.cast_ofNat,
      mul_inv_cancel_right₀ (by positivity), sgn_mul_natAbs]

/-- R15 for `to_f64`: exact, ordered as the integers are, and undone by `trunc`. -/
theorem ofInt_spec (i : ℤ) (h : i.natAbs < 2 ^ 53) :
    isFinite (ofInt i) = true ∧ value (ofInt i) = i ∧ trunc (ofInt i) = i ∧ (i = 0 → ofInt i = 0) ∧
    ∀ j : ℤ, j.natAbs < 2 ^ 53 → (lt (ofInt i) (ofInt j) = true ↔ i < j) := by
  obtain ⟨hf, hv⟩ := ofInt_exact h
  refine ⟨hf, hv, trunc_eq_of_value_eq hv, fun h0 => by rw [h0, ofInt_zero], fun j hj => ?_⟩
  obtain ⟨hfj, hvj⟩ := ofInt_exact hj
  rw [lt_iff_value_lt hf hfj, hv, hvj, Int.cast_lt]

end Sys2Proof.Machine.F64
end

section
namespace Sys2Proof.Machine

/-- Settles O34: each operation makes the exact result's magnitude, or the quotient's sticky one, and `round` places it once. -/
theorem integersConvertExactly : Obligations.IntegersConvertExactly := by
  unfold Obligations.IntegersConvertExactly
  refine ⟨F64.ofInt_spec, fun a b ha hb => ?_, fun _ _ => F64.nan_spec, fun _ _ => F64.inf_inf_spec,
    fun _ _ => F64.inf_finite_spec, fun x _ => F64.trunc_spec x⟩
  obtain ⟨hadd, hadd0⟩ := F64.add_spec ha hb
  obtain ⟨hmul, hmuln⟩ := F64.mul_spec ha hb
  exact ⟨hadd, hadd0, hmul, hmuln, F64.div_spec ha hb, fun h => (F64.div_zero_spec ha hb h).1,
    fun h => (F64.div_zero_spec ha hb h).2, F64.lt_iff_value_lt ha hb⟩

end Sys2Proof.Machine
end

section
/-! SUPPORT. A command's rule, apart from its completion, and what it leaves alone. -/

namespace Sys2Proof.Machine

/-- The rule of each command, from its start to its end or its first `raise`. -/
def ruleOf (i : Instr) (s : State) : Ran :=
  match i with
  | .nop => s.ok
  | .qmset => runQmset s
  | .fdct => runFdct s
  | .idct => (idctBody s).ok
  | .recon => runRecon s
  | .quant => runQuant s
  | .dequant => (dequantBody s).ok
  | .zzscan => runZzscan s
  | .zzunscan => runZzunscan s
  | .freqclr => (freqclrBody s).ok
  | .freqacc => runFreqacc s
  | .treebuild => runTreebuild s
  | .bbreset => (bbresetBody s).ok
  | .bbput => runBbput s
  | .bbflush => runBbflush s
  | .encode => runEncode s
  | .decode => runDecode s
  | .blkenc => runBlkenc s
  | .blkdec => runBlkdec s

/-- A command's engine step is its rule, then completion (60_exceptions.md R500, R502). -/
theorem exec_eq_finish (i : Instr) (s : State) : exec i s = (ruleOf i s).finish := by
  cases i <;> rfl

theorem exec_next_iff (i : Instr) (s t : State) :
    exec i s = .next t ↔ t = (ruleOf i s).state.complete (ruleOf i s).error := by
  rw [exec_eq_finish, finish_next_iff]

/-- `s` with the fields that the rule of `i` may write taken from `t`: those of the registers in W(i) besides STATUS
(70_reset_and_hazards.md R620), DMEM, and the model's draws. -/
def withWritten (i : Instr) (s t : State) : State :=
  match i with
  | .nop => s
  | .qmset => { s with qm := t.qm }
  | .fdct | .dequant => { s with coef := t.coef }
  | .idct => { s with coef := t.coef, draws := t.draws }
  | .recon | .zzscan => { s with mem := t.mem }
  | .quant | .zzunscan => { s with qblk := t.qblk }
  | .freqclr | .freqacc => { s with freq := t.freq }
  | .treebuild => { s with nsym := t.nsym, maxlen := t.maxlen, code := t.code }
  | .bbreset => { s with bb := t.bb }
  | .bbput => { s with mem := t.mem, bb := t.bb }
  | .bbflush => { s with mem := t.mem, bb := t.bb, regs := { s.regs with bitcnt := t.regs.bitcnt } }
  | .encode => { s with mem := t.mem, bb := t.bb, encPos := t.encPos }
  | .decode => { s with mem := t.mem, decOutlen := t.decOutlen, decBitpos := t.decBitpos }
  | .blkenc => { s with mem := t.mem, coef := t.coef, qblk := t.qblk }
  | .blkdec => { s with mem := t.mem, coef := t.coef, qblk := t.qblk, draws := t.draws }

theorem zzscanBody_frame (s : State) : zzscanBody s = { s with mem := (zzscanBody s).mem } := writeCells_mem_only ..

theorem reconBody_frame (s : State) : reconBody s = { s with mem := (reconBody s).mem } := writeCells_mem_only ..

theorem blkencBody_frame (s : State) : blkencBody s = withWritten .blkenc s (blkencBody s) := by
  obtain ⟨m, h⟩ : ∃ m, blkencBody s = { quantBody (fdctBody s) with mem := m } := ⟨_, zzscanBody_frame _⟩
  rw [h]
  rfl

/-- The stages of BLKDEC before RECON write QBLK, COEF and the draws (45_pipeline.md R431). -/
theorem blkdecStages_frame (s : State) :
    ∃ q c d, idctBody (dequantBody (zzunscanBody s)) = { s with qblk := q, coef := c, draws := d } := by
  obtain ⟨q, hq⟩ : ∃ q, zzunscanBody s = { s with qblk := q } := ⟨_, rfl⟩
  obtain ⟨c, hc⟩ : ∃ c, dequantBody { s with qblk := q } = { s with qblk := q, coef := c } := ⟨_, rfl⟩
  rw [hq, hc]
  exact ⟨q, _, _, rfl⟩

theorem blkdecBody_frame (s : State) : blkdecBody s = withWritten .blkdec s (blkdecBody s) := by
  obtain ⟨q, c, d, hs⟩ := blkdecStages_frame s
  obtain ⟨m, hm⟩ : ∃ m, reconBody { s with qblk := q, coef := c, draws := d } =
      { s with qblk := q, coef := c, draws := d, mem := m } := ⟨_, reconBody_frame _⟩
  rw [blkdecBody, hs, hm]
  rfl

/-- Every rule writes only what its frame names. -/
theorem ruleOf_frame (i : Instr) (s : State) : (ruleOf i s).state = withWritten i s (ruleOf i s).state := by
  cases i <;> simp only [ruleOf, withWritten]
  case nop | idct | dequant | freqclr | bbreset => rfl
  case qmset => unfold runQmset; split <;> rfl
  case fdct => unfold runFdct; split <;> rfl
  case quant => unfold runQuant; split <;> rfl
  case zzunscan => unfold runZzunscan; split <;> rfl
  case bbflush => unfold runBbflush; split_ifs <;> rfl
  case treebuild => simp only [runTreebuild]; split_ifs <;> rfl
  case freqacc => simp only [runFreqacc]; split_ifs <;> rfl
  case recon =>
    unfold runRecon
    split_ifs
    · rfl
    · rfl
    · exact reconBody_frame s
  case zzscan =>
    unfold runZzscan
    split
    · exact zzscanBody_frame s
    · rfl
  case blkenc =>
    unfold runBlkenc
    split_ifs
    · rfl
    · rfl
    · exact blkencBody_frame s
  case blkdec =>
    unfold runBlkdec
    split_ifs
    · rfl
    · rfl
    · exact blkdecBody_frame s
  case bbput =>
    unfold runBbput
    split
    · rfl
    · exact append_onlyStream ..
  case encode =>
    unfold runEncode
    split
    · rfl
    · exact encodeLoop_onlyEncode ..
  case decode =>
    simp only [runDecode]
    split_ifs
    · rfl
    · rfl
    · rfl
    · rw [decodeLoop_frame]

end Sys2Proof.Machine
end

section
/-! SUPPORT. What no command writes, and which command writes what (10_state.md R75, R83; 70_reset_and_hazards.md R620). -/

namespace Sys2Proof.Machine

/-- `t` has the fields of `s` that no command's rule writes. -/
structure KeepsContext (s t : State) : Prop where
  params : t.params = s.params
  ie : t.ie = s.ie
  status : t.status = s.status
  cmd : t.cmd = s.cmd
  op : t.op = s.op
  turns : t.turns = s.turns
  resp : t.resp = s.resp

theorem ruleOf_keepsContext (i : Instr) (s : State) : KeepsContext s (ruleOf i s).state := by
  rw [ruleOf_frame]
  cases i <;> exact ⟨rfl, rfl, rfl, rfl, rfl, rfl, rfl⟩

/-- Of the operand registers a rule may write BITCNT alone. -/
theorem ruleOf_regs_bitcnt (i : Instr) (s : State) :
    (ruleOf i s).state.regs = { s.regs with bitcnt := (ruleOf i s).state.regs.bitcnt } := by
  rw [ruleOf_frame]
  cases i <;> rfl

theorem ruleOf_regs {i : Instr} (hi : i ≠ .bbflush) (s : State) : (ruleOf i s).state.regs = s.regs := by
  rw [ruleOf_frame]
  cases i
  case bbflush => exact absurd rfl hi
  all_goals rfl

theorem ruleOf_draws {i : Instr} (hi : i ≠ .idct) (hb : i ≠ .blkdec) (s : State) : (ruleOf i s).state.draws = s.draws := by
  rw [ruleOf_frame]
  cases i
  case idct => exact absurd rfl hi
  case blkdec => exact absurd rfl hb
  all_goals rfl

theorem ruleOf_qm {i : Instr} (hi : i ≠ .qmset) (s : State) : (ruleOf i s).state.qm = s.qm := by
  rw [ruleOf_frame]
  cases i
  case qmset => exact absurd rfl hi
  all_goals rfl

theorem ruleOf_nsym {i : Instr} (hi : i ≠ .treebuild) (s : State) : (ruleOf i s).state.nsym = s.nsym := by
  rw [ruleOf_frame]
  cases i
  case treebuild => exact absurd rfl hi
  all_goals rfl

/-- Settles O9: the frame of the command's rule, and completion writes STATUS alone. -/
theorem commandsKeepTheRest : Obligations.CommandsKeepTheRest := by
  unfold Obligations.CommandsKeepTheRest
  intro i s t h
  rw [(exec_next_iff i s t).mp h]
  obtain ⟨hparams, hie, hstatus, hcmd, hop, hturns, hresp⟩ := ruleOf_keepsContext i s
  refine ⟨hparams, hie, hcmd, hop, hturns, hresp, ?_, ?_, ruleOf_regs_bitcnt i s, fun hi => ruleOf_regs hi s,
    fun hi hb => ruleOf_draws hi hb s⟩
  · rw [complete_status, status_complete_lastop, hstatus]
  · rw [complete_status, status_complete_cmddrop, hstatus]

end Sys2Proof.Machine
end

section
/-! SUPPORT. The loops of ENCODE and DECODE, one turn at a time (43_huffman.md R335, R337). -/

namespace Sys2Proof.Machine

/-- Go on from a rule's part that ended normally; stop at its error. -/
def Ran.andThen (x : Ran) (f : State → Ran) : Ran :=
  match x.error with
  | some _ => x
  | none => f x.state

/-- ENCODE's turn for the byte at index `i` (R335): ENC_POS, and the append of the byte's code. -/
def encodeByte (s : State) (i : Nat) : Ran :=
  let s1 := { s with encPos := BitVec.ofNat 32 i }
  let c := s1.code.get (byteIx (s1.readByte (s1.opSrc + i)))
  if c.len.toNat = 0 then s1.raised .noCode
  else if 32 < c.len.toNat then s1.raised .badTable
  else append s1 c.bits c.len.toNat

theorem encodeLoop_succ (s : State) (n i : Nat) :
    encodeLoop s (n + 1) i = (encodeByte s i).andThen fun t => encodeLoop t n (i + 1) := by
  simp only [encodeLoop, encodeByte]
  split_ifs <;> rfl

/-- DECODE's probe after stream bit `k` (R337). -/
def nextProbe (s : State) (k p : Nat) : Nat := 2 * p + (streamBit s s.opSrc k).toNat

/-- Stream bit `k` has been consumed (R337). -/
def consumeBit (s : State) (k : Nat) : State := { s with decBitpos := BitVec.ofNat 64 (k + 1) }

/-- Symbol `sym` is output byte `n` (R337). -/
def emitSymbol (s : State) (n : Nat) (sym : Fin 256) : State :=
  { s.writeByte (s.opDst + n) (BitVec.ofNat 8 sym.val) with decOutlen := BitVec.ofNat 32 (n + 1) }

theorem decodeLoop_succ_none {s : State} {k p l : Nat} (h : matchCode s.code (nextProbe s k p) (l + 1) = none) (rem n : Nat) :
    decodeLoop s (rem + 1) k p l n =
      if l + 1 = 32 then (consumeBit s k).raised .corrupt
      else decodeLoop (consumeBit s k) rem (k + 1) (nextProbe s k p) (l + 1) n := by
  rw [nextProbe] at h
  simp only [decodeLoop, h]
  rfl

theorem decodeLoop_succ_some {s : State} {k p l : Nat} {sym : Fin 256}
    (h : matchCode s.code (nextProbe s k p) (l + 1) = some sym) (rem n : Nat) :
    decodeLoop s (rem + 1) k p l n =
      if s.opDstlen ≤ n then (consumeBit s k).raised .overrun
      else if !s.inRange (s.opDst + n) 1 then (consumeBit s k).raised .addr
      else decodeLoop (emitSymbol (consumeBit s k) n sym) rem (k + 1) 0 0 (n + 1) := by
  rw [nextProbe] at h
  simp only [decodeLoop, h]
  rfl

end Sys2Proof.Machine
end

section
/-! SUPPORT. The live operand registers: no rule reads them, and none but BBFLUSH's writes them (10_state.md R75, R80). -/

namespace Sys2Proof.Machine

/-- The state with other operand registers. -/
def State.withRegs (s : State) (r : Operands) : State := { s with regs := r }

/-- The same run, ending in a state with other operand registers. -/
def Ran.withRegs (x : Ran) (r : Operands) : Ran := ⟨x.state.withRegs r, x.error⟩

/-- A check that both runs make alike: its branches decide. -/
theorem ite_withRegs {c : Prop} [Decidable c] {a b a' b' : Ran} {r : Operands} (ha : a = a'.withRegs r) (hb : b = b'.withRegs r) :
    (if c then a else b) = (if c then a' else b').withRegs r := by
  split
  · exact ha
  · exact hb

theorem writeCells_withRegs (s : State) (r : Operands) {n : Nat} (addr : Fin n → Nat) (v : Tab Byte n) :
    (s.withRegs r).writeCells addr v = (s.writeCells addr v).withRegs r := by
  unfold State.writeCells
  induction List.finRange n generalizing s with
  | nil => rfl
  | cons i rest ih => exact ih (s.writeByte (addr i) (v.get i))

theorem pushBit_withRegs (s : State) (r : Operands) (b : Bool) : pushBit (s.withRegs r) b = (pushBit s b).withRegs r := by
  by_cases h : s.bb.nbits.val + 1 < 8
  · simp [pushBit, State.withRegs, h]
  · simp [pushBit, State.withRegs, State.writeByte, h]

theorem pushBits_withRegs (s : State) (r : Operands) (bits : Word) (l : Nat) :
    pushBits (s.withRegs r) bits l = (pushBits s bits l).withRegs r := by
  induction l generalizing s with
  | zero => rfl
  | succ j ih => rw [pushBits, pushBit_withRegs]; exact ih _

theorem append_withRegs (s : State) (r : Operands) (bits : Word) (l : Nat) :
    append (s.withRegs r) bits l = (append s bits l).withRegs r :=
  ite_withRegs rfl (ite_withRegs rfl (congrArg State.ok (pushBits_withRegs s r bits l)))

theorem encodeByte_withRegs (s : State) (r : Operands) (i : Nat) : encodeByte (s.withRegs r) i = (encodeByte s i).withRegs r :=
  ite_withRegs rfl (ite_withRegs rfl (append_withRegs { s with encPos := BitVec.ofNat 32 i } r _ _))

theorem encodeLoop_withRegs (s : State) (r : Operands) (n i : Nat) :
    encodeLoop (s.withRegs r) n i = (encodeLoop s n i).withRegs r := by
  induction n generalizing s i with
  | zero => rfl
  | succ n ih =>
    rw [encodeLoop_succ, encodeLoop_succ, encodeByte_withRegs]
    obtain ⟨t, _ | e⟩ := encodeByte s i
    · exact ih t (i + 1)
    · rfl

theorem decodeLoop_withRegs (s : State) (r : Operands) (rem k p l n : Nat) :
    decodeLoop (s.withRegs r) rem k p l n = (decodeLoop s rem k p l n).withRegs r := by
  induction rem generalizing s k p l n with
  | zero => exact ite_withRegs rfl rfl
  | succ rem ih =>
    cases h : matchCode s.code (nextProbe s k p) (l + 1) with
    | none =>
      rw [decodeLoop_succ_none h, decodeLoop_succ_none (s := s.withRegs r) h]
      exact ite_withRegs rfl (ih (consumeBit s k) ..)
    | some sym =>
      rw [decodeLoop_succ_some h, decodeLoop_succ_some (s := s.withRegs r) h]
      exact ite_withRegs rfl (ite_withRegs rfl (ih (emitSymbol (consumeBit s k) n sym) ..))

/-- A rule takes no notice of the live operand registers; BBFLUSH's may write one. -/
theorem ruleOf_withRegs {i : Instr} (hi : i ≠ .bbflush) (s : State) (r : Operands) :
    ruleOf i (s.withRegs r) = (ruleOf i s).withRegs r := by
  cases i
  case bbflush => exact absurd rfl hi
  case nop | idct | dequant | freqclr | bbreset => rfl
  case qmset | fdct | quant | zzunscan => exact ite_withRegs rfl rfl
  case treebuild | freqacc => exact ite_withRegs rfl (ite_withRegs rfl rfl)
  case zzscan => exact ite_withRegs (congrArg State.ok (writeCells_withRegs s r ..)) rfl
  case recon => exact ite_withRegs rfl (ite_withRegs rfl (congrArg State.ok (writeCells_withRegs s r ..)))
  case bbput => exact ite_withRegs rfl (append_withRegs s r ..)
  case encode => exact ite_withRegs rfl (encodeLoop_withRegs s r ..)
  case decode =>
    exact ite_withRegs rfl (ite_withRegs rfl (ite_withRegs rfl
      (decodeLoop_withRegs { s with decOutlen := 0, decBitpos := 0 } r ..)))
  case blkenc =>
    exact ite_withRegs rfl (ite_withRegs rfl (congrArg State.ok (writeCells_withRegs (quantBody (fdctBody s)) r ..)))
  case blkdec =>
    exact ite_withRegs rfl (ite_withRegs rfl
      (congrArg State.ok (writeCells_withRegs (idctBody (dequantBody (zzunscanBody s))) r ..)))

theorem ite_exists_withRegs {c : Prop} [Decidable c] {a b a' b' : Ran} (ha : ∃ q, a = a'.withRegs q)
    (hb : ∃ q, b = b'.withRegs q) : ∃ q, (if c then a else b) = (if c then a' else b').withRegs q := by
  split
  · exact ha
  · exact hb

/-- BBFLUSH writes BITCNT where it closes the stream, and leaves the operand registers where it fails, alike in both runs. -/
theorem runBbflush_withRegs (s : State) (r : Operands) : ∃ q, runBbflush (s.withRegs r) = (runBbflush s).withRegs q :=
  ite_exists_withRegs ⟨{ r with bitcnt := s.bb.tot }, rfl⟩ (ite_exists_withRegs ⟨r, rfl⟩ (ite_exists_withRegs ⟨r, rfl⟩
    ⟨{ r with bitcnt := s.bb.tot }, rfl⟩))

/-- Settles O8: the two runs of the rule differ in the live operand registers alone, and completion writes STATUS. -/
theorem engineReadsOnlyLatchedOperands : Obligations.EngineReadsOnlyLatchedOperands := by
  unfold Obligations.EngineReadsOnlyLatchedOperands
  intro i s r
  obtain ⟨q, hq⟩ : ∃ q, ruleOf i (s.withRegs r) = (ruleOf i s).withRegs q := by
    by_cases hi : i = .bbflush
    · rw [hi]; exact runBbflush_withRegs s r
    · exact ⟨r, ruleOf_withRegs hi s r⟩
  refine ⟨_, _, exec_eq_finish i s, exec_eq_finish i (s.withRegs r), ?_, fun hi => ⟨ruleOf_regs hi s, ruleOf_regs hi _⟩⟩
  rw [hq]
  rfl

end Sys2Proof.Machine
end

section
/-! SUPPORT. Everything a host turn can do when it goes on (20_memory.md R100, R101; 70_reset_and_hazards.md R620). -/

namespace Sys2Proof.Machine

theorem regAccessOk_iff (off size : Nat) : regAccessOk off size = true ↔ size = 4 ∧ off % 4 = 0 ∧ off < 0x2000 := by
  simp [regAccessOk, and_assoc]

theorem memAccessOk_inRange {s : State} {a size : Nat} (h : memAccessOk s a size = true) : a + size ≤ s.params.dmemSize := by
  simp only [memAccessOk, Bool.and_eq_true, state_inRange_iff] at h
  exact h.2

/-- A memory-port write that is neither refused nor a hazard stores its bytes in range. -/
theorem hostMemWrite_next {s t : State} {a size : Nat} {v : Word} (h : hostMemWrite s a size v = .next t) :
    t = s.busError ∨ (a + size ≤ s.params.dmemSize ∧ t = (writeWord s a v size).respond 0) := by
  unfold hostMemWrite at h
  split at h
  · cases h; exact .inl rfl
  · next hok =>
    split at h
    · cases h
    · cases h; exact .inr ⟨memAccessOk_inRange (by simpa using hok), rfl⟩

/-- A host turn that goes on is a read or a bus error, which leave all but the model's own record; a write of a register; or a store. -/
theorem hostTurn_next_cases {s t : State} {o : HostOp} (h : hostTurn s o = .next t) :
    t = { s with resp := t.resp, draws := t.draws } ∨
    (∃ off v, o = .regWrite off 4 v ∧ off % 4 = 0 ∧ off < 0x2000 ∧
      (s.status.busy = true → regWriteHazard v (regAt off) = none) ∧ t = (regWrite s v (regAt off)).respond 0) ∨
    (∃ a size v, o = .memWrite a size v ∧ a.toNat + size ≤ s.params.dmemSize ∧ t = (writeWord s a.toNat v size).respond 0) := by
  cases o with
  | regRead off size => cases h; exact .inl (hostRegRead_frame s off size)
  | memRead a size => cases h; exact .inl (hostMemRead_frame s a.toNat size)
  | regWrite off size v =>
    rw [hostTurn] at h
    rcases hostRegWrite_cases s off size v with ⟨-, hw⟩ | ⟨f, -, -, -, hw⟩ | ⟨hok, hz, hw⟩ <;> rw [hw] at h <;> cases h
    · exact .inl rfl
    · obtain ⟨rfl, h4, hlt⟩ := (regAccessOk_iff off size).mp hok
      exact .inr (.inl ⟨off, v, rfl, h4, hlt, hz, rfl⟩)
  | memWrite a size v =>
    rcases hostMemWrite_next h with rfl | ⟨hr, rfl⟩
    · exact .inl rfl
    · exact .inr (.inr ⟨a, size, v, rfl, hr, rfl⟩)

end Sys2Proof.Machine
end

section
/-! SUPPORT. What every rule keeps of a legal state's DMEM and bit buffer (20_memory.md R102; 44_bitbuffer.md R403). -/

namespace Sys2Proof.Machine

/-- DMEM and the bit buffer are as a legal state has them. -/
structure StorageLegal (s : State) : Prop where
  mem : Memory.wf s.params.dmemSize s.mem = true
  bb : s.bb.Legal

theorem StorageLegal.writeByte {s : State} (h : StorageLegal s) {a : Nat} (ha : a < s.params.dmemSize) (v : Byte) :
    StorageLegal (s.writeByte a v) :=
  ⟨Memory.wf_put v ha h.mem, h.bb⟩

theorem StorageLegal.writeCells {s : State} (h : StorageLegal s) {n : Nat} {addr : Fin n → Nat}
    (hr : ∀ i, addr i < s.params.dmemSize) (v : Tab Byte n) : StorageLegal (s.writeCells addr v) := by
  rw [writeCells_mem_only]
  exact ⟨wf_writeCells s addr v hr h.mem, h.bb⟩

theorem pushBit_wf {size : Nat} {s : State} (h : Memory.wf size s.mem = true)
    (hr : s.bb.outptr.toNat + (s.bb.nbits.val + 1) / 8 ≤ size) (b : Bool) : Memory.wf size (pushBit s b).mem = true := by
  unfold pushBit
  split
  · exact h
  · exact Memory.wf_put _ (by omega) h

/-- A run of bits whose bytes are in range keeps DMEM's form. -/
theorem pushBits_wf {size : Nat} {s : State} (h : Memory.wf size s.mem = true) (bits : Word) {l : Nat}
    (hr : s.bb.outptr.toNat + (s.bb.nbits.val + l) / 8 ≤ size) : Memory.wf size (pushBits s bits l).mem = true := by
  induction l generalizing s with
  | zero => exact h
  | succ j ih =>
    refine ih (pushBit_wf h (by omega) _) ?_
    rw [pushBit_outptr, pushBit_nbits, BitVec.toNat_add, BitVec.toNat_ofNat]
    omega

/-- A run of bits within the capacity keeps the bit buffer legal. -/
theorem pushBits_bb_legal {s : State} (h : s.bb.Legal) (bits : Word) {l : Nat}
    (hc : s.bb.outcnt.toNat + (s.bb.nbits.val + l) / 8 ≤ s.bb.limit.toNat) : (pushBits s bits l).bb.Legal := by
  obtain ⟨hlimit, htot, hnbits, houtcnt, -⟩ := pushBits_counts s bits l
  refine ⟨pushBits_acc_lt s bits l h.acc_lt, ?_, ?_⟩
  · rw [houtcnt, hlimit, BitVec.toNat_add, BitVec.toNat_ofNat]
    omega
  · have := h.carry
    rw [htot, hnbits, BitVec.toNat_add, BitVec.toNat_ofNat]
    omega

theorem append_storageLegal {s : State} (h : StorageLegal s) (bits : Word) (l : Nat) : StorageLegal (append s bits l).state := by
  rcases append_cases s bits l with ⟨-, e⟩ | ⟨-, -, e⟩ | ⟨hc, hr, e⟩ <;> rw [e]
  · exact h
  · exact h
  · refine ⟨?_, pushBits_bb_legal h.bb bits hc⟩
    rw [ok_state, pushBits_onlyStream s bits l]
    exact pushBits_wf h.mem bits hr

theorem encodeByte_storageLegal {s : State} (h : StorageLegal s) (i : Nat) : StorageLegal (encodeByte s i).state := by
  have h1 : StorageLegal { s with encPos := BitVec.ofNat 32 i } := ⟨h.mem, h.bb⟩
  simp only [encodeByte]
  split_ifs
  · exact h1
  · exact h1
  · exact append_storageLegal h1 _ _

theorem encodeLoop_storageLegal {s : State} (h : StorageLegal s) (n i : Nat) : StorageLegal (encodeLoop s n i).state := by
  induction n generalizing s i with
  | zero => exact ⟨h.mem, h.bb⟩
  | succ n ih =>
    have hb := encodeByte_storageLegal h i
    rw [encodeLoop_succ, Ran.andThen]
    split
    · exact hb
    · exact ih hb (i + 1)

theorem emitSymbol_storageLegal {s : State} (h : StorageLegal s) {n : Nat} (hr : s.inRange (s.opDst + n) 1 = true)
    (sym : Fin 256) : StorageLegal (emitSymbol s n sym) :=
  have hw := h.writeByte (Nat.lt_of_succ_le ((state_inRange_iff ..).mp hr)) (BitVec.ofNat 8 sym.val)
  ⟨hw.mem, hw.bb⟩

theorem decodeLoop_storageLegal {s : State} (h : StorageLegal s) (rem k p l n : Nat) :
    StorageLegal (decodeLoop s rem k p l n).state := by
  induction rem generalizing s k p l n with
  | zero => rw [decodeLoop]; split <;> exact h
  | succ rem ih =>
    have hbit : StorageLegal (consumeBit s k) := ⟨h.mem, h.bb⟩
    cases hm : matchCode s.code (nextProbe s k p) (l + 1) with
    | none =>
      rw [decodeLoop_succ_none hm]
      split
      · exact hbit
      · exact ih hbit ..
    | some sym =>
      rw [decodeLoop_succ_some hm]
      split_ifs with hcap hr
      · exact hbit
      · exact hbit
      · have hr : s.inRange (s.opDst + n) 1 = true := by simpa using hr
        exact ih (emitSymbol_storageLegal hbit hr sym) ..

theorem closeStream_storageLegal {s : State} (h : StorageLegal s) : StorageLegal (closeStream s) :=
  ⟨h.mem, by simp [closeStream], h.bb.within_limit, rfl⟩

theorem flushByte_mem_wf {s : State} (h : StorageLegal s) (hr : s.inRange s.bb.outptr.toNat 1 = true) :
    Memory.wf s.params.dmemSize (flushByte s).mem = true :=
  Memory.wf_put _ (Nat.lt_of_succ_le ((state_inRange_iff ..).mp hr)) h.mem

theorem runBbflush_storageLegal {s : State} (h : StorageLegal s) : StorageLegal (runBbflush s).state := by
  unfold runBbflush
  split_ifs with hn hc hr
  · exact closeStream_storageLegal h
  · exact h
  · exact h
  · refine ⟨flushByte_mem_wf h (by simpa using hr), by simp [closeStream], ?_, rfl⟩
    change (s.bb.outcnt + 1).toNat ≤ s.bb.limit.toNat
    rw [BitVec.toNat_add]
    exact (Nat.mod_le _ _).trans (Nat.le_of_not_lt hc)

theorem reconBody_storageLegal {s : State} (h : StorageLegal s) (hb : s.blockInRange s.opDst = true) :
    StorageLegal (reconBody s) :=
  h.writeCells ((state_blockInRange_iff ..).mp hb) _

theorem zzscanBody_storageLegal {s : State} (h : StorageLegal s) (hr : s.inRange s.opDst 64 = true) :
    StorageLegal (zzscanBody s) := by
  rw [state_inRange_iff] at hr
  exact h.writeCells (fun k => by omega) _

/-- Each rule's checks keep its writes within DMEM_SIZE and BB_LIMIT. -/
theorem ruleOf_storageLegal (i : Instr) {s : State} (h : StorageLegal s) : StorageLegal (ruleOf i s).state := by
  have frame := ruleOf_frame i s
  cases i
  case bbreset => exact ⟨h.mem, by simp [ruleOf, bbresetBody], Nat.zero_le _, rfl⟩
  case bbput =>
    simp only [ruleOf, runBbput]
    split
    · exact h
    · exact append_storageLegal h _ _
  case bbflush => exact runBbflush_storageLegal h
  case encode =>
    simp only [ruleOf, runEncode]
    split
    · exact h
    · exact encodeLoop_storageLegal h _ _
  case decode =>
    have h0 : StorageLegal { s with decOutlen := 0, decBitpos := 0 } := ⟨h.mem, h.bb⟩
    simp only [ruleOf, runDecode]
    split_ifs
    · exact h0
    · exact h0
    · exact h0
    · exact decodeLoop_storageLegal h0 ..
  case recon =>
    simp only [ruleOf, runRecon]
    split_ifs with hb hn
    · exact h
    · exact h
    · exact reconBody_storageLegal h (by simpa using hb)
  case zzscan =>
    simp only [ruleOf, runZzscan]
    split
    · next hr => exact zzscanBody_storageLegal h hr
    · exact h
  case blkenc =>
    have hq : StorageLegal (quantBody (fdctBody s)) := ⟨h.mem, h.bb⟩
    simp only [ruleOf, runBlkenc]
    split_ifs with hb hr
    · exact h
    · exact h
    · have hr : s.inRange s.opDst 64 = true := by simpa using hr
      exact zzscanBody_storageLegal hq hr
  case blkdec =>
    obtain ⟨q, c, d, hs⟩ := blkdecStages_frame s
    simp only [ruleOf, runBlkdec]
    split_ifs with hr hb
    · exact h
    · exact h
    · have hb : s.blockInRange s.opDst = true := by simpa using hb
      rw [ok_state, blkdecBody, hs]
      exact reconBody_storageLegal ⟨h.mem, h.bb⟩ hb
  all_goals
    rw [frame]
    exact ⟨h.mem, h.bb⟩

end Sys2Proof.Machine
end

section
/-! SUPPORT. What the engine keeps of a legal state. -/

namespace Sys2Proof.Machine

/-- R250's cell is at least 1 and fits the 16 bits of a QM cell (10_state.md R72). -/
theorem qmCell_bounds (b : Byte) (q : Nat) : 1 ≤ qmCell b.toNat q ∧ qmCell b.toNat q < 2 ^ 16 := by
  have hm : qmMultiplier q ≤ 5000 := by
    unfold qmMultiplier
    split
    · exact Nat.div_le_self ..
    · omega
  have hp : qmMultiplier q * b.toNat ≤ 5000 * 255 := Nat.mul_le_mul hm (by have := b.isLt; omega)
  unfold qmCell
  omega

theorem qmMatrix_ne_zero (p : Params) (q : Nat) (i : Fin 64) : (qmMatrix p q).get i ≠ 0 := by
  obtain ⟨h1, h2⟩ := qmCell_bounds (p.qbase.get i) q
  intro h
  have h0 : qmCell (p.qbase.get i).toNat q % 2 ^ 16 = 0 := by simpa [qmMatrix] using congrArg BitVec.toNat h
  omega

theorem ruleOf_qm_ne_zero (i : Instr) {s : State} (h : ∀ k, s.qm.get k ≠ 0) (k : Fin 64) : (ruleOf i s).state.qm.get k ≠ 0 := by
  by_cases hi : i = .qmset
  · subst hi
    simp only [ruleOf, runQmset]
    split
    · exact h k
    · exact qmMatrix_ne_zero _ _ k
  · rw [ruleOf_qm hi]
    exact h k

theorem presentSymbols_length_le (f : Tab Word 256) : (presentSymbols f).length ≤ 256 :=
  (List.length_filter_le ..).trans_eq List.length_finRange

theorem ruleOf_nsym_le (i : Instr) {s : State} (h : s.nsym.toNat ≤ 256) : (ruleOf i s).state.nsym.toNat ≤ 256 := by
  by_cases hi : i = .treebuild
  · subst hi
    have hn : (ruleOf .treebuild s).state.nsym = BitVec.ofNat 9 (presentSymbols s.freq).length := by
      simp only [ruleOf, runTreebuild]
      split_ifs <;> rfl
    rw [hn, BitVec.toNat_ofNat]
    exact (Nat.mod_le ..).trans (presentSymbols_length_le s.freq)
  · rw [ruleOf_nsym hi]
    exact h

theorem ruleOf_legal (i : Instr) {s : State} (h : s.Legal) : (ruleOf i s).state.Legal := by
  obtain ⟨hparams, -, hstatus, hcmd, hop, -, -⟩ := ruleOf_keepsContext i s
  obtain ⟨hmem, hbb⟩ := ruleOf_storageLegal i ⟨h.mem, h.bb⟩
  exact {
    params := hparams ▸ h.params
    mem := hmem
    qm := ruleOf_qm_ne_zero i h.qm
    bb := hbb
    status := hstatus ▸ h.status
    lastop := by rw [hstatus, hcmd]; exact h.lastop
    pending := by rw [hstatus, hop, hcmd]; exact h.pending
    nsym := ruleOf_nsym_le i h.nsym }

theorem complete_legal {s : State} (h : s.Legal) (e : Option ErrorCode) : (s.complete e).Legal := by
  obtain ⟨hclear, hknown⟩ := status_complete_legal_code s.status e h.status.clear_code h.status.known_code
  exact {
    params := h.params
    mem := h.mem
    qm := h.qm
    bb := h.bb
    status := ⟨by simp, hclear, hknown⟩
    lastop := by simpa using h.lastop
    pending := by simp
    nsym := h.nsym }

theorem exec_legal {i : Instr} {s t : State} (h : s.Legal) (he : exec i s = .next t) : t.Legal ∧ t.params = s.params := by
  rw [(exec_next_iff i s t).mp he]
  exact ⟨complete_legal (ruleOf_legal i h) _, (ruleOf_keepsContext i s).params⟩

theorem engineTurn_legal {s t : State} (h : s.Legal) (he : engineTurn s = .next t) : t.Legal ∧ t.params = s.params := by
  rcases engineTurn_cases s with ⟨-, e⟩ | ⟨i, -, -, e⟩ | ⟨_, -, -, e⟩ <;> rw [e] at he
  · cases he; exact ⟨h, rfl⟩
  · exact exec_legal h he
  · cases he; exact ⟨complete_legal h _, rfl⟩

end Sys2Proof.Machine
end

section
/-! SUPPORT. What the host's accesses keep of a legal state. -/

namespace Sys2Proof.Machine

/-- The model's own record of the host's side is no part of legality. -/
theorem State.Legal.withHostRecord {s : State} (h : s.Legal) (turns : List Turn) (resp : Option Response) (draws : Nat) :
    State.Legal { s with turns := turns, resp := resp, draws := draws } :=
  ⟨h.params, h.mem, h.qm, h.bb, h.status, h.lastop, h.pending, h.nsym⟩

theorem qbase_ne_zero {p : Params} (h : p.wellFormed = true) (i : Fin 64) : p.qbase.get i ≠ 0 := by
  simp only [Params.wellFormed, Bool.and_eq_true, Tab.all_cells] at h
  simpa using h.1.2 i

theorem bitBuffer_reset_legal : BitBuffer.reset.Legal := ⟨by decide, by decide, by decide⟩

theorem status_reset_legal : Status.reset.Legal := ⟨by decide, by decide, by decide⟩

/-- Soft reset of a legal state: the power-on values (70_reset_and_hazards.md R601), and DMEM as it is. -/
theorem softReset_legal {s : State} (h : s.Legal) : s.softReset.Legal where
  params := h.params
  mem := h.mem
  qm i hi := by
    have hq : (s.params.qbase.get i).zeroExtend 16 = 0 := by simpa [State.softReset, State.powerOn] using hi
    have hb := qbase_ne_zero h.params i
    bv_omega
  bb := bitBuffer_reset_legal
  status := status_reset_legal
  lastop := show Status.reset.lastop = opcField 0 by decide
  pending hb := absurd hb Bool.false_ne_true
  nsym := Nat.zero_le _

theorem acknowledge_legal {s : State} (h : s.Legal) (v : Word) : (s.acknowledge v).Legal where
  params := h.params
  mem := h.mem
  qm := h.qm
  bb := h.bb
  status := by
    obtain ⟨hbusy, hclear, hknown⟩ := h.status
    refine ⟨fun hb => ?_, ?_, ?_⟩ <;> simp only [acknowledge_status, Status.writeOneToClear]
    · rw [hbusy hb, Bool.false_and]
    · cases v.getLsbD 2 with
      | true => simp
      | false => simpa using hclear
    · cases v.getLsbD 2 with
      | true => simp
      | false => simpa using hknown
  lastop := h.lastop
  pending := h.pending
  nsym := h.nsym

/-- Acceptance makes the written word the last accepted and the pending one (60_exceptions.md R501). -/
theorem accept_legal {s : State} (h : s.Legal) (w : Word) : (s.accept w).Legal where
  params := h.params
  mem := h.mem
  qm := h.qm
  bb := h.bb
  status := ⟨fun _ => rfl, h.status.clear_code, h.status.known_code⟩
  lastop := rfl
  pending _ := rfl
  nsym := h.nsym

theorem writeCmd_legal {s : State} (h : s.Legal) (w : Word) : (writeCmd s w).Legal := by
  unfold writeCmd
  split
  · obtain ⟨hbusy, hclear, hknown⟩ := h.status
    exact ⟨h.params, h.mem, h.qm, h.bb, ⟨hbusy, hclear, hknown⟩, h.lastop, h.pending, h.nsym⟩
  · exact accept_legal h w

theorem writeCtrl_legal {s : State} (h : s.Legal) (v : Word) : (writeCtrl s v).Legal := by
  unfold writeCtrl
  split
  · exact softReset_legal h
  · exact ⟨h.params, h.mem, h.qm, h.bb, h.status, h.lastop, h.pending, h.nsym⟩

theorem regWrite_legal {s : State} (h : s.Legal) (v : Word) (r : Reg) : (regWrite s v r).Legal := by
  cases r
  case ctrl => exact writeCtrl_legal h v
  case status => exact acknowledge_legal h v
  case cmd => exact writeCmd_legal h v
  all_goals exact ⟨h.params, h.mem, h.qm, h.bb, h.status, h.lastop, h.pending, h.nsym⟩

theorem regWrite_params (s : State) (v : Word) (r : Reg) : (regWrite s v r).params = s.params := by
  cases r
  case ctrl => simp only [regWrite, writeCtrl]; split <;> rfl
  case cmd => simp only [regWrite, writeCmd]; split <;> rfl
  all_goals rfl

theorem writeWord_wf {size : Nat} {s : State} (h : Memory.wf size s.mem = true) (a : Nat) (v : Word) {n : Nat}
    (hr : a + n ≤ size) : Memory.wf size (writeWord s a v n).mem = true := by
  induction n with
  | zero => exact h
  | succ n ih => exact Memory.wf_put _ (by omega) (ih (by omega))

theorem writeWord_legal {s : State} (h : s.Legal) {a n : Nat} (v : Word) (hr : a + n ≤ s.params.dmemSize) :
    (writeWord s a v n).Legal := by
  rw [writeWord_mem_only]
  exact ⟨h.params, writeWord_wf h.mem a v hr, h.qm, h.bb, h.status, h.lastop, h.pending, h.nsym⟩

theorem hostTurn_legal {s t : State} {o : HostOp} (h : s.Legal) (ho : hostTurn s o = .next t) : t.Legal ∧ t.params = s.params := by
  rcases hostTurn_next_cases ho with e | ⟨off, v, -, -, -, -, rfl⟩ | ⟨a, size, v, -, hr, rfl⟩
  · rw [e]
    exact ⟨h.withHostRecord .., rfl⟩
  · exact ⟨(regWrite_legal h v _).withHostRecord .., regWrite_params ..⟩
  · refine ⟨(writeWord_legal h v hr).withHostRecord .., ?_⟩
    rw [respond_params, writeWord_mem_only]

/-- Settles O13: the engine's turn and the host's keep each part of legality. -/
theorem legalStatesStayLegal : Obligations.LegalStatesStayLegal := by
  unfold Obligations.LegalStatesStayLegal
  intro s t h hs
  rcases step_cases s with ⟨-, e⟩ | ⟨rest, -, e⟩ | ⟨o, rest, -, e⟩ <;> rw [e] at hs
  · exact engineTurn_legal h hs
  · exact engineTurn_legal (s := { s with turns := rest }) (h.withHostRecord ..) hs
  · exact hostTurn_legal (s := { s with turns := rest }) (h.withHostRecord ..) hs

end Sys2Proof.Machine
end

section
/-! SUPPORT. QM changes by QMSET and by a soft reset alone (10_state.md R72). -/

namespace Sys2Proof.Machine

theorem engineTurn_qm {s t : State} (h : engineTurn s = .next t) (hq : t.qm ≠ s.qm) :
    s.status.busy = true ∧ decode s.op.word = .ok .qmset := by
  rcases engineTurn_cases s with ⟨-, e⟩ | ⟨i, hb, hd, e⟩ | ⟨_, -, -, e⟩ <;> rw [e] at h
  · cases h; exact absurd rfl hq
  · refine ⟨hb, hd.trans (congrArg _ (by_contra fun hi => hq ?_))⟩
    rw [(exec_next_iff i s t).mp h, complete_qm, ruleOf_qm hi]
  · cases h; exact absurd rfl hq

theorem regWrite_qm {s : State} {v : Word} {r : Reg} (h : (regWrite s v r).qm ≠ s.qm) : r = .ctrl ∧ v.getLsbD 1 = true := by
  cases r
  case ctrl =>
    by_contra hn
    have hv : ¬ v.getLsbD 1 = true := fun hv => hn ⟨rfl, hv⟩
    rw [regWrite, writeCtrl, if_neg hv] at h
    exact h rfl
  case cmd =>
    simp only [regWrite, writeCmd] at h
    split at h <;> exact absurd rfl h
  all_goals exact absurd rfl h

/-- A host turn changes QM by a soft reset, which goes on only while the engine is idle (70_reset_and_hazards.md R620). -/
theorem hostTurn_qm {s t : State} {o : HostOp} (h : hostTurn s o = .next t) (hq : t.qm ≠ s.qm) :
    s.status.busy = false ∧ ∃ v, HostOp.writes o .ctrl v ∧ v.getLsbD 1 = true := by
  rcases hostTurn_next_cases h with e | ⟨off, v, rfl, h4, hlt, hz, rfl⟩ | ⟨a, size, v, -, -, rfl⟩
  · rw [e] at hq
    exact absurd rfl hq
  · obtain ⟨hr, hv⟩ := regWrite_qm hq
    refine ⟨?_, v, ⟨off, rfl, h4, hlt, hr⟩, hv⟩
    by_contra hb
    simp [hr, regWriteHazard, hv] at hz
    exact hb hz
  · rw [respond_qm, writeWord_mem_only] at hq
    exact absurd rfl hq

/-- Settles O16: the engine's turn and the host's each change QM in one way. -/
theorem qmChangesOnlyByQmset : Obligations.QmChangesOnlyByQmset := by
  unfold Obligations.QmChangesOnlyByQmset
  intro s t h hq
  rcases step_cases s with ⟨ht, e⟩ | ⟨rest, ht, e⟩ | ⟨o, rest, ht, e⟩ <;> rw [e] at h
  · obtain ⟨hb, hd⟩ := engineTurn_qm h hq
    exact .inl ⟨hb, hd, .inl ht⟩
  · obtain ⟨hb, hd⟩ := engineTurn_qm h hq
    exact .inl ⟨hb, hd, .inr ⟨rest, ht⟩⟩
  · obtain ⟨hb, v, hw, hv⟩ := hostTurn_qm h hq
    exact .inr ⟨hb, o, rest, v, ht, hw, hv⟩

end Sys2Proof.Machine
end

section
/-! SUPPORT. Reads and writes of one register, in every state (20_memory.md R100; 70_reset_and_hazards.md R620). -/

namespace Sys2Proof.Machine

theorem regAt_reserved {off : Nat} (h : 0x6C ≤ off ∧ off < 0x400 ∨ 0x1340 ≤ off) : regAt off = .reserved := by
  rcases h with ⟨h1, h2⟩ | h
  · rw [regAt, if_neg (by omega), if_pos h2]
  · rw [regAt, if_neg (by omega), if_neg (by omega), dif_neg (by omega), dif_neg (by omega), dif_neg (by omega),
      dif_neg (by omega), dif_neg (by omega)]

/-- A read of a register that the pending command does not write gives its value. -/
theorem hostTurn_regRead {s : State} {off : Nat} (h4 : off % 4 = 0) (hlt : off < 0x2000) (hw : s.inWriteSet (regAt off) = false) :
    hostTurn s (.regRead off 4) = .next { s with resp := some ⟨regValue s (regAt off), false⟩ } := by
  have hok : regAccessOk off 4 = true := (regAccessOk_iff off 4).mpr ⟨rfl, h4, hlt⟩
  simp [hostTurn, hostRegRead, hok, hw, State.respond]

theorem hostTurn_regWrite {s : State} {off : Nat} {v : Word} (h4 : off % 4 = 0) (hlt : off < 0x2000)
    (hz : s.status.busy = true → regWriteHazard v (regAt off) = none) :
    hostTurn s (.regWrite off 4 v) = .next ((regWrite s v (regAt off)).respond 0) := by
  have hok : regAccessOk off 4 = true := (regAccessOk_iff off 4).mpr ⟨rfl, h4, hlt⟩
  rcases hostRegWrite_cases s off 4 v with ⟨h, -⟩ | ⟨f, -, hb, h, -⟩ | ⟨-, -, h⟩
  · rw [hok] at h; cases h
  · rw [hz hb] at h; cases h
  · exact h

theorem takes_regWrite {s t : State} {off : Nat} {v : Word} (h4 : off % 4 = 0) (hlt : off < 0x2000)
    (hz : s.status.busy = true → regWriteHazard v (regAt off) = none) (ht : regWrite s v (regAt off) = t) :
    Takes s (.regWrite off 4 v) t := by
  subst ht
  exact ⟨0, hostTurn_regWrite h4 hlt hz⟩

theorem inWriteSet_eq_false {s : State} {r : Reg} (h : ∀ i, mayWrite r i = false) : s.inWriteSet r = false := by
  by_contra hw
  obtain ⟨i, -, hi⟩ := (pendingHas_iff s (mayWrite r)).mp (Bool.eq_true_of_not_eq_false hw)
  rw [h i] at hi
  cases hi

/-- Settles O21: a reserved offset is in no W(op) and its write is no hazard. -/
theorem reservedOffsetsReadZero : Obligations.ReservedOffsetsReadZero := by
  unfold Obligations.ReservedOffsetsReadZero
  intro s off h4 hoff
  have hlt : off < 0x2000 := by omega
  have hr : regAt off = .reserved := regAt_reserved (by omega)
  have hw : s.inWriteSet (regAt off) = false := by rw [hr]; exact inWriteSet_eq_false fun i => by cases i <;> rfl
  refine ⟨by rw [hostTurn_regRead h4 hlt hw, hr]; rfl, fun v => ?_⟩
  refine ⟨_, hostTurn_regWrite h4 hlt fun _ => by rw [hr]; rfl, ?_⟩
  rw [hr]
  exact ⟨rfl, rfl⟩

end Sys2Proof.Machine
end

section
/-! SUPPORT. STATUS and IRQ (10_state.md R44, R84). -/

namespace Sys2Proof.Machine

section
variable {a b c d e : Nat} (z : BitVec a) (y : BitVec b) (x : BitVec c) (w : BitVec d) (v : BitVec e)

/-- Each of five fields side by side is found where the widths below it end. -/
theorem extract_five_fields :
    (z ++ (y ++ (x ++ (w ++ v)))).extractLsb' e d = w ∧ (z ++ (y ++ (x ++ (w ++ v)))).extractLsb' (d + e) c = x ∧
    (z ++ (y ++ (x ++ (w ++ v)))).extractLsb' (c + (d + e)) b = y ∧
    (z ++ (y ++ (x ++ (w ++ v)))).extractLsb' (b + (c + (d + e))) a = z := by
  refine ⟨?_, ?_, ?_, BitVec.extractLsb'_append_eq_left⟩
  · rw [BitVec.extractLsb'_append_eq_of_add_le (by omega), BitVec.extractLsb'_append_eq_of_add_le (by omega),
      BitVec.extractLsb'_append_eq_of_add_le (by omega), BitVec.extractLsb'_append_eq_left]
  · rw [BitVec.extractLsb'_append_eq_of_add_le (by omega), BitVec.extractLsb'_append_eq_of_add_le (by omega),
      BitVec.extractLsb'_append_eq_left]
  · rw [BitVec.extractLsb'_append_eq_of_add_le (by omega), BitVec.extractLsb'_append_eq_left]

theorem getLsbD_lowest_field {i : Nat} (h : i < e) : (z ++ (y ++ (x ++ (w ++ v)))).getLsbD i = v.getLsbD i := by
  rw [BitVec.getLsbD_append, if_pos (by omega), BitVec.getLsbD_append, if_pos (by omega), BitVec.getLsbD_append,
    if_pos (by omega), BitVec.getLsbD_append, if_pos h]

end

theorem flags_getLsbD (cmddrop err done busy : Bool) :
    let v := BitVec.ofBool cmddrop ++ (BitVec.ofBool err ++ (BitVec.ofBool done ++ BitVec.ofBool busy))
    v.getLsbD 0 = busy ∧ v.getLsbD 1 = done ∧ v.getLsbD 2 = err ∧ v.getLsbD 3 = cmddrop := by
  revert cmddrop err done busy
  decide

/-- STATUS bit by bit (10_state.md R44). -/
theorem statusWord_fields (st : Status) :
    st.word.getLsbD 0 = st.busy ∧ st.word.getLsbD 1 = st.done ∧ st.word.getLsbD 2 = st.err ∧ st.word.getLsbD 3 = st.cmddrop ∧
    st.word.extractLsb' 4 4 = 0 ∧ st.word.extractLsb' 8 8 = (if st.err then st.errcode else 0) ∧
    st.word.extractLsb' 16 8 = st.lastop ∧ st.word.extractLsb' 24 8 = 0 := by
  obtain ⟨hbusy, hdone, herr, hdrop⟩ := flags_getLsbD st.cmddrop st.err st.done st.busy
  exact ⟨(getLsbD_lowest_field 0 _ _ (0 : BitVec 4) _ (by decide)).trans hbusy,
    (getLsbD_lowest_field 0 _ _ (0 : BitVec 4) _ (by decide)).trans hdone,
    (getLsbD_lowest_field 0 _ _ (0 : BitVec 4) _ (by decide)).trans herr,
    (getLsbD_lowest_field 0 _ _ (0 : BitVec 4) _ (by decide)).trans hdrop,
    extract_five_fields 0 st.lastop (if st.err then st.errcode else 0) (0 : BitVec 4) _⟩

/-- Settles O24: STATUS is in no W(op), and its word is the fields side by side. -/
theorem statusReadsItsFields : Obligations.StatusReadsItsFields := by
  unfold Obligations.StatusReadsItsFields
  intro s
  have hw : s.inWriteSet (regAt 0x008) = false := inWriteSet_eq_false fun i => by cases i <;> rfl
  exact ⟨hostTurn_regRead (by decide) (by decide) hw, statusWord_fields s.status⟩

theorem writeOneToClear_eq (st : Status) (v : Word) : st.writeOneToClear v = { st with
    done := if v.getLsbD 1 then false else st.done
    err := if v.getLsbD 2 then false else st.err
    errcode := if v.getLsbD 2 then 0 else st.errcode
    cmddrop := if v.getLsbD 3 then false else st.cmddrop } := by
  unfold Status.writeOneToClear
  cases v.getLsbD 1 <;> cases v.getLsbD 2 <;> cases v.getLsbD 3 <;> simp

theorem irq_iff (s : State) : s.irq = true ↔ s.ie = true ∧ s.status.done = true := by
  rw [State.irq, Bool.and_eq_true]

/-- Completion raises IRQ where IE is set (60_exceptions.md R520). -/
theorem complete_irq (s : State) (e : Option ErrorCode) : (s.complete e).irq = s.ie := by
  simp [State.irq]

theorem engineTurn_irq {s t : State} (hb : s.status.busy = true) (h : engineTurn s = .next t) : t.irq = s.ie := by
  rcases engineTurn_cases s with ⟨hi, -⟩ | ⟨i, -, -, e⟩ | ⟨_, -, -, e⟩
  · rw [hb] at hi; cases hi
  · rw [e] at h
    rw [(exec_next_iff i s t).mp h, complete_irq, (ruleOf_keepsContext i s).ie]
  · rw [e] at h
    cases h
    exact complete_irq ..

/-- Settles O23: IRQ is a function of IE and DONE, and each event writes them as its rule says. -/
theorem irqFollowsDone : Obligations.IrqFollowsDone := by
  unfold Obligations.IrqFollowsDone
  refine ⟨irq_iff, fun s t => engineTurn_irq, fun s t w hb h => ?_, fun s v => ?_, fun s => ?_⟩
  · rw [hostTurn_regWrite (by decide) (by decide) (fun h => by rw [hb] at h; cases h)] at h
    cases h
    have hr : regAt 0x00C = .cmd := rfl
    simp [State.irq, hr, regWrite, writeCmd, hb]
  · refine takes_regWrite (by decide) (by decide) (fun _ => rfl) ?_
    exact congrArg (fun st => { s with status := st }) (writeOneToClear_eq s.status v)
  · exact takes_regWrite (by decide) (by decide) (fun _ => rfl) rfl

end Sys2Proof.Machine
end

section
/-! SUPPORT. The registers a host write may set to data, and what such a write does while no command is pending (10_state.md §2, §3). -/

namespace Sys2Proof.Machine

/-- The bits that a host write of data sets in a register, if it sets any: QUALITY, PUTLEN and the code lengths are narrow
(R46, R53, R71). -/
def dataBits : Reg → Option Word
  | .quality => some 0xFF
  | .putlen | .codeLen _ => some 0x3F
  | .src | .dst | .len | .stride | .dstlen | .putbits | .bitcntLo | .bitcntHi | .freq _ | .codeBits _ | .coefLo _ | .coefHi _
  | .qblk _ => some 0xFFFFFFFF
  | .id | .ctrl | .status | .cmd | .outptr | .bbOutcnt | .bbLimit | .bbState | .bbtotLo | .bbtotHi | .decOutlen | .decBitposLo
  | .decBitposHi | .encPos | .nsym | .maxlen | .dmemsz | .reserved | .qm _ => none

/-! ### Where the registers stand -/

/-- A register that is not reserved stands at one offset. -/
theorem offsetOf_regAt {off : Nat} (h4 : off % 4 = 0) : regAt off = .reserved ∨ offsetOf (regAt off) = off := by
  apply offset_cases (P := fun off => regAt off = .reserved ∨ offsetOf (regAt off) = off) (h4 := h4)
  case low => decide
  case reserved => exact fun _ _ hr => .inl hr
  all_goals
    intro i
    simp only [regAt_freq, regAt_codeBits, regAt_codeLen, regAt_qm, regAt_coefLo, regAt_coefHi, regAt_qblk, offsetOf, or_true]

theorem regAt_injective {off off' : Nat} (h4 : off % 4 = 0) (h4' : off' % 4 = 0) (hr : regAt off ≠ .reserved)
    (h : regAt off' = regAt off) : off' = off := by
  have e := (offsetOf_regAt h4).resolve_left hr
  have e' := (offsetOf_regAt h4').resolve_left (h ▸ hr)
  rw [← e', h, e]

/-- The offsets that take data, and their widths. -/
theorem regAt_dataBits {off : Nat} (h4 : off % 4 = 0) :
    (0x010 ≤ off ∧ off ≤ 0x034) ∨ (0x400 ≤ off ∧ off < 0x1000) ∨ (0x1100 ≤ off ∧ off < 0x1340) →
    dataBits (regAt off) = some (if off = 0x010 then 0xFF
      else if off = 0x02C ∨ (0x800 ≤ off ∧ off < 0x1000 ∧ off % 8 = 4) then 0x3F else 0xFFFFFFFF) := by
  apply offset_cases (h4 := h4) (P := fun off =>
    (0x010 ≤ off ∧ off ≤ 0x034) ∨ (0x400 ≤ off ∧ off < 0x1000) ∨ (0x1100 ≤ off ∧ off < 0x1340) →
    dataBits (regAt off) = some (if off = 0x010 then 0xFF
      else if off = 0x02C ∨ (0x800 ≤ off ∧ off < 0x1000 ∧ off % 8 = 4) then 0x3F else 0xFFFFFFFF))
  case low => decide
  case reserved => intro off h _ hd; omega
  case codeLen =>
    intro i _
    rw [if_neg (by omega), if_pos (by omega), regAt_codeLen]
    rfl
  all_goals
    intro i hd
    rw [if_neg (by omega), if_neg (by omega)]
    simp only [regAt_freq, regAt_codeBits, regAt_qm, regAt_coefLo, regAt_coefHi, regAt_qblk, dataBits]
  omega

/-! ### Halves, bytes and narrow fields -/

@[simp] theorem lo_withLo (x : DWord) (v : Word) : DWord.lo (DWord.withLo x v) = v := BitVec.extractLsb'_append_eq_right

@[simp] theorem hi_withLo (x : DWord) (v : Word) : DWord.hi (DWord.withLo x v) = DWord.hi x := BitVec.extractLsb'_append_eq_left

@[simp] theorem lo_withHi (x : DWord) (v : Word) : DWord.lo (DWord.withHi x v) = DWord.lo x := BitVec.extractLsb'_append_eq_right

@[simp] theorem hi_withHi (x : DWord) (v : Word) : DWord.hi (DWord.withHi x v) = v := BitVec.extractLsb'_append_eq_left

theorem and_ones (v : Word) : v &&& 0xFFFFFFFF = v := BitVec.and_allOnes

/-- A field of `k` bits keeps the low `k` bits of what is written. -/
theorem narrow_readBack (v : Word) {k : Nat} (hk : k ≤ 32) :
    (v.setWidth k).setWidth 32 = v &&& BitVec.ofNat 32 (2 ^ k - 1) := by
  have hp : 2 ^ k ≤ 2 ^ 32 := Nat.pow_le_pow_right (by decide) hk
  apply BitVec.eq_of_toNat_eq
  rw [BitVec.toNat_and, BitVec.toNat_ofNat, Nat.mod_eq_of_lt (by omega), Nat.and_two_pow_sub_one_eq_mod, BitVec.toNat_setWidth,
    BitVec.toNat_setWidth, Nat.mod_eq_of_lt (a := v.toNat % 2 ^ k)]
  exact (Nat.mod_le ..).trans_lt v.isLt

/-- The four bytes of a word, byte 3 highest (20_memory.md R104). -/
theorem bytes_append (v : Word) : byteOf v 3 ++ (byteOf v 2 ++ (byteOf v 1 ++ byteOf v 0)) = v := by
  have h1 : byteOf v 1 ++ byteOf v 0 = v.extractLsb' 0 16 := BitVec.extractLsb'_append_extractLsb'_eq_extractLsb' (by decide)
  have h2 : byteOf v 2 ++ v.extractLsb' 0 16 = v.extractLsb' 0 24 := BitVec.extractLsb'_append_extractLsb'_eq_extractLsb' (by decide)
  have h3 : byteOf v 3 ++ v.extractLsb' 0 24 = v.extractLsb' 0 32 := BitVec.extractLsb'_append_extractLsb'_eq_extractLsb' (by decide)
  calc byteOf v 3 ++ (byteOf v 2 ++ (byteOf v 1 ++ byteOf v 0))
      = byteOf v 3 ++ (byteOf v 2 ++ v.extractLsb' 0 16) := by rw [h1]
    _ = byteOf v 3 ++ v.extractLsb' 0 24 := by rw [h2]
    _ = v.extractLsb' 0 32 := h3
    _ = v := BitVec.extractLsb'_eq_self

theorem qblkIx_eq_iff (k : Fin 16) (m : Fin 4) (j : Fin 64) : qblkIx k m = j ↔ j.val / 4 = k.val ∧ j.val % 4 = m.val := by
  have := m.isLt
  rw [Fin.ext_iff, show (qblkIx k m).val = 4 * k.val + m.val from rfl]
  omega

/-- A write of QBLK word `k` sets its four cells (10_state.md R74). -/
theorem get_writeQblkWord (q : Tab Byte 64) (k : Fin 16) (v : Word) (j : Fin 64) :
    (writeQblkWord q k v).get j = if j.val / 4 = k.val then byteOf v (j.val % 4) else q.get j := by
  simp only [writeQblkWord, Tab.get_set, qblkIx_eq_iff]
  by_cases hk : j.val / 4 = k.val
  · have : j.val % 4 = 0 ∨ j.val % 4 = 1 ∨ j.val % 4 = 2 ∨ j.val % 4 = 3 := by omega
    rcases this with h | h | h | h <;> simp [hk, h]
  · simp [hk]

theorem get_set_written {α : Type} {n : Nat} (t : Tab α n) (i : Fin n) (x : α) (j : Fin n) :
    (t.set i x).get j = if j = i then x else t.get j := by
  rw [Tab.get_set]
  simp only [eq_comm]

/-- A part of a cell that the write of a cell leaves. -/
theorem apply_get_set {α β : Type} {n : Nat} (f : α → β) (t : Tab α n) {i j : Fin n} {x : α} (h : i = j → f x = f (t.get i)) :
    f ((t.set i x).get j) = f (t.get j) := by
  rw [Tab.get_set]
  split
  · next e => rw [h e, e]
  · rfl

/-! ### What a write of data leaves, and what it reads as -/

section
variable {s : State} {r : Reg} {bits : Word} (hr : dataBits r = some bits)
include hr

theorem regWrite_status_of_data (v : Word) : (regWrite s v r).status = s.status := by
  cases r <;> cases hr <;> rfl

theorem regValue_regWrite_same (v : Word) : regValue (regWrite s v r) r = v &&& bits := by
  cases r <;> cases hr
  case quality => exact narrow_readBack v (by decide)
  case putlen => exact narrow_readBack v (by decide)
  case codeLen i =>
    simp only [regWrite, regValue, Tab.get_set_same]
    exact narrow_readBack v (by decide)
  case qblk k =>
    have cell (m : Fin 4) : (writeQblkWord s.qblk k v).get (qblkIx k m) = byteOf v m.val := by
      obtain ⟨hk, hm⟩ := (qblkIx_eq_iff k m _).mp rfl
      rw [get_writeQblkWord, if_pos hk, hm]
    simp only [regWrite, regValue, cell, and_ones]
    exact bytes_append v
  all_goals
    rw [and_ones]
    simp [regWrite, regValue]

/-- A write of data leaves every other register: the windows' other cells, the other half of a cell, and all else. -/
theorem regValue_regWrite_of_ne {r' : Reg} (hne : r' ≠ r) (v : Word) : regValue (regWrite s v r) r' = regValue s r' := by
  cases r <;> cases hr
  case freq i =>
    cases r' with
    | freq j => exact Tab.get_set_of_ne _ (fun e => hne (congrArg _ e.symm)) v
    | _ => rfl
  case codeBits i =>
    cases r' with
    | codeBits j => exact apply_get_set CodeEntry.bits _ fun e => absurd (congrArg _ e.symm) hne
    | codeLen j => exact apply_get_set (fun c : CodeEntry => c.len.zeroExtend 32) _ fun _ => rfl
    | _ => rfl
  case codeLen i =>
    cases r' with
    | codeBits j => exact apply_get_set CodeEntry.bits _ fun _ => rfl
    | codeLen j => exact apply_get_set (fun c : CodeEntry => c.len.zeroExtend 32) _ fun e => absurd (congrArg _ e.symm) hne
    | _ => rfl
  case coefLo i =>
    cases r' with
    | coefLo j => exact apply_get_set DWord.lo _ fun e => absurd (congrArg _ e.symm) hne
    | coefHi j => exact apply_get_set DWord.hi _ fun _ => hi_withLo ..
    | _ => rfl
  case coefHi i =>
    cases r' with
    | coefLo j => exact apply_get_set DWord.lo _ fun _ => lo_withHi ..
    | coefHi j => exact apply_get_set DWord.hi _ fun e => absurd (congrArg _ e.symm) hne
    | _ => rfl
  case qblk k =>
    cases r' with
    | qblk k' =>
      have cell (m : Fin 4) : (writeQblkWord s.qblk k v).get (qblkIx k' m) = s.qblk.get (qblkIx k' m) := by
        obtain ⟨hk, -⟩ := (qblkIx_eq_iff k' m _).mp rfl
        rw [get_writeQblkWord, if_neg fun e => hne (congrArg _ (Fin.ext (hk.symm.trans e)))]
      simp only [regWrite, regValue, cell]
    | _ => rfl
  case bitcntLo =>
    cases r' with
    | bitcntLo => exact absurd rfl hne
    | bitcntHi => exact hi_withLo ..
    | _ => rfl
  case bitcntHi =>
    cases r' with
    | bitcntHi => exact absurd rfl hne
    | bitcntLo => exact lo_withHi ..
    | _ => rfl
  -- the eight operand registers of one word each
  all_goals cases r' <;> simp [regWrite, regValue] at hne ⊢

end

/-! ### Accesses while no command is pending -/

section
variable {s : State} (hb : s.status.busy = false)
include hb

theorem inWriteSet_of_idle (r : Reg) : s.inWriteSet r = false := by
  rw [State.inWriteSet, pendingHas, hb, Bool.false_and]

theorem idle_regRead {off : Nat} (h4 : off % 4 = 0) (hlt : off < 0x2000) :
    hostTurn s (.regRead off 4) = .next { s with resp := some ⟨regValue s (regAt off), false⟩ } :=
  hostTurn_regRead h4 hlt (inWriteSet_of_idle hb _)

theorem idle_regWrite {off : Nat} (h4 : off % 4 = 0) (hlt : off < 0x2000) (v : Word) :
    hostTurn s (.regWrite off 4 v) = .next ((regWrite s v (regAt off)).respond 0) :=
  hostTurn_regWrite h4 hlt fun h => by rw [hb] at h; cases h

theorem idle_takes {off : Nat} {v : Word} {t : State} (h4 : off % 4 = 0) (hlt : off < 0x2000) (ht : regWrite s v (regAt off) = t) :
    Takes s (.regWrite off 4 v) t :=
  takes_regWrite h4 hlt (fun h => by rw [hb] at h; cases h) ht

end

theorem regValue_respond (s : State) (d : Word) (r : Reg) : regValue (s.respond d) r = regValue s r := by
  cases r <;> rfl

/-- A write at an offset that takes data reads back within its bits, and every other offset reads as before. -/
theorem idle_write_readBack {s : State} (hb : s.status.busy = false) (v : Word) {off : Nat} {bits : Word} (h4 : off % 4 = 0)
    (hlt : off < 0x2000) (hr : dataBits (regAt off) = some bits) :
    ∃ t, hostTurn s (.regWrite off 4 v) = .next t ∧
      hostTurn t (.regRead off 4) = .next { t with resp := some ⟨v &&& bits, false⟩ } ∧
      ∀ off', off' % 4 = 0 → off' < 0x2000 → off' ≠ off →
        ∃ d, hostTurn s (.regRead off' 4) = .next { s with resp := some ⟨d, false⟩ } ∧
          hostTurn t (.regRead off' 4) = .next { t with resp := some ⟨d, false⟩ } := by
  have hb' : ((regWrite s v (regAt off)).respond 0).status.busy = false := by
    rw [respond_status, regWrite_status_of_data hr, hb]
  refine ⟨_, idle_regWrite hb h4 hlt v, ?_, fun off' h4' hlt' hne => ⟨_, idle_regRead hb h4' hlt', ?_⟩⟩
  · rw [idle_regRead hb' h4 hlt, regValue_respond, regValue_regWrite_same hr]
  · have hreserved : regAt off ≠ .reserved := fun e => by rw [e] at hr; cases hr
    rw [idle_regRead hb' h4' hlt', regValue_respond,
      regValue_regWrite_of_ne hr fun e => hne (regAt_injective h4 h4' hreserved e)]

/-- A register that takes no data and is none of CTRL, STATUS and CMD ignores writes. -/
theorem regWrite_of_ignored {r : Reg} (hd : dataBits r = none) (hctrl : r ≠ .ctrl) (hstatus : r ≠ .status) (hcmd : r ≠ .cmd)
    (s : State) (v : Word) : regWrite s v r = s := by
  cases r
  case ctrl => exact absurd rfl hctrl
  case status => exact absurd rfl hstatus
  case cmd => exact absurd rfl hcmd
  all_goals cases hd <;> rfl

/-- ID, the read-only registers and QM are such. -/
theorem regAt_ignored {off : Nat} (h4 : off % 4 = 0) :
    off = 0x000 ∨ (0x038 ≤ off ∧ off ≤ 0x068) ∨ (0x1000 ≤ off ∧ off < 0x1100) →
    dataBits (regAt off) = none ∧ regAt off ≠ .ctrl ∧ regAt off ≠ .status ∧ regAt off ≠ .cmd := by
  apply offset_cases (P := fun off => off = 0x000 ∨ (0x038 ≤ off ∧ off ≤ 0x068) ∨ (0x1000 ≤ off ∧ off < 0x1100) →
    dataBits (regAt off) = none ∧ regAt off ≠ .ctrl ∧ regAt off ≠ .status ∧ regAt off ≠ .cmd) (h4 := h4)
  case low => decide
  case qm => intro i _; simp [regAt_qm, dataBits]
  all_goals intros; omega

/-- Settles O20: the register map, and one lemma for each kind of register. -/
theorem registerWritesReadBack : Obligations.RegisterWritesReadBack := by
  unfold Obligations.RegisterWritesReadBack
  intro s hb
  refine ⟨fun p hp => ?_, fun v => ⟨?_, ?_, ?_, fun i => ?_, fun i => ?_, fun i => ?_, fun i => ?_, fun i => ?_, fun k => ?_,
    fun off h4 hoff => ?_, fun off h4 hoff => ?_⟩⟩
  · obtain ⟨h4, hlt, hv⟩ := registerMap_value s p hp
    rw [idle_regRead hb h4 hlt, hv]
  · simp only [operandWrites, List.forall_mem_cons, List.not_mem_nil, false_implies, implies_true, and_true]
    and_intros <;> exact idle_takes hb (by decide) (by decide) rfl
  · exact idle_takes hb (by decide) (by decide) rfl
  · exact idle_takes hb (by decide) (by decide) rfl
  · exact ⟨_, idle_takes hb (by omega) (by omega) (by rw [regAt_freq]; rfl), get_set_written _ i v⟩
  · exact ⟨_, idle_takes hb (by omega) (by omega) (by rw [regAt_codeBits]; rfl), get_set_written _ i _⟩
  · exact ⟨_, idle_takes hb (by omega) (by omega) (by rw [regAt_codeLen]; rfl), get_set_written _ i _⟩
  · exact ⟨_, idle_takes hb (by omega) (by omega) (by rw [regAt_coefLo]; rfl), get_set_written _ i _⟩
  · exact ⟨_, idle_takes hb (by omega) (by omega) (by rw [regAt_coefHi]; rfl), get_set_written _ i _⟩
  · exact ⟨_, idle_takes hb (by omega) (by omega) (by rw [regAt_qblk]; rfl), get_writeQblkWord s.qblk k v⟩
  · obtain ⟨hd, hctrl, hstatus, hcmd⟩ := regAt_ignored h4 hoff
    exact idle_takes hb h4 (by omega) (regWrite_of_ignored hd hctrl hstatus hcmd s v)
  · obtain ⟨t, hw, hsame, hother⟩ := idle_write_readBack hb v h4 (by omega) (regAt_dataBits h4 hoff)
    exact ⟨t, hw, fun bits hbits => hbits ▸ hsame, hother⟩

end Sys2Proof.Machine
end

section
/-! SUPPORT. ENCODE's turn for one byte, past the look-up of its code (43_huffman.md R335). -/

namespace Sys2Proof.Machine

/-- What ENCODE does with the entry `c` of a byte: the two checks of its length, and the append of its code. -/
def encodeEntry (s : State) (c : CodeEntry) : Ran :=
  if c.len.toNat = 0 then s.raised .noCode
  else if 32 < c.len.toNat then s.raised .badTable
  else append s c.bits c.len.toNat

theorem encodeByte_eq (s : State) (i : Nat) :
    encodeByte s i = encodeEntry { s with encPos := BitVec.ofNat 32 i } (s.code.get (byteIx (s.readByte (s.opSrc + i)))) := rfl

theorem encodeEntry_onlyStream (s : State) (c : CodeEntry) : OnlyStream s (encodeEntry s c).state := by
  unfold encodeEntry
  split_ifs
  · exact OnlyStream.rfl s
  · exact OnlyStream.rfl s
  · exact append_onlyStream s _ _

theorem encodeByte_op (s : State) (i : Nat) : (encodeByte s i).state.op = s.op := by
  rw [encodeByte_eq, encodeEntry_onlyStream]

end Sys2Proof.Machine
end

section
/-! SUPPORT. Two runs of a rule whose memories agree on some addresses, those the rule reads among them (20_memory.md R112). -/

namespace Sys2Proof.Machine

/-- The state with another DMEM. -/
def State.withMem (s : State) (m : Memory) : State := { s with mem := m }

/-- `t` is `s` but for DMEM, and reads as `s` does at the addresses of `P`. -/
def AgreeOn (P : Nat → Prop) (s t : State) : Prop := ∃ m, t = s.withMem m ∧ ∀ a, P a → s.readByte a = t.readByte a

/-- Two runs that end alike, in states that agree. -/
structure RunsAgree (P : Nat → Prop) (x y : Ran) : Prop where
  state : AgreeOn P x.state y.state
  error : x.error = y.error

section
variable {P : Nat → Prop} {s t : State}

theorem AgreeOn.ok (h : AgreeOn P s t) : RunsAgree P s.ok t.ok := ⟨h, rfl⟩

theorem AgreeOn.raised (h : AgreeOn P s t) (e : ErrorCode) : RunsAgree P (s.raised e) (t.raised e) := ⟨h, rfl⟩

/-- A check that both runs make alike: its branches decide. -/
theorem RunsAgree.ite {c : Prop} [Decidable c] {x y x' y' : Ran} (hx : RunsAgree P x x') (hy : RunsAgree P y y') :
    RunsAgree P (if c then x else y) (if c then x' else y') := by
  split
  · exact hx
  · exact hy

/-! ### One operation in both runs

The proofs put `s.withMem m` for `t`: what the two runs compute from the rest of the state is then the same by definition. -/

/-- A change of the state that takes no notice of DMEM. -/
theorem AgreeOn.map (h : AgreeOn P s t) (f : State → State) (hf : ∀ m, f (s.withMem m) = (f s).withMem m)
    (hm : (f s).mem = s.mem) : AgreeOn P (f s) (f t) := by
  obtain ⟨m, rfl, hb⟩ := h
  refine ⟨m, hf m, fun a ha => ?_⟩
  rw [hf, readByte_congr hm, hb a ha]
  rfl

theorem AgreeOn.withBb (h : AgreeOn P s t) (bb : BitBuffer) : AgreeOn P { s with bb := bb } { t with bb := bb } :=
  h.map (fun u => { u with bb := bb }) (fun _ => rfl) rfl

theorem AgreeOn.withEncPos (h : AgreeOn P s t) (v : Word) : AgreeOn P { s with encPos := v } { t with encPos := v } :=
  h.map (fun u => { u with encPos := v }) (fun _ => rfl) rfl

theorem AgreeOn.withCoef (h : AgreeOn P s t) (c : Tab F64 64) : AgreeOn P { s with coef := c } { t with coef := c } :=
  h.map (fun u => { u with coef := c }) (fun _ => rfl) rfl

theorem AgreeOn.withQblk (h : AgreeOn P s t) (q : Tab Byte 64) : AgreeOn P { s with qblk := q } { t with qblk := q } :=
  h.map (fun u => { u with qblk := q }) (fun _ => rfl) rfl

/-- The same byte written at the same address: no agreement is lost. -/
theorem AgreeOn.writeByte (h : AgreeOn P s t) (a : Nat) (v : Byte) : AgreeOn P (s.writeByte a v) (t.writeByte a v) := by
  obtain ⟨m, rfl, hb⟩ := h
  refine ⟨m.put a v, rfl, fun b hP => ?_⟩
  rw [readByte_writeByte, readByte_writeByte, hb b hP]

theorem AgreeOn.writeCells (h : AgreeOn P s t) {n : Nat} (addr : Fin n → Nat) (v : Tab Byte n) :
    AgreeOn P (s.writeCells addr v) (t.writeCells addr v) := by
  unfold State.writeCells
  induction List.finRange n generalizing s t with
  | nil => exact h
  | cons i rest ih => exact ih (h.writeByte (addr i) (v.get i))

theorem AgreeOn.pushBit (h : AgreeOn P s t) (b : Bool) : AgreeOn P (pushBit s b) (pushBit t b) := by
  obtain ⟨m, rfl, hb⟩ := id h
  by_cases h8 : s.bb.nbits.val + 1 < 8
  · have h8' : (s.withMem m).bb.nbits.val + 1 < 8 := h8
    rw [Machine.pushBit, Machine.pushBit, dif_pos h8, dif_pos h8']
    exact h.withBb _
  · have h8' : ¬ (s.withMem m).bb.nbits.val + 1 < 8 := h8
    rw [Machine.pushBit, Machine.pushBit, dif_neg h8, dif_neg h8']
    exact (h.writeByte _ _).withBb _

theorem AgreeOn.pushBits (h : AgreeOn P s t) (bits : Word) (l : Nat) : AgreeOn P (pushBits s bits l) (pushBits t bits l) := by
  induction l generalizing s t with
  | zero => exact h
  | succ j ih => exact ih (h.pushBit _)

theorem AgreeOn.append (h : AgreeOn P s t) (bits : Word) (l : Nat) : RunsAgree P (append s bits l) (append t bits l) := by
  obtain ⟨m, rfl, -⟩ := id h
  exact .ite (h.raised _) (.ite (h.raised _) (h.pushBits bits l).ok)

/-! ### ENCODE and DECODE -/

theorem AgreeOn.encodeEntry (h : AgreeOn P s t) (c : CodeEntry) : RunsAgree P (encodeEntry s c) (encodeEntry t c) :=
  .ite (h.raised _) (.ite (h.raised _) (h.append _ _))

theorem AgreeOn.encodeByte (h : AgreeOn P s t) {i : Nat} (hi : P (s.opSrc + i)) :
    RunsAgree P (encodeByte s i) (encodeByte t i) := by
  obtain ⟨m, rfl, hb⟩ := id h
  rw [encodeByte_eq, encodeByte_eq, hb _ hi]
  exact (h.withEncPos _).encodeEntry _

theorem AgreeOn.encodeLoop (h : AgreeOn P s t) {n i : Nat} (hP : ∀ j, i ≤ j → j < i + n → P (s.opSrc + j)) :
    RunsAgree P (encodeLoop s n i) (encodeLoop t n i) := by
  induction n generalizing s t i with
  | zero => exact (h.withEncPos _).ok
  | succ n ih =>
    have hbyte := h.encodeByte (hP i (le_refl i) (by omega))
    have hsrc : (Machine.encodeByte s i).state.opSrc = s.opSrc := by rw [State.opSrc, encodeByte_op]; rfl
    rw [encodeLoop_succ, encodeLoop_succ, Ran.andThen, Ran.andThen, ← hbyte.error]
    split
    · exact hbyte
    · exact ih hbyte.state fun j hj hlt => hsrc ▸ hP j (by omega) (by omega)

theorem AgreeOn.consumeBit (h : AgreeOn P s t) (k : Nat) : AgreeOn P (consumeBit s k) (consumeBit t k) :=
  h.map (Machine.consumeBit · k) (fun _ => rfl) rfl

theorem AgreeOn.emitSymbol (h : AgreeOn P s t) (n : Nat) (sym : Fin 256) :
    AgreeOn P (emitSymbol s n sym) (emitSymbol t n sym) := by
  obtain ⟨m, rfl, -⟩ := id h
  exact (h.writeByte (s.opDst + n) (BitVec.ofNat 8 sym.val)).map
    (fun u => { u with decOutlen := BitVec.ofNat 32 (n + 1) }) (fun _ => rfl) rfl

theorem AgreeOn.decodeLoop (h : AgreeOn P s t) {rem k : Nat} (hP : ∀ j, k ≤ j → j < k + rem → P (s.opSrc + j / 8))
    (p l n : Nat) : RunsAgree P (decodeLoop s rem k p l n) (decodeLoop t rem k p l n) := by
  induction rem generalizing s t k p l n with
  | zero => exact .ite h.ok (h.raised _)
  | succ rem ih =>
    obtain ⟨m, rfl, hb⟩ := id h
    have hbit := h.consumeBit k
    have hrest : ∀ j, k + 1 ≤ j → j < k + 1 + rem → P (s.opSrc + j / 8) := fun j hj hlt => hP j (by omega) (by omega)
    have hprobe : nextProbe (s.withMem m) k p = nextProbe s k p := by
      have hk := hb _ (hP k (le_refl k) (by omega))
      rw [nextProbe, nextProbe, streamBit, streamBit, hk]
      rfl
    cases hmatch : matchCode s.code (nextProbe s k p) (l + 1) with
    | none =>
      rw [decodeLoop_succ_none hmatch, decodeLoop_succ_none (s := s.withMem m) (hprobe ▸ hmatch), hprobe]
      exact .ite (hbit.raised _) (ih hbit hrest ..)
    | some sym =>
      rw [decodeLoop_succ_some hmatch, decodeLoop_succ_some (s := s.withMem m) (hprobe ▸ hmatch)]
      exact .ite (hbit.raised _) (.ite (hbit.raised _) (ih (hbit.emitSymbol n sym) hrest ..))

/-! ### The other commands that read or write DMEM -/

theorem AgreeOn.readBlock_eq (h : AgreeOn P s t) {base : Nat} (hP : ∀ r c : Fin 8, P (base + r.val * s.opStride + c.val)) :
    readBlock t base = readBlock s base := by
  obtain ⟨m, rfl, hb⟩ := h
  exact congrArg Tab.ofFn (funext fun i => (hb _ (hP (rowOf i) (colOf i))).symm)

theorem AgreeOn.readBytes_eq (h : AgreeOn P s t) {a n : Nat} (hP : ∀ b, a ≤ b → b < a + n → P b) :
    t.readBytes a n = s.readBytes a n := by
  obtain ⟨m, rfl, hb⟩ := h
  refine List.map_congr_left fun i hi => (hb _ (hP _ (by omega) ?_)).symm
  have := List.mem_range.mp hi
  omega

theorem AgreeOn.fdctBody (h : AgreeOn P s t) (hP : ∀ r c : Fin 8, P (s.opSrc + r.val * s.opStride + c.val)) :
    AgreeOn P (fdctBody s) (fdctBody t) := by
  have hblock := h.readBlock_eq hP
  obtain ⟨m, rfl, -⟩ := id h
  have hsrc : (s.withMem m).opSrc = s.opSrc := rfl
  rw [Machine.fdctBody, Machine.fdctBody, hsrc, hblock]
  exact h.withCoef _

theorem AgreeOn.zzunscanBody (h : AgreeOn P s t) (hP : ∀ b, s.opSrc ≤ b → b < s.opSrc + 64 → P b) :
    AgreeOn P (zzunscanBody s) (zzunscanBody t) := by
  obtain ⟨m, rfl, hb⟩ := id h
  have hcell (k : Fin 64) : (s.withMem m).readByte ((s.withMem m).opSrc + k.val) = s.readByte (s.opSrc + k.val) :=
    (hb _ (hP _ (Nat.le_add_right _ _) (Nat.add_lt_add_left k.isLt _))).symm
  simp only [Machine.zzunscanBody, hcell]
  exact h.withQblk _

theorem AgreeOn.quantBody (h : AgreeOn P s t) : AgreeOn P (quantBody s) (quantBody t) := h.map _ (fun _ => rfl) rfl

theorem AgreeOn.dequantBody (h : AgreeOn P s t) : AgreeOn P (dequantBody s) (dequantBody t) := h.map _ (fun _ => rfl) rfl

theorem AgreeOn.idctBody (h : AgreeOn P s t) : AgreeOn P (idctBody s) (idctBody t) := h.map _ (fun _ => rfl) rfl

theorem AgreeOn.zzscanBody (h : AgreeOn P s t) : AgreeOn P (zzscanBody s) (zzscanBody t) := by
  obtain ⟨m, rfl, -⟩ := id h
  exact h.writeCells _ _

theorem AgreeOn.reconBody (h : AgreeOn P s t) : AgreeOn P (reconBody s) (reconBody t) := by
  obtain ⟨m, rfl, -⟩ := id h
  exact h.writeCells _ _

theorem AgreeOn.freqacc (h : AgreeOn P s t) (hP : ∀ b, s.opSrc ≤ b → b < s.opSrc + s.opLen → P b) :
    RunsAgree P (runFreqacc s) (runFreqacc t) := by
  have hbytes := h.readBytes_eq hP
  obtain ⟨m, rfl, -⟩ := id h
  have hcount (f : Tab Word 256) := h.map (fun u => { u with freq := f }) (fun _ => rfl) rfl
  refine .ite (h.raised _) ?_
  rw [← hbytes]
  exact .ite ((hcount _).raised _) (hcount _).ok

theorem AgreeOn.bbflush (h : AgreeOn P s t) : RunsAgree P (runBbflush s) (runBbflush t) := by
  obtain ⟨m, rfl, -⟩ := id h
  have hflush : AgreeOn P (flushByte s) (flushByte (s.withMem m)) := (h.writeByte ..).withBb _
  exact .ite (h.map closeStream (fun _ => rfl) rfl).ok (.ite (h.raised _) (.ite (h.raised _)
    (hflush.map closeStream (fun _ => rfl) rfl).ok))

theorem AgreeOn.decode (h : AgreeOn P s t) (hP : ∀ b, s.opSrc ≤ b → b < s.opSrc + (s.opBitcnt + 7) / 8 → P b) :
    RunsAgree P (runDecode s) (runDecode t) := by
  obtain ⟨m, rfl, -⟩ := id h
  have h0 := h.map (fun u => { u with decOutlen := 0, decBitpos := 0 }) (fun _ => rfl) rfl
  refine .ite (h0.raised _) (.ite (h0.raised _) (.ite (h0.raised _) (h0.decodeLoop (fun j _ hj => ?_) ..)))
  have hj : j < 0 + s.opBitcnt := hj
  exact hP _ (Nat.le_add_right _ _) (Nat.add_lt_add_left (by omega) _)

/-! ### Every command -/

/-- A rule that reads where the memories agree ends alike, and loses no agreement. -/
theorem ruleOf_agree (i : Instr) (h : AgreeOn P s t) (hP : ∀ a, FootprintReads s a i → P a) :
    RunsAgree P (ruleOf i s) (ruleOf i t) := by
  obtain ⟨m, rfl, hb⟩ := id h
  cases i
  case nop => exact h.ok
  case idct => exact h.idctBody.ok
  case dequant => exact h.dequantBody.ok
  case freqclr | bbreset => exact ⟨⟨m, rfl, hb⟩, rfl⟩
  case qmset => exact .ite (h.raised _) ⟨⟨m, rfl, hb⟩, rfl⟩
  case quant => exact .ite h.quantBody.ok (h.raised _)
  case treebuild => exact .ite ⟨⟨m, rfl, hb⟩, rfl⟩ (.ite ⟨⟨m, rfl, hb⟩, rfl⟩ ⟨⟨m, rfl, hb⟩, rfl⟩)
  case fdct => exact .ite (h.fdctBody fun r c => hP _ ⟨r, c, rfl⟩).ok (h.raised _)
  case recon => exact .ite (h.raised _) (.ite (h.raised _) h.reconBody.ok)
  case zzscan => exact .ite h.zzscanBody.ok (h.raised _)
  case zzunscan => exact .ite (h.zzunscanBody fun b hl hu => hP b ⟨hl, hu⟩).ok (h.raised _)
  case freqacc => exact h.freqacc fun b hl hu => hP b ⟨hl, hu⟩
  case bbput => exact .ite (h.raised _) (h.append ..)
  case bbflush => exact h.bbflush
  case encode =>
    exact .ite (h.raised _) (h.encodeLoop fun j _ hj => hP _ ⟨Nat.le_add_right _ _, by omega⟩)
  case decode => exact h.decode fun b hl hu => hP b ⟨hl, hu⟩
  case blkenc =>
    have hfdct := h.fdctBody fun r c => hP _ ⟨r, c, rfl⟩
    exact .ite (h.raised _) (.ite (h.raised _) hfdct.quantBody.zzscanBody.ok)
  case blkdec =>
    have hunscan := h.zzunscanBody fun b hl hu => hP b ⟨hl, hu⟩
    exact .ite (h.raised _) (.ite (h.raised _) hunscan.dequantBody.idctBody.reconBody.ok)

end

/-- Settles O12: no command loses an agreement of two memories that covers its reads. -/
theorem dmemOutsideFootprintIsNotRead : Obligations.DmemOutsideFootprintIsNotRead := by
  unfold Obligations.DmemOutsideFootprintIsNotRead
  intro i s t m hexec hreads
  have h : AgreeOn (fun a => s.readByte a = (s.withMem m).readByte a) s (s.withMem m) := ⟨m, rfl, fun _ ha => ha⟩
  obtain ⟨⟨m', hm', hb⟩, herr⟩ := ruleOf_agree i h hreads
  rw [(exec_next_iff i s t).mp hexec]
  refine ⟨_, exec_eq_finish i (s.withMem m), ?_, hb⟩
  rw [hm', herr]
  rfl

end Sys2Proof.Machine
end

section
/-! SUPPORT. The DMEM bytes a rule leaves as they were: all outside its write footprint (20_memory.md R112). -/

namespace Sys2Proof.Machine

theorem legalDmemSize_le {size : Nat} (h : legalDmemSize size = true) : size ≤ 2 ^ 31 := by
  simp only [legalDmemSize, List.any_eq_true, List.mem_range, beq_iff_eq] at h
  obtain ⟨k, hk, rfl⟩ := h
  exact Nat.pow_le_pow_right (by decide) (by omega)

/-- A legal DMEM ends below 2^32, so no address in range wraps. -/
theorem dmemSize_lt {p : Params} (h : p.wellFormed = true) : p.dmemSize < 2 ^ 32 := by
  simp only [Params.wellFormed, Bool.and_eq_true] at h
  have := legalDmemSize_le h.1.1
  omega

/-! ### The bit buffer -/

theorem readByte_pushBit {s : State} {a : Nat} (h : ¬ (s.bb.outptr.toNat ≤ a ∧ a < s.bb.outptr.toNat + (s.bb.nbits.val + 1) / 8))
    (b : Bool) : (pushBit s b).readByte a = s.readByte a := by
  unfold pushBit
  split
  · rfl
  · exact readByte_writeByte_of_ne s (by omega) _

/-- An append of `l` bits stores the bytes it completes, from OUTPTR up. -/
theorem readByte_pushBits {s : State} {a l : Nat} (hw : s.bb.outptr.toNat + bytesCompleted s l < 2 ^ 32)
    (h : ¬ (s.bb.outptr.toNat ≤ a ∧ a < s.bb.outptr.toNat + bytesCompleted s l)) (bits : Word) :
    (pushBits s bits l).readByte a = s.readByte a := by
  unfold bytesCompleted at hw h
  induction l generalizing s with
  | zero => rfl
  | succ j ih =>
    have hptr : (pushBit s (bits.getLsbD j)).bb.outptr.toNat = s.bb.outptr.toNat + (s.bb.nbits.val + 1) / 8 := by
      rw [pushBit_outptr, BitVec.toNat_add, BitVec.toNat_ofNat]
      omega
    have hnbits := pushBit_nbits s (bits.getLsbD j)
    rw [pushBits, ih (by omega) (by omega), readByte_pushBit (by omega)]

/-- `t` comes from `s` by stores in the free capacity of the stream, and its free capacity is what they left of it. -/
structure StoresInCapacity (s t : State) : Prop where
  params : t.params = s.params
  kept : ∀ a, ¬ FootprintWrites s a .encode → t.readByte a = s.readByte a
  left : ∀ a, FootprintWrites t a .encode → FootprintWrites s a .encode

theorem StoresInCapacity.trans {s t u : State} (h : StoresInCapacity s t) (h' : StoresInCapacity t u) : StoresInCapacity s u where
  params := h'.params.trans h.params
  kept a ha := (h'.kept a (mt (h.left a) ha)).trans (h.kept a ha)
  left a ha := h.left a (h'.left a ha)

theorem StoresInCapacity.refl (s : State) : StoresInCapacity s s := ⟨rfl, fun _ _ => rfl, fun _ h => h⟩

theorem StoresInCapacity.withEncPos (s : State) (v : Word) : StoresInCapacity s { s with encPos := v } :=
  ⟨rfl, fun _ _ => rfl, fun _ h => h⟩

/-- An append that fits the capacity stores the bytes it completes; any other stores none. -/
theorem readByte_append {s : State} (hp : s.params.wellFormed = true) {a l : Nat}
    (h : s.bb.outcnt.toNat + bytesCompleted s l ≤ s.bb.limit.toNat →
      ¬ (s.bb.outptr.toNat ≤ a ∧ a < s.bb.outptr.toNat + bytesCompleted s l)) (bits : Word) :
    (append s bits l).state.readByte a = s.readByte a := by
  rcases append_cases s bits l with ⟨-, e⟩ | ⟨-, -, e⟩ | ⟨hc, hr, e⟩ <;> rw [e]
  · rfl
  · rfl
  · exact readByte_pushBits (hr.trans_lt (dmemSize_lt hp)) (h hc) bits

/-- The free capacity after an append lies in the free capacity before it: OUTPTR and BB_OUTCNT move by the bytes completed. -/
theorem append_capacity_left {s : State} (hp : s.params.wellFormed = true) {bits : Word} {l a : Nat}
    (h : FootprintWrites (append s bits l).state a .encode) : FootprintWrites s a .encode := by
  rcases append_cases s bits l with ⟨-, e⟩ | ⟨-, -, e⟩ | ⟨hc, hr, e⟩ <;> rw [e] at h
  · exact h
  · exact h
  · have hsize := dmemSize_lt hp
    obtain ⟨hlimit, -, -, houtcnt, houtptr⟩ := pushBits_counts s bits l
    rw [FootprintWrites, ok_state, hlimit, houtcnt, houtptr, BitVec.toNat_add, BitVec.toNat_add, BitVec.toNat_ofNat] at h
    rw [FootprintWrites]
    unfold bytesCompleted at hc hr
    omega

theorem append_storesInCapacity {s : State} (hp : s.params.wellFormed = true) (bits : Word) (l : Nat) :
    StoresInCapacity s (append s bits l).state where
  params := by rw [append_onlyStream]
  kept a ha := readByte_append hp (fun hc => by rw [FootprintWrites] at ha; omega) bits
  left _ h := append_capacity_left hp h

/-- BBPUT completes at most four bytes, since at most 39 bits are carried or put. -/
theorem readByte_append_of_short {s : State} (hp : s.params.wellFormed = true) {l : Nat} (hl : l ≤ 32) {a : Nat}
    (ha : ¬ FootprintWrites s a .bbput) (bits : Word) : (append s bits l).state.readByte a = s.readByte a := by
  refine readByte_append hp (fun hc => ?_) bits
  have hfour : bytesCompleted s l ≤ 4 := by unfold bytesCompleted; omega
  rw [FootprintWrites] at ha
  omega

/-! ### ENCODE and DECODE -/

theorem encodeEntry_storesInCapacity {s : State} (hp : s.params.wellFormed = true) (c : CodeEntry) :
    StoresInCapacity s (encodeEntry s c).state := by
  unfold encodeEntry
  split_ifs
  · exact .refl s
  · exact .refl s
  · exact append_storesInCapacity hp _ _

theorem encodeByte_storesInCapacity {s : State} (hp : s.params.wellFormed = true) (i : Nat) :
    StoresInCapacity s (encodeByte s i).state := by
  rw [encodeByte_eq]
  refine (StoresInCapacity.withEncPos s _).trans (encodeEntry_storesInCapacity ?_ _)
  exact hp

theorem encodeLoop_storesInCapacity {s : State} (hp : s.params.wellFormed = true) (n i : Nat) :
    StoresInCapacity s (encodeLoop s n i).state := by
  induction n generalizing s i with
  | zero => exact .withEncPos s _
  | succ n ih =>
    have hbyte := encodeByte_storesInCapacity hp i
    rw [encodeLoop_succ, Ran.andThen]
    split
    · exact hbyte
    · exact hbyte.trans (ih (hbyte.params ▸ hp) (i + 1))

theorem readByte_decodeLoop {s : State} {a : Nat} (ha : ¬ FootprintWrites s a .decode) (rem k p l n : Nat) :
    (decodeLoop s rem k p l n).state.readByte a = s.readByte a := by
  induction rem generalizing s k p l n with
  | zero => rw [decodeLoop]; split <;> rfl
  | succ rem ih =>
    cases hm : matchCode s.code (nextProbe s k p) (l + 1) with
    | none =>
      rw [decodeLoop_succ_none hm]
      split
      · rfl
      · exact ih (s := consumeBit s k) ha ..
    | some sym =>
      rw [decodeLoop_succ_some hm]
      split_ifs with hcap
      · rfl
      · rfl
      · have hne : s.opDst + n ≠ a := by rw [FootprintWrites] at ha; omega
        exact (ih (s := emitSymbol (consumeBit s k) n sym) ha ..).trans (readByte_writeByte_of_ne s hne _)

/-! ### Every command -/

theorem readByte_reconBody {s : State} {a : Nat} (ha : ¬ FootprintWrites s a .recon) : (reconBody s).readByte a = s.readByte a :=
  readByte_writeCells_of_ne s _ _ a fun i e => ha ⟨rowOf i, colOf i, e.symm⟩

theorem readByte_zzscanBody {s : State} {a : Nat} (ha : ¬ FootprintWrites s a .zzscan) :
    (zzscanBody s).readByte a = s.readByte a := by
  rw [FootprintWrites] at ha
  exact readByte_writeCells_of_ne s _ _ a fun k => by omega

theorem readByte_blkdecBody {s : State} {a : Nat} (ha : ¬ FootprintWrites s a .blkdec) :
    (blkdecBody s).readByte a = s.readByte a := by
  obtain ⟨q, c, d, hs⟩ := blkdecStages_frame s
  rw [blkdecBody, hs]
  exact readByte_reconBody ha

theorem readByte_runBbflush {s : State} {a : Nat} (ha : ¬ FootprintWrites s a .bbflush) :
    (runBbflush s).state.readByte a = s.readByte a := by
  unfold runBbflush
  split_ifs
  · rfl
  · rfl
  · rfl
  · exact readByte_writeByte_of_ne s (Ne.symm ha) _

theorem ruleOf_keeps_outside_writes (i : Instr) {s : State} (hp : s.params.wellFormed = true) {a : Nat}
    (ha : ¬ FootprintWrites s a i) : (ruleOf i s).state.readByte a = s.readByte a := by
  have frame := ruleOf_frame i s
  cases i
  case recon =>
    simp only [ruleOf, runRecon]
    split_ifs
    · rfl
    · rfl
    · exact readByte_reconBody ha
  case zzscan =>
    simp only [ruleOf, runZzscan]
    split
    · exact readByte_zzscanBody ha
    · rfl
  case bbput =>
    simp only [ruleOf, runBbput]
    split
    · rfl
    · next hl => exact readByte_append_of_short hp (Nat.le_of_not_lt hl) ha _
  case bbflush => exact readByte_runBbflush ha
  case encode =>
    simp only [ruleOf, runEncode]
    split
    · rfl
    · exact (encodeLoop_storesInCapacity hp _ _).kept a ha
  case decode =>
    simp only [ruleOf, runDecode]
    split_ifs
    · rfl
    · rfl
    · rfl
    · exact readByte_decodeLoop (s := { s with decOutlen := 0, decBitpos := 0 }) ha ..
  case blkenc =>
    simp only [ruleOf, runBlkenc]
    split_ifs
    · rfl
    · rfl
    · exact readByte_zzscanBody (s := quantBody (fdctBody s)) ha
  case blkdec =>
    simp only [ruleOf, runBlkdec]
    split_ifs
    · rfl
    · rfl
    · exact readByte_blkdecBody ha
  all_goals
    rw [frame]
    rfl

/-- Settles O11: a rule keeps each byte outside its write footprint, and completion keeps DMEM. -/
theorem dmemOutsideFootprintIsKept : Obligations.DmemOutsideFootprintIsKept := by
  unfold Obligations.DmemOutsideFootprintIsKept
  intro i s t a hp hexec hne
  have hw : FootprintWrites s a i := by
    by_contra ha
    rw [(exec_next_iff i s t).mp hexec] at hne
    exact hne (ruleOf_keeps_outside_writes i hp ha)
  cases i <;> exact hw

end Sys2Proof.Machine
end

section
/-! SUPPORT. The accesses a port refuses (20_memory.md R100, R101). -/

namespace Sys2Proof.Machine

/-- Settles O22: the register port checks the access before all else. -/
theorem badRegisterAccessIsBusError : Obligations.BadRegisterAccessIsBusError := by
  unfold Obligations.BadRegisterAccessIsBusError
  intro s off size hbad
  have hok : ¬ regAccessOk off size = true := by
    rw [regAccessOk_iff]
    omega
  have hread : hostRegRead s off size = s.busError := by simp [hostRegRead, hok]
  have hwrite (v : Word) : hostRegWrite s off size v = .next s.busError := by simp [hostRegWrite, hok]
  exact ⟨congrArg _ hread, fun v => ⟨0, hwrite v⟩⟩

theorem memAccessOk_iff (s : State) (a size : Nat) :
    memAccessOk s a size = true ↔ (size = 1 ∨ size = 2 ∨ size = 4) ∧ a % size = 0 ∧ a + size ≤ s.params.dmemSize := by
  simp [memAccessOk, state_inRange_iff, or_assoc, and_assoc]

theorem memAccess_refused {s : State} {a size : Nat}
    (h : (size ≠ 1 ∧ size ≠ 2 ∧ size ≠ 4) ∨ a % size ≠ 0 ∨ s.params.dmemSize < a + size) : memAccessOk s a size = false := by
  rw [← Bool.not_eq_true, memAccessOk_iff]
  rintro ⟨hsize, halign, hr⟩
  omega

end Sys2Proof.Machine
end

section
/-! SUPPORT. The memory port: stores and reads, little-endian (20_memory.md R101, R104; 70_reset_and_hazards.md R620). -/

namespace Sys2Proof.Machine

/-! ### Writes -/

section
variable {s : State} {a size : Nat} (hok : memAccessOk s a size = true) (v : Word)
include hok

theorem hostMemWrite_hazard {i : Instr} {j : Nat} (hi : Pending s i) (hj : j < size)
    (hf : FootprintReads s (a + j) i ∨ FootprintWrites s (a + j) i) : hostMemWrite s a size v = .fault .hazardFootprint := by
  have hany : ((List.range size).any fun j => s.inFootprint (a + j)) = true :=
    List.any_eq_true.mpr ⟨j, List.mem_range.mpr hj, (inFootprint_iff s _).mpr ⟨i, hi, hf⟩⟩
  simp only [hostMemWrite, hok, hany, Bool.not_true, Bool.false_eq_true, if_true, if_false]

theorem hostMemWrite_stores
    (h : ∀ i j, Pending s i → j < size → ¬ FootprintReads s (a + j) i ∧ ¬ FootprintWrites s (a + j) i) :
    hostMemWrite s a size v = .next ((writeWord s a v size).respond 0) := by
  have hany : ¬ ((List.range size).any fun j => s.inFootprint (a + j)) = true := by
    rw [List.any_eq_true]
    rintro ⟨j, hj, hf⟩
    obtain ⟨i, hi, hf⟩ := (inFootprint_iff s _).mp hf
    obtain ⟨hreads, hwrites⟩ := h i j hi (List.mem_range.mp hj)
    exact hf.elim hreads hwrites
  simp only [hostMemWrite, hok, hany, Bool.not_true, Bool.false_eq_true, if_false]

end

theorem readByte_writeWord_inside (s : State) (a : Nat) (v : Word) {n j : Nat} (hj : j < n) :
    (writeWord s a v n).readByte (a + j) = v.extractLsb' (8 * j) 8 := by
  rw [readByte_writeWord, if_pos (by omega), Nat.add_sub_cancel_left, byteOf]

theorem readByte_writeWord_outside (s : State) (v : Word) {a n b : Nat} (hb : b < a ∨ a + n ≤ b) :
    (writeWord s a v n).readByte b = s.readByte b := by
  rw [readByte_writeWord, if_neg (by omega)]

/-- Settles O25: a refused access, a byte in the footprint, or the store. -/
theorem memoryPortWritesBytes : Obligations.MemoryPortWritesBytes := by
  unfold Obligations.MemoryPortWritesBytes
  intro s a v size
  refine ⟨fun hbad => ⟨0, ?_⟩, fun hsize halign hr => ?_⟩
  · simp [hostTurn, hostMemWrite, memAccess_refused hbad, State.busError]
  · have hok : memAccessOk s a.toNat size = true := (memAccessOk_iff ..).mpr ⟨hsize, halign, hr⟩
    refine ⟨fun i j hi hj hf => hostMemWrite_hazard hok v hi hj hf, fun hfree => ?_⟩
    exact ⟨writeWord s a.toNat v size, ⟨0, hostMemWrite_stores hok v hfree⟩, writeWord_mem_only ..,
      fun j hj => readByte_writeWord_inside s a.toNat v hj, fun b hb => readByte_writeWord_outside s v hb⟩

/-! ### Reads -/

theorem hostByte_draw {s : State} {a j : Nat} {i : Instr} (hi : Pending s i) (hf : FootprintWrites s a i) :
    hostByte s a j = Config.freeByte (s.draws + j) := if_pos ((inWriteFootprint_iff s a).mpr ⟨i, hi, hf⟩)

theorem hostByte_current {s : State} {a j : Nat} (h : ∀ i, Pending s i → ¬ FootprintWrites s a i) :
    hostByte s a j = s.readByte a := by
  refine if_neg fun hw => ?_
  obtain ⟨i, hi, hf⟩ := (inWriteFootprint_iff s a).mp hw
  exact h i hi hf

/-- Byte `j` of the word is the byte seen at `a + j`, and past the bytes read the word is 0. -/
theorem hostWord_getLsbD (s : State) (a : Nat) {n k : Nat} (hk : k < 32) :
    (hostWord s a n).getLsbD k = (decide (k < 8 * n) && (hostByte s (a + k / 8) (k / 8)).getLsbD (k % 8)) := by
  induction n with
  | zero => simp [hostWord]
  | succ n ih =>
    rw [hostWord, BitVec.getLsbD_or, ih, BitVec.getLsbD_shiftLeft]
    by_cases hlow : k < 8 * n
    · simp [hlow, show k < 8 * (n + 1) by omega]
    · by_cases hhigh : k < 8 * (n + 1)
      · obtain ⟨hdiv, hmod⟩ : k / 8 = n ∧ k % 8 = k - 8 * n := by omega
        simp [hlow, hhigh, hdiv, hmod, hk, show k - 8 * n < 32 by omega]
      · have : 8 ≤ k - 8 * n := by omega
        simp [hlow, hhigh, this]

theorem hostWord_byte (s : State) (a : Nat) {n j : Nat} (hj : j < n) (hn : n ≤ 4) :
    (hostWord s a n).extractLsb' (8 * j) 8 = hostByte s (a + j) j := by
  refine BitVec.eq_of_getLsbD_eq fun k hk => ?_
  obtain ⟨hdiv, hmod⟩ : (8 * j + k) / 8 = j ∧ (8 * j + k) % 8 = k := by omega
  rw [BitVec.getLsbD_extractLsb', hostWord_getLsbD s a (by omega), hdiv, hmod]
  simp [hk, show 8 * j + k < 8 * n by omega]

theorem hostWord_lt (s : State) (a n : Nat) : (hostWord s a n).toNat < 2 ^ (8 * n) := by
  refine Nat.lt_pow_two_of_testBit _ fun k hk => ?_
  change (hostWord s a n).getLsbD k = false
  by_cases h32 : k < 32
  · rw [hostWord_getLsbD s a h32, decide_eq_false (by omega), Bool.false_and]
  · exact BitVec.getLsbD_of_ge _ _ (by omega)

/-- Settles O26: a refused access, or the bytes as `hostByte` sees them. -/
theorem memoryPortReadsBytes : Obligations.MemoryPortReadsBytes := by
  unfold Obligations.MemoryPortReadsBytes
  intro s a size
  refine ⟨fun hbad => ?_, fun hsize halign hr => ?_⟩
  · simp [hostTurn, hostMemRead, memAccess_refused hbad, State.busError]
  · have hok : memAccessOk s a.toNat size = true := (memAccessOk_iff ..).mpr ⟨hsize, halign, hr⟩
    refine ⟨hostWord s a.toNat size, ?_, hostWord_lt .., fun j hj => ?_⟩
    · simp [hostTurn, hostMemRead, hok, State.respond]
    · rw [hostWord_byte s a.toNat hj (by omega)]
      exact ⟨fun i hi hf => hostByte_draw hi hf, fun h => hostByte_current h⟩

end Sys2Proof.Machine
end

section
/-! SUPPORT. Decoding is the list of the commands in opcode order, and encoding is its inverse (30_encoding.md R150, R152, R155). -/

namespace Sys2Proof

/-- The commands in opcode order (30_encoding.md R152). -/
def opcodeOrder : List Instr :=
  [.nop, .qmset, .fdct, .idct, .recon, .quant, .dequant, .zzscan, .zzunscan, .freqclr, .freqacc, .treebuild,
    .bbreset, .bbput, .bbflush, .encode, .decode, .blkenc, .blkdec]

theorem opcodeOrder_opcodeOf (i : Instr) : opcodeOrder[(opcodeOf i).toNat]? = some i := by
  cases i <;> rfl

/-- No command stands twice in the list, so the opcode of a command is its only index. -/
theorem opcodeOrder_eq_some_iff {n : Nat} {i : Instr} : opcodeOrder[n]? = some i ↔ n = (opcodeOf i).toNat := by
  refine ⟨fun h => ?_, fun h => h ▸ opcodeOrder_opcodeOf i⟩
  obtain ⟨hn, -⟩ := List.getElem?_eq_some_iff.mp h
  exact (List.getElem?_inj hn (by decide)).mp (h.trans (opcodeOrder_opcodeOf i).symm)

theorem opcodeOrder_eq_none_iff {n : Nat} : opcodeOrder[n]? = none ↔ 0x13 ≤ n := List.getElem?_eq_none_iff

/-! ### Decoding -/

theorem decodeOpcode_of_some {opc : Byte} {i : Instr} (h : opcodeOrder[opc.toNat]? = some i) : decodeOpcode opc = .ok i := by
  obtain rfl : opc = opcodeOf i := BitVec.eq_of_toNat_eq (opcodeOrder_eq_some_iff.mp h)
  cases i <;> rfl

theorem decodeOpcode_of_none {opc : Byte} (h : opcodeOrder[opc.toNat]? = none) :
    decodeOpcode opc = .error .unknownOpcode := by
  have hlarge : 0x13 ≤ opc.toNat := opcodeOrder_eq_none_iff.mp h
  unfold decodeOpcode
  split
  case h_20 => rfl
  all_goals omega

theorem decode_reservedBits {w : Word} (h : rsvField w ≠ 0) : decode w = .error .reservedBits := if_pos h

theorem decode_opcode {w : Word} (h : rsvField w = 0) : decode w = decodeOpcode (opcField w) := if_neg (not_not_intro h)

theorem decode_illegal {w : Word} (h : 0x13 ≤ (opcField w).toNat ∨ rsvField w ≠ 0) : ∃ e, decode w = .error e := by
  by_cases hr : rsvField w = 0
  · have hopc : 0x13 ≤ (opcField w).toNat := h.resolve_right (not_not_intro hr)
    exact ⟨_, (decode_opcode hr).trans (decodeOpcode_of_none (opcodeOrder_eq_none_iff.mpr hopc))⟩
  · exact ⟨_, decode_reservedBits hr⟩

theorem decode_eq_ok_iff {w : Word} {i : Instr} : decode w = .ok i ↔ rsvField w = 0 ∧ opcField w = opcodeOf i := by
  by_cases hr : rsvField w = 0
  · rw [decode_opcode hr, and_iff_right hr, ← BitVec.toNat_inj, ← opcodeOrder_eq_some_iff]
    cases h : opcodeOrder[(opcField w).toNat]? with
    | some j => simp [decodeOpcode_of_some h]
    | none => simp [decodeOpcode_of_none h]
  · exact iff_of_false (by simp [decode_reservedBits hr]) (mt And.left hr)

/-! ### Encoding -/

/-- A word is the command's opcode below zeros. -/
theorem eq_encode_iff {w : Word} {i : Instr} : w = encode i ↔ rsvField w = 0 ∧ opcField w = opcodeOf i := by
  simp only [encode, rsvField, opcField, ← BitVec.toNat_inj, BitVec.extractLsb'_toNat, BitVec.truncate_eq_setWidth,
    BitVec.toNat_setWidth, BitVec.ofNat_eq_ofNat, BitVec.toNat_zero, Nat.shiftRight_eq_div_pow]
  omega

theorem decode_eq_ok_iff_eq_encode {w : Word} {i : Instr} : decode w = .ok i ↔ w = encode i :=
  decode_eq_ok_iff.trans eq_encode_iff.symm

@[simp] theorem decode_encode (i : Instr) : decode (encode i) = .ok i := decode_eq_ok_iff_eq_encode.mpr rfl

/-- Settles O2: both sides say that RSV is zero and OPC is the command's opcode. -/
theorem decodeEncodeAgree : Obligations.DecodeEncodeAgree := by
  unfold Obligations.DecodeEncodeAgree
  intro w i _
  exact decode_eq_ok_iff_eq_encode

/-- Settles O1: RSV decides first, then OPC's place in the list of the commands. -/
theorem decodeFollowsOpcodeMap : Obligations.DecodeFollowsOpcodeMap := by
  unfold Obligations.DecodeFollowsOpcodeMap
  refine fun w => ⟨fun hr => ⟨_, decode_reservedBits hr⟩, fun hr => ?_⟩
  split
  · next i h => exact (decode_opcode hr).trans (decodeOpcode_of_some h)
  · next h => exact ⟨_, (decode_opcode hr).trans (decodeOpcode_of_none h)⟩

/-- Settles O3: each legal word is a command's encoding. -/
theorem sampleWordsDecode : Obligations.SampleWordsDecode := by
  unfold Obligations.SampleWordsDecode
  exact ⟨decode_encode .nop, decode_encode .qmset, decode_encode .recon, decode_encode .zzunscan, decode_encode .treebuild,
    decode_encode .bbflush, decode_encode .decode, decode_encode .blkdec, (decode_opcode (by decide)).trans (decodeOpcode_of_none rfl),
    decode_reservedBits (by decide), decode_reservedBits (by decide)⟩

end Sys2Proof
end

section
/-! SUPPORT. The engine's turn on an illegal word, and as a step (30_encoding.md R154; 60_exceptions.md R500, R502). -/

namespace Sys2Proof.Machine

theorem complete_some_eq_failed (s : State) (e : ErrorCode) :
    s.complete (some e) = { s with status := s.status.failed e.code } := rfl

theorem engineTurn_illegal {s : State} (hb : s.status.busy = true) {e : IllegalWord} (hd : decode s.op.word = .error e) :
    engineTurn s = .next { s with status := s.status.failed 0x01 } := by
  obtain ⟨hidle, -⟩ | ⟨i, -, hok, -⟩ | ⟨e', -, -, hturn⟩ := engineTurn_cases s
  · simp [hb] at hidle
  · simp [hd] at hok
  · exact hturn

/-- The engine's turn is taken off the head of the list, and an empty list gives the engine the turn (log entry 5). -/
theorem step_engine {s : State} {rest : List Turn} (h : s.turns = [] ∧ rest = [] ∨ s.turns = .engine :: rest) :
    step s = engineTurn { s with turns := rest } := by
  obtain ⟨hs, rfl⟩ | hs := h
  · obtain ⟨-, hstep⟩ | ⟨_, hcons, -⟩ | ⟨_, _, hcons, -⟩ := step_cases s
    · rw [hstep, ← hs]
    · simp [hs] at hcons
    · simp [hs] at hcons
  · simp [step, takeTurn, hs]

/-- Settles O5: an illegal word has no decoding, so its turn is the failed completion, which leaves the list of turns alone. -/
theorem illegalWordOnlyFails : Obligations.IllegalWordOnlyFails := by
  unfold Obligations.IllegalWordOnlyFails
  refine ⟨decode_encode .nop, fun s hb hill => ?_⟩
  obtain ⟨e, hd⟩ := decode_illegal hill
  exact ⟨engineTurn_illegal hb hd, fun rest h => (step_engine h).trans (engineTurn_illegal hb hd)⟩

end Sys2Proof.Machine
end

section
/-! SUPPORT. Rounding to a sample: the three modes of R208 as integer arithmetic on the exact value sig · 2^ulp (40_transform.md R207, R208). -/

namespace Sys2Proof.Machine

/-- The pattern of R207's upper limit is the number 255. -/
theorem magValue_f255 : F64.magValue (F64.mag f255) = 255 := by
  rw [show F64.mag f255 = 1029 * 2 ^ 52 + 255 * 2 ^ 45 by decide, F64.magValue_place (by norm_num) (by norm_num)]
  norm_num [zpow_neg]

theorem rank_le_of_not_lt {a b : F64} (ha : F64.isNaN a = false) (hb : F64.isNaN b = false) (h : F64.lt a b = false) :
    F64.rank b ≤ F64.rank a := by
  simpa [F64.lt, ha, hb] using h

/-- A pattern that is no NaN and that the clamp leaves alone is −0.0 or lies in [0.0, 255.0]. -/
theorem mag_le_f255 {x : F64} (hn : F64.isNaN x = false) (h0 : F64.lt x 0 = false) (h255 : F64.lt f255 x = false) :
    F64.mag x ≤ F64.mag f255 := by
  have hlo : F64.rank 0 ≤ F64.rank x := rank_le_of_not_lt hn (by decide) h0
  have hhi : F64.rank x ≤ F64.rank f255 := rank_le_of_not_lt (by decide) hn h255
  rw [show F64.rank 0 = 0 by decide, F64.rank_eq] at hlo
  rw [show F64.rank f255 = F64.mag f255 by decide, F64.rank_eq] at hhi
  cases hneg : F64.neg x <;> simp only [hneg, if_true, Bool.false_eq_true, if_false] at hlo hhi <;> omega

/-- The exact value of such a pattern is m / 2^k with m ≤ 255 · 2^k. -/
theorem sig_le_of_mag_le {x : F64} (h : F64.mag x ≤ F64.mag f255) : ∃ k : ℕ, F64.ulp x = -(k : ℤ) ∧ F64.sig x ≤ 255 * 2 ^ k := by
  have hulp : F64.ulp x ≤ 0 := by
    rw [show F64.mag f255 = 0x406FE00000000000 by decide] at h
    rw [F64.ulp_eq, F64.ulpOf]
    split <;> omega
  obtain ⟨k, hk⟩ := Int.exists_eq_neg_ofNat hulp
  refine ⟨k, hk, ?_⟩
  have hle := F64.magValue_strictMono.monotone h
  rw [magValue_f255, F64.magValue, ← F64.sig_eq, ← F64.ulp_eq, hk, zpow_neg, zpow_natCast, ← div_eq_mul_inv,
    div_le_iff₀ (by positivity)] at hle
  exact_mod_cast hle

/-! ### The three modes on m / 2^k -/

section
variable {m k s : ℕ}

/-- An integer within half of m / 2^k is at most 255 where m / 2^k is. -/
theorem le_255_of_near (hm : m ≤ 255 * 2 ^ k) (hs : 2 * (s * 2 ^ k) ≤ 2 * m + 2 ^ k) : s ≤ 255 := by
  by_contra! h
  have : 256 * 2 ^ k ≤ s * 2 ^ k := Nat.mul_le_mul_right _ h
  have : 0 < 2 ^ k := by positivity
  omega

theorem trunc_bounds (m k : ℕ) : (m >>> k) * 2 ^ k ≤ m ∧ m < (m >>> k + 1) * 2 ^ k := by
  rw [Nat.shiftRight_eq_div_pow]
  exact ⟨Nat.div_mul_le_self _ _, Nat.lt_mul_of_div_lt (Nat.lt_succ_self _) (by positivity)⟩

/-- `NearestEven` of a dyadic fraction, without the fraction. -/
theorem nearestEven_bounds (h : F64.NearestEven (m / 2 ^ k) s) :
    2 * (s * 2 ^ k) ≤ 2 * m + 2 ^ k ∧ 2 * m ≤ 2 * (s * 2 ^ k) + 2 ^ k ∧
    (2 * (s * 2 ^ k) = 2 * m + 2 ^ k ∨ 2 * m = 2 * (s * 2 ^ k) + 2 ^ k → s % 2 = 0) := by
  obtain ⟨hle, htie⟩ := h
  have hp : (0 : ℚ) < 2 ^ k := by positivity
  have hd : (m : ℚ) / 2 ^ k - s = (2 * m - 2 * (s * 2 ^ k)) / (2 * 2 ^ k) := by field_simp
  have half : (1 : ℚ) / 2 = 2 ^ k / (2 * 2 ^ k) := by field_simp
  rw [hd, abs_div, abs_of_pos (by positivity : (0 : ℚ) < 2 * 2 ^ k), half] at hle htie
  rw [div_le_div_iff_of_pos_right (by positivity), abs_le] at hle
  rw [div_left_inj' (by positivity)] at htie
  obtain ⟨hlo, hhi⟩ := hle
  refine ⟨?_, ?_, fun h => htie ?_⟩
  · have : (2 * (s * 2 ^ k) : ℚ) ≤ 2 * m + 2 ^ k := by linarith
    exact_mod_cast this
  · have : (2 * m : ℚ) ≤ 2 * (s * 2 ^ k) + 2 ^ k := by linarith
    exact_mod_cast this
  · obtain h | h := h
    · have : (2 * (s * 2 ^ k) : ℚ) = 2 * m + 2 ^ k := by exact_mod_cast h
      rw [this, abs_of_neg] <;> linarith
    · have : (2 * m : ℚ) = 2 * (s * 2 ^ k) + 2 ^ k := by exact_mod_cast h
      rw [this, abs_of_pos] <;> linarith

theorem nearestAway_bounds (m k : ℕ) :
    2 * ((2 * m + 2 ^ k) >>> (k + 1) * 2 ^ k) ≤ 2 * m + 2 ^ k ∧ 2 * m < 2 * ((2 * m + 2 ^ k) >>> (k + 1) * 2 ^ k) + 2 ^ k := by
  obtain ⟨hlo, hhi⟩ := trunc_bounds (2 * m + 2 ^ k) (k + 1)
  rw [pow_succ] at hlo hhi
  constructor <;> linarith

end

/-- Every mode gives an integer within half, or below by less than one: at most 255. -/
theorem roundSample_le {x : F64} {k : ℕ} (hk : F64.ulp x = -(k : ℤ)) (hm : F64.sig x ≤ 255 * 2 ^ k) (mode : RoundMode) :
    roundSample mode x ≤ 255 := by
  refine le_255_of_near hm ?_
  cases mode <;> simp only [roundSample, hk, neg_neg, Int.toNat_natCast]
  case nearestEven => exact (nearestEven_bounds (F64.shiftRightEven_nearest _ _)).1
  case trunc => have := (trunc_bounds (F64.sig x) k).1; omega
  case nearestAway => exact (nearestAway_bounds _ _).1

/-- Settles O41: each mode's bounds on m / 2^k. -/
theorem sampleRounding : Obligations.SampleRounding := by
  unfold Obligations.SampleRounding
  rintro x m k hn h0 h255 rfl hk
  replace hk : F64.ulp x = -(k : ℤ) := by omega
  obtain ⟨j, hj, hm⟩ := sig_le_of_mag_le (mag_le_f255 hn h0 h255)
  obtain rfl : j = k := by omega
  refine ⟨roundSample_le hk hm, ?_⟩
  simp only [roundSample, hk, neg_neg, Int.toNat_natCast]
  exact ⟨trunc_bounds _ _, nearestEven_bounds (F64.shiftRightEven_nearest _ _), nearestAway_bounds _ _⟩

end Sys2Proof.Machine
end

section
/-! SUPPORT. How the transform commands complete (40_transform.md R201; 60_exceptions.md R502), and RECON's stores (R207). -/

namespace Sys2Proof.Machine

theorem complete_none_eq_succeeded (s : State) : s.complete none = { s with status := s.status.succeeded } := rfl

theorem blockInRange_iff_blockExists {s : State} {base : Nat} : s.blockInRange base = true ↔ BlockExists s base :=
  blockInRange_iff_cells _ _ _

theorem exec_recon_of_no_block {s : State} (h : ¬ BlockExists s s.opDst) : FailsCleanly .recon s 0x03 := by
  have hb : s.blockInRange s.opDst = false := by rwa [← Bool.not_eq_true, blockInRange_iff_blockExists]
  rw [FailsCleanly, exec_eq_finish, ruleOf, runRecon, hb]
  rfl

theorem exec_recon_of_nan {s : State} (h : BlockExists s s.opDst) (hn : ∃ i, F64.isNaN (s.coef.get i) = true) :
    FailsCleanly .recon s 0x04 := by
  rw [FailsCleanly, exec_eq_finish, ruleOf, runRecon, blockInRange_iff_blockExists.mpr h, (s.coef.any_cells _).mpr hn]
  rfl

theorem exec_recon_of_block {s : State} (h : BlockExists s s.opDst) (hn : ∀ i, F64.isNaN (s.coef.get i) = false) :
    exec .recon s = .next ((reconBody s).complete none) := by
  have hany : s.coef.cells.any F64.isNaN = false := by
    rw [← Bool.not_eq_true, Tab.any_cells]
    rintro ⟨i, hi⟩
    simp [hn i] at hi
  rw [exec_eq_finish, ruleOf, runRecon, blockInRange_iff_blockExists.mpr h, hany]
  rfl

/-- The byte of a sample: saturation, then the rounding, which fits in the byte (R207). -/
theorem reconCell_toNat (mode : RoundMode) {v : F64} (hn : F64.isNaN v = false) :
    (reconCell mode v).toNat =
      if F64.lt v 0 = true then 0 else if F64.lt 0x406FE00000000000 v = true then 255 else roundSample mode v := by
  have low : roundSample mode F64.zero = 0 := by cases mode <;> decide +kernel
  have high : roundSample mode f255 = 255 := by cases mode <;> decide +kernel
  change (BitVec.ofNat 8 (roundSample mode (clampSample v))).toNat =
    if F64.lt v F64.zero = true then 0 else if F64.lt f255 v = true then 255 else roundSample mode v
  rw [clampSample, BitVec.toNat_ofNat]
  split
  · rw [low]
  · next h0 =>
    split
    · rw [high]
    · next h255 =>
      obtain ⟨k, hk, hm⟩ := sig_le_of_mag_le (mag_le_f255 hn (Bool.not_eq_true _ ▸ h0) (Bool.not_eq_true _ ▸ h255))
      have := roundSample_le hk hm mode
      exact Nat.mod_eq_of_lt (by omega)

/-- RECON changes DMEM and STATUS alone (R207). -/
theorem reconBody_completes (s : State) :
    (reconBody s).complete none = { s with mem := ((reconBody s).complete none).mem, status := s.status.succeeded } := by
  obtain ⟨m, hm⟩ : ∃ m, reconBody s = { s with mem := m } := ⟨_, reconBody_frame s⟩
  rw [hm]
  rfl

/-- A cell of RECON that no later cell overwrites (R207). -/
theorem readByte_reconBody_last (s : State) (r c : Fin 8)
    (h : ∀ r' c' : Fin 8, r.val * 8 + c.val < r'.val * 8 + c'.val →
      s.opDst + r'.val * s.opStride + c'.val ≠ s.opDst + r.val * s.opStride + c.val) :
    (reconBody s).readByte (s.opDst + r.val * s.opStride + c.val) = reconCell s.params.reconRound (s.coef.get (cellIx r c)) := by
  rw [← blockAddr_cellIx, reconBody, readByte_writeCells_last, Tab.get_ofFn]
  intro j hj
  rw [← cellIx_rowOf_colOf j, blockAddr_cellIx, blockAddr_cellIx]
  have hlt : (cellIx r c).val < j.val := hj
  simp only [cellIx] at hlt
  exact h _ _ (by simp only [rowOf, colOf]; omega)

/-- Settles O40: the checks in their order, then the stores of the block. -/
theorem reconStoresClampedSamples : Obligations.ReconStoresClampedSamples := by
  unfold Obligations.ReconStoresClampedSamples
  refine ⟨decode_encode .recon, fun s => ⟨exec_recon_of_no_block, exec_recon_of_nan, fun h hn => ?_⟩⟩
  refine ⟨(reconBody s).complete none, exec_recon_of_block h hn, reconBody_completes s, fun a ha => ?_, fun r c hlast => ?_⟩
  · rw [complete_readByte]
    exact readByte_reconBody fun ⟨r, c, hrc⟩ => ha r c hrc
  · rw [complete_readByte, readByte_reconBody_last s r c hlast]
    exact reconCell_toNat _ (hn _)

end Sys2Proof.Machine
end

section
/-! SUPPORT. The two passes of the transforms, cell by cell, and how FDCT, DEQUANT and IDCT complete (40_transform.md R203, R205). -/

namespace Sys2Proof.Machine

theorem sum8_eq_sumUp (f : Fin 8 → F64) : sum8 f = sumUp f := rfl

theorem readBlock_cellIx (s : State) (base : Nat) (r c : Fin 8) :
    (readBlock s base).get (cellIx r c) = s.readByte (base + r.val * s.opStride + c.val) := by
  rw [readBlock, Tab.get_ofFn, blockAddr_cellIx]

theorem fdctRows_cellIx (p : Params) (smp : Tab F64 64) (x v : Fin 8) :
    (fdctRows p smp).get (cellIx x v) = sumUp fun y => F64.mul (smp.get (cellIx x y)) (cosAt p y v) := by
  rw [fdctRows, Tab.get_ofFn, rowOf_cellIx, colOf_cellIx, sum8_eq_sumUp]

theorem fdctCols_cellIx (p : Params) (t : Tab F64 64) (u v : Fin 8) :
    (fdctCols p t).get (cellIx u v) =
      F64.mul (F64.mul (F64.mul beta (alpha u)) (alpha v)) (sumUp fun x => F64.mul (t.get (cellIx x v)) (cosAt p x u)) := by
  rw [fdctCols, Tab.get_ofFn, rowOf_cellIx, colOf_cellIx, sum8_eq_sumUp]

theorem idctRows_cellIx (p : Params) (c : Tab F64 64) (u y : Fin 8) :
    (idctRows p c).get (cellIx u y) = sumUp fun v => F64.mul (F64.mul (c.get (cellIx u v)) (alpha v)) (cosAt p y v) := by
  rw [idctRows, Tab.get_ofFn, rowOf_cellIx, colOf_cellIx, sum8_eq_sumUp]

theorem idctCols_cellIx (p : Params) (t : Tab F64 64) (x y : Fin 8) :
    (idctCols p t).get (cellIx x y) =
      F64.add (F64.mul beta (sumUp fun u => F64.mul (F64.mul (t.get (cellIx u y)) (alpha u)) (cosAt p x u))) f128 := by
  rw [idctCols, Tab.get_ofFn, rowOf_cellIx, colOf_cellIx, sum8_eq_sumUp]

theorem exec_fdct_of_block {s : State} (h : BlockExists s s.opSrc) : exec .fdct s = .next ((fdctBody s).complete none) := by
  rw [exec_eq_finish, ruleOf, runFdct, blockInRange_iff_blockExists.mpr h]
  rfl

theorem exec_fdct_of_no_block {s : State} (h : ¬ BlockExists s s.opSrc) : FailsCleanly .fdct s 0x03 := by
  have hb : s.blockInRange s.opSrc = false := by rwa [← Bool.not_eq_true, blockInRange_iff_blockExists]
  rw [FailsCleanly, exec_eq_finish, ruleOf, runFdct, hb]
  rfl

/-- Settles O36: the passes, cell by cell, of the block's shifted samples. -/
theorem fdctComputesCoefficients : Obligations.FdctComputesCoefficients := by
  unfold Obligations.FdctComputesCoefficients
  refine ⟨decode_encode .fdct, fun s => ⟨fun h => ?_, exec_fdct_of_no_block⟩⟩
  refine ⟨_, fun x v => (fdctRows s.params (Tab.ofFn fun i => levelShift ((readBlock s s.opSrc).get i))).get (cellIx x v),
    exec_fdct_of_block h, rfl, fun x v => ?_, fdctCols_cellIx _ _⟩
  simp only [fdctRows_cellIx, Tab.get_ofFn, readBlock_cellIx]
  rfl

theorem isNaN_settleNaN (d : F64) {x : F64} (h : F64.isNaN x = true) : F64.isNaN (settleNaN d x) = true := by
  rw [settleNaN, if_pos h]
  split
  · assumption
  · exact F64.isNaN_nan

theorem settleNaN_of_not_isNaN (d : F64) {x : F64} (h : F64.isNaN x = false) : settleNaN d x = x := by simp [settleNaN, h]

theorem idctBody_coef (s : State) (i : Fin 64) :
    (idctBody s).coef.get i = settleNaN (Config.freeNaN (s.draws + i.val)) ((inverseDct s.params s.coef).get i) :=
  Tab.get_ofFn _ i

/-- Settles O39: the passes, cell by cell, then the draw for a NaN. -/
theorem idctComputesSamples : Obligations.IdctComputesSamples := by
  unfold Obligations.IdctComputesSamples
  refine ⟨decode_encode .idct, fun s => ⟨(idctBody s).complete none, fun u y => (idctRows s.params s.coef).get (cellIx u y),
    fun x y => (inverseDct s.params s.coef).get (cellIx x y), rfl, rfl, idctRows_cellIx _ _, idctCols_cellIx _ _, fun x y => ?_⟩⟩
  rw [complete_coef, idctBody_coef]
  exact ⟨settleNaN_of_not_isNaN _, isNaN_settleNaN _⟩

end Sys2Proof.Machine
end

section
/-! SUPPORT. Bounds on binary64 results: rounding a number of magnitude at most N, a value itself, cannot pass N (00_scope.md R15). -/

namespace Sys2Proof.Machine.F64

/-- `x` is finite, and of magnitude at most `B`. -/
def Within (B : ℚ) (x : F64) : Prop := isFinite x = true ∧ |value x| ≤ B

variable {a b x : F64} {A B : ℚ} {N : ℕ}

theorem within_magValue_iff {M : ℕ} (hM : M < infMag) : Within (magValue M) x ↔ mag x ≤ M := by
  rw [Within, isFinite_iff, value_eq_magValue, abs_mul, abs_sgn, one_mul, abs_of_nonneg (magValue_nonneg _),
    magValue_strictMono.le_iff_le]
  omega

theorem within_ofInt {i : ℤ} (hi : i.natAbs ≤ N) (hN : N < 2 ^ 53) : Within N (ofInt i) := by
  obtain ⟨hf, hv⟩ := ofInt_exact (i := i) (by omega)
  refine ⟨hf, ?_⟩
  rw [hv, ← Int.cast_abs, Int.abs_eq_natAbs]
  exact_mod_cast hi

/-- The integers N and −N are values, so neither can lie between an exact result and its rounding. -/
theorem RoundsTo.within {v : ℚ} {r : F64} (h : RoundsTo v r) (hN : N < 2 ^ 53) (hv : |v| ≤ N) : Within N r := by
  have small : |v| < 2 ^ 1024 - 2 ^ 970 := by
    have limit : (2 : ℚ) ^ 1024 - 2 ^ 970 = (2 ^ 54 - 1) * 2 ^ 970 := by rw [sub_mul, ← pow_add, one_mul]
    have hN' : (N : ℚ) < 2 ^ 54 - 1 := by norm_num; exact_mod_cast (by omega : N < 18014398509481983)
    rw [limit]
    exact (lt_of_le_of_lt hv hN').trans_le (le_mul_of_one_le_right (by norm_num) (one_le_pow₀ one_le_two))
  obtain ⟨hf, nearest⟩ := h.1 small
  have closest (j : ℤ) (hj : j.natAbs ≤ N) : |value r - v| ≤ |(j : ℚ) - v| := by
    obtain ⟨hy, hval⟩ := ofInt_exact (i := j) (by omega)
    exact hval ▸ (nearest _ hy).1
  have below := closest (-(N : ℤ)) (by omega)
  have above := closest (N : ℤ) (by omega)
  push_cast at below above
  obtain ⟨hlo, hhi⟩ := abs_le.mp hv
  refine ⟨hf, abs_le.mpr ⟨?_, ?_⟩⟩ <;> by_contra! hc
  · rw [abs_of_nonpos (by linarith), abs_of_nonpos (by linarith)] at below
    linarith
  · rw [abs_of_nonneg (by linarith), abs_of_nonneg (by linarith)] at above
    linarith

theorem Within.mul (ha : Within A a) (hb : Within B b) (hN : N < 2 ^ 53) (h : A * B ≤ N) : Within N (mul a b) := by
  refine (mul_spec ha.1 hb.1).1.within hN (le_trans ?_ h)
  rw [abs_mul]
  exact mul_le_mul ha.2 hb.2 (abs_nonneg _) ((abs_nonneg _).trans ha.2)

theorem Within.add (ha : Within A a) (hb : Within B b) (hN : N < 2 ^ 53) (h : A + B ≤ N) : Within N (add a b) := by
  obtain ⟨hsum, hzero⟩ := add_spec ha.1 hb.1
  by_cases h0 : value a + value b = 0
  · rw [hzero h0]
    have zeros : ∀ n : Bool, Within N (if n then 0x8000000000000000 else 0) := fun n => by
      rw [← pack_zero, Within, isFinite_iff, value_eq_magValue, mag_pack n (by decide)]
      simp [magValue, sigOf, infMag]
    exact zeros _
  · exact (hsum h0).within hN ((abs_add_le _ _).trans ((add_le_add ha.2 hb.2).trans h))

/-- Eight terms of magnitude at most N sum to at most 8·N, rounding each addition. -/
theorem within_sumUp {f : Fin 8 → F64} (hf : ∀ k, Within N (f k)) (hN : 8 * N < 2 ^ 53) : Within (8 * N : ℕ) (sumUp f) := by
  have step {k : ℕ} {acc : F64} (h : Within (k * N : ℕ) acc) (hk : k < 8) (j : Fin 8) :
      Within ((k + 1) * N : ℕ) (F64.add acc (f j)) :=
    h.add (hf j) (by nlinarith) (by push_cast; linarith)
  have start : Within (0 * N : ℕ) 0 := by rw [zero_mul]; exact within_ofInt (i := 0) le_rfl (by norm_num)
  exact step (step (step (step (step (step (step (step start (by omega) 0) (by omega) 1) (by omega) 2) (by omega) 3) (by omega) 4)
    (by omega) 5) (by omega) 6) (by omega) 7

/-- Zero products of either sign sum to +0.0. -/
theorem sumUp_eq_zero {f : Fin 8 → F64} (hf : ∀ k, F64.add 0 (f k) = 0) : sumUp f = 0 := by simp only [sumUp, hf]

end Sys2Proof.Machine.F64
end

section
/-! SUPPORT. With a table of cosines, the bounds of the transforms' results (40_transform.md R203, 45_pipeline.md R430, R431; log entry 4), and the
flat cases, where every product is a zero. -/

namespace Sys2Proof.Machine

open F64

/-! ### The constants -/

/-- The magnitude at the start of a binade is a power of two. -/
theorem magValue_binade (K : ℕ) : magValue ((K + 1) * 2 ^ 52) = 2 ^ 52 * 2 ^ ((K : ℤ) - 1074) := by
  rw [add_mul, one_mul, magValue_place (by norm_num) (.inr le_rfl)]
  norm_num

theorem magValue_one : magValue 0x3FF0000000000000 = 1 := (magValue_binade 1022).trans (by norm_num [zpow_neg])

theorem magValue_quarter : magValue 0x3FD0000000000000 = 1 / 4 := (magValue_binade 1020).trans (by norm_num [zpow_neg])

theorem magValue_2048 : magValue 0x40A0000000000000 = (2048 : ℕ) := (magValue_binade 1033).trans (by norm_num [zpow_neg])

theorem within_one_iff {x : F64} : Within 1 x ↔ mag x ≤ 0x3FF0000000000000 := by
  rw [← magValue_one, within_magValue_iff (by decide)]

theorem within_alpha (u : Fin 8) : Within 1 (alpha u) := within_one_iff.mpr (by revert u; decide)

theorem within_beta : Within (1 / 4) beta := by rw [← magValue_quarter, within_magValue_iff (by decide)]; decide

theorem within_scale (u v : Fin 8) : Within (1 / 4) (mul (mul beta (alpha u)) (alpha v)) := by
  rw [← magValue_quarter, within_magValue_iff (by decide)]
  revert u v
  decide +kernel

theorem within_cosAt {p : Params} (hp : p.wellFormed = true) (x u : Fin 8) : Within 1 (cosAt p x u) := by
  simp only [Params.wellFormed, Bool.and_eq_true, Tab.all_cells] at hp
  obtain ⟨-, hcos⟩ := hp
  exact within_one_iff.mpr (of_decide_eq_true (hcos (cellIx x u)))

/-! ### FDCT -/

theorem within_levelShift (b : Byte) : Within (128 : ℕ) (levelShift b) := within_ofInt (by have := b.isLt; omega) (by norm_num)

theorem within_forwardDct {p : Params} (hp : p.wellFormed = true) (smp : Tab Byte 64) (u v : Fin 8) :
    Within (2048 : ℕ) ((forwardDct p smp).get (cellIx u v)) := by
  have rows (x : Fin 8) : Within (8 * 128 : ℕ) ((fdctRows p (Tab.ofFn fun i => levelShift (smp.get i))).get (cellIx x v)) := by
    rw [fdctRows_cellIx]
    refine within_sumUp (fun y => ?_) (by norm_num)
    rw [Tab.get_ofFn]
    exact (within_levelShift _).mul (within_cosAt hp y v) (by norm_num) (by norm_num)
  rw [forwardDct, fdctCols_cellIx]
  have cols := within_sumUp (fun x => (rows x).mul (N := 8 * 128) (within_cosAt hp x u) (by norm_num) (by norm_num)) (by norm_num)
  exact (within_scale u v).mul cols (by norm_num) (by norm_num)

theorem fdct_coef {s t : State} (hb : BlockExists s s.opSrc) (h : exec .fdct s = .next t) :
    t.coef = forwardDct s.params (readBlock s s.opSrc) := by
  rw [exec_fdct_of_block hb, Host.Outcome.next.injEq] at h
  rw [← h]
  rfl

/-! ### DEQUANT and IDCT -/

theorem within_dequantCell (b : Byte) (q : BitVec 16) : Within (2 ^ 23 : ℕ) (dequantCell b q) := by
  refine within_ofInt ?_ (by norm_num)
  have hb : b.toInt.natAbs ≤ 2 ^ 7 := by have := b.toInt_lt; have := b.le_toInt; omega
  have hq : q.toNat ≤ 2 ^ 16 := q.isLt.le
  rw [Int.natAbs_mul, Int.natAbs_natCast]
  calc b.toInt.natAbs * q.toNat ≤ 2 ^ 7 * 2 ^ 16 := Nat.mul_le_mul hb hq
    _ = 2 ^ 23 := by norm_num

/-- Each pass of the inverse transform multiplies the bound by the number of its terms, and the scale and the level shift do not double it. -/
theorem within_inverseDct {p : Params} (hp : p.wellFormed = true) {c : Tab F64 64} (hc : ∀ i, Within (2 ^ 23 : ℕ) (c.get i))
    (x y : Fin 8) : Within (2 ^ 30 : ℕ) ((inverseDct p c).get (cellIx x y)) := by
  have term {N : ℕ} {z : F64} (hz : Within N z) (hN : N < 2 ^ 53) (w k : Fin 8) :
      Within N (mul (mul z (alpha w)) (cosAt p k w)) :=
    (hz.mul (within_alpha w) hN (mul_one _).le).mul (within_cosAt hp k w) hN (mul_one _).le
  have rows (u : Fin 8) : Within (8 * 2 ^ 23 : ℕ) ((idctRows p c).get (cellIx u y)) := by
    rw [idctRows_cellIx]
    exact within_sumUp (fun v => term (hc _) (by norm_num) v y) (by norm_num)
  have cols := within_sumUp (fun u => term (rows u) (by norm_num) u x) (by norm_num)
  have shift : Within (128 : ℕ) f128 := within_ofInt (i := 128) le_rfl (by norm_num)
  rw [inverseDct, idctCols_cellIx]
  exact (within_beta.mul (N := 2 ^ 27) cols (by norm_num) (by norm_num)).add shift (by norm_num) (by norm_num)

theorem idct_coef {s t : State} (h : exec .idct s = .next t) (i : Fin 64)
    (hn : isNaN ((inverseDct s.params s.coef).get i) = false) : t.coef.get i = (inverseDct s.params s.coef).get i := by
  rw [(exec_next_iff .idct s t).mp h, complete_coef, ruleOf, ok_state, idctBody_coef, settleNaN_of_not_isNaN _ hn]

/-- Settles O37: no rounding in either transform can pass the bound of the exact results. -/
theorem transformOutputsAreFinite : Obligations.TransformOutputsAreFinite := by
  unfold Obligations.TransformOutputsAreFinite
  refine ⟨fun s t hp hb h i => ?_, fun s t u hp ht hu i => ?_⟩
  · have bound := within_forwardDct hp (readBlock s s.opSrc) (rowOf i) (colOf i)
    rw [cellIx_rowOf_colOf, ← fdct_coef hb h] at bound
    exact ⟨bound.1, (within_magValue_iff (by decide)).mp (magValue_2048 ▸ bound)⟩
  · rw [exec_next_iff] at ht
    have hc (j : Fin 64) : Within (2 ^ 23 : ℕ) (t.coef.get j) := by
      rw [ht, complete_coef, ruleOf, ok_state, dequantBody, Tab.get_ofFn]
      exact within_dequantCell _ _
    have hp' : t.params.wellFormed = true := by rw [ht]; exact hp
    have bound := within_inverseDct hp' hc (rowOf i) (colOf i)
    rw [cellIx_rowOf_colOf] at bound
    rw [idct_coef hu i (not_isNaN_of_isFinite bound.1)]
    exact bound.1

/-! ### Flat blocks -/

/-- Adding the product of +0.0 and a finite value, which is a zero of either sign, to +0.0. -/
theorem zero_add_zero_mul {c : F64} (hc : isFinite c = true) : add 0 (mul 0 c) = 0 := by
  have zeros : ∀ n : Bool, add 0 (pack n 0) = 0 := by decide
  rw [mul_of_isFinite (by decide) hc, show sig 0 = 0 by decide, zero_mul, round_zero, zeros]

theorem fdctPass_zero {p : Params} (hp : p.wellFormed = true) (u : Fin 8) : (sumUp fun y => mul 0 (cosAt p y u)) = 0 :=
  sumUp_eq_zero fun y => zero_add_zero_mul (within_cosAt hp y u).1

theorem idctPass_zero {p : Params} (hp : p.wellFormed = true) (x : Fin 8) :
    (sumUp fun u => mul (mul 0 (alpha u)) (cosAt p x u)) = 0 := by
  have alphas : ∀ u, mul 0 (alpha u) = 0 := by decide +kernel
  exact sumUp_eq_zero fun u => by rw [alphas]; exact zero_add_zero_mul (within_cosAt hp x u).1

theorem forwardDct_flat {p : Params} (hp : p.wellFormed = true) {smp : Tab Byte 64} (h : ∀ r c, smp.get (cellIx r c) = 128)
    (u v : Fin 8) : (forwardDct p smp).get (cellIx u v) = 0 := by
  have shifted : levelShift 128 = 0 := by decide
  have scaled : ∀ u v, mul (mul (mul beta (alpha u)) (alpha v)) 0 = 0 := by decide +kernel
  simp only [forwardDct, fdctCols_cellIx, fdctRows_cellIx, Tab.get_ofFn, h, shifted, fdctPass_zero hp, scaled]

theorem inverseDct_zero {p : Params} (hp : p.wellFormed = true) {c : Tab F64 64} (h : ∀ i, c.get i = 0) (x y : Fin 8) :
    (inverseDct p c).get (cellIx x y) = f128 := by
  have shifted : add (mul beta 0) f128 = f128 := by decide +kernel
  simp only [inverseDct, idctCols_cellIx, idctRows_cellIx, h, idctPass_zero hp, shifted]

/-- Settles O38: every product of a flat block is a zero, and the sums are +0.0. -/
theorem flatBlocksTransformExactly : Obligations.FlatBlocksTransformExactly := by
  unfold Obligations.FlatBlocksTransformExactly
  refine ⟨fun s t hp hb hflat h i => ?_, fun s t hp hzero h i => ?_⟩
  · rw [fdct_coef hb h, ← cellIx_rowOf_colOf i]
    exact forwardDct_flat hp (fun r c => by rw [readBlock_cellIx, hflat]) _ _
  · have out := inverseDct_zero hp hzero (rowOf i) (colOf i)
    rw [cellIx_rowOf_colOf] at out
    rw [idct_coef h i (by rw [out]; decide), out]
    rfl

end Sys2Proof.Machine
end

section
/-! SUPPORT. A rounded result that is an integer is exact (00_scope.md R15). -/

namespace Sys2Proof.Machine.F64

theorem isFinite_iff_not_special {x : F64} : isFinite x = true ↔ isNaN x = false ∧ isInf x = false := by
  rw [← Bool.not_eq_true, ← Bool.not_eq_true, isFinite_iff, isNaN_iff, isInf_iff]
  omega

/-- Integers below 2^53 are far from the overflow to an infinity. -/
theorem two_pow_lt_overflow : (2 : ℚ) ^ 53 < 2 ^ 1024 - 2 ^ 970 := by
  have limit : (2 : ℚ) ^ 1024 - 2 ^ 970 = (2 ^ 54 - 1) * 2 ^ 970 := by rw [sub_mul, ← pow_add, one_mul]
  rw [limit]
  exact lt_of_lt_of_le (by norm_num) (le_mul_of_one_le_right (by norm_num) (one_le_pow₀ one_le_two))

/-- An integer below 2^53 is a value itself, so no other value is as near to it. -/
theorem RoundsTo.value_eq {i : ℤ} {r : F64} (h : RoundsTo i r) (hi : i.natAbs < 2 ^ 53) : value r = i := by
  have hlt : |(i : ℚ)| < 2 ^ 53 := by rw [← Int.cast_abs, Int.abs_eq_natAbs]; exact_mod_cast hi
  obtain ⟨-, nearest⟩ := h.1 (hlt.trans two_pow_lt_overflow)
  obtain ⟨hfin, hval⟩ := ofInt_exact hi
  have hle := (nearest _ hfin).1
  rw [hval, sub_self, abs_zero, abs_nonpos_iff] at hle
  exact sub_eq_zero.mp hle

/-- The quotient of two integers whose exact quotient is the integer `i`. -/
theorem value_div_ofInt {i j : ℤ} (hij : (i * j).natAbs < 2 ^ 53) (hi : i.natAbs < 2 ^ 53) (hj : j.natAbs < 2 ^ 53)
    (h0 : j ≠ 0) : value (div (ofInt (i * j)) (ofInt j)) = i := by
  obtain ⟨hfin, hval⟩ := ofInt_exact hij
  obtain ⟨hfinj, hvalj⟩ := ofInt_exact hj
  have h0' : (j : ℚ) ≠ 0 := Int.cast_ne_zero.mpr h0
  have quot := (div_spec hfin hfinj (by rwa [hvalj])).1
  rw [hval, hvalj, Int.cast_mul, mul_div_cancel_right₀ _ h0'] at quot
  exact quot.value_eq hi

end Sys2Proof.Machine.F64
end

section
/-! SUPPORT. The quantizer's commands: how each completes, and its cells (41_quantizer.md R250 to R258). -/

namespace Sys2Proof.Machine

/-! ### QMSET -/

theorem exec_qmset_of_quality {s : State} (h1 : 1 ≤ s.opQuality) (h99 : s.opQuality ≤ 99) :
    exec .qmset s = .next (State.complete { s with qm := qmMatrix s.params s.opQuality } none) := by
  rw [exec_eq_finish, ruleOf, runQmset, if_neg (by omega)]
  rfl

theorem exec_qmset_of_bad_quality {s : State} (h : s.opQuality = 0 ∨ 100 ≤ s.opQuality) : FailsCleanly .qmset s 0x02 := by
  rw [FailsCleanly, exec_eq_finish, ruleOf, runQmset, if_pos (by omega)]
  rfl

/-- A QM cell holds R250's number: it fits the 16 bits. -/
theorem qmMatrix_toNat (p : Params) (q : Nat) (i : Fin 64) : ((qmMatrix p q).get i).toNat = qmCell (p.qbase.get i).toNat q := by
  rw [qmMatrix, Tab.get_ofFn, BitVec.toNat_ofNat, Nat.mod_eq_of_lt (qmCell_bounds _ _).2]

/-- Settles O30: the check of the quality, then R250's cell. -/
theorem qmsetDerivesMatrix : Obligations.QmsetDerivesMatrix := by
  unfold Obligations.QmsetDerivesMatrix
  refine ⟨decode_encode .qmset, fun s => ⟨fun h1 h99 => ?_, exec_qmset_of_bad_quality⟩⟩
  exact ⟨_, exec_qmset_of_quality h1 h99, rfl, qmMatrix_toNat _ _⟩

/-- At quality 50 the multiplier is 100, and the rounded hundredth of 100·b is b (R253). -/
theorem qmCell_fifty {b : Nat} (h : b ≠ 0) : qmCell b 50 = b := by
  have multiplier : qmMultiplier 50 = 100 := by decide
  rw [qmCell, multiplier]
  omega

theorem powerOn_qm_toNat (p : Params) (i : Fin 64) : ((State.powerOn p).qm.get i).toNat = (p.qbase.get i).toNat := by
  rw [State.powerOn, Tab.get_ofFn, BitVec.toNat_setWidth_of_le (by norm_num)]

/-- R253: the matrix of quality 50 is the one of power-on (10_state.md R72). -/
theorem qmMatrix_fifty {p : Params} (h : ∀ i, p.qbase.get i ≠ 0) : qmMatrix p 50 = (State.powerOn p).qm := by
  refine Tab.ext_get fun i => BitVec.eq_of_toNat_eq ?_
  have hb : (p.qbase.get i).toNat ≠ 0 := fun h0 => h i (BitVec.eq_of_toNat_eq h0)
  rw [qmMatrix_toNat, qmCell_fifty hb, powerOn_qm_toNat]

/-- Settles O31: cell for cell, R250 at quality 50. -/
theorem qualityFiftyIsQBase : Obligations.QualityFiftyIsQBase := by
  unfold Obligations.QualityFiftyIsQBase
  intro s t hq hb h
  rw [exec_qmset_of_quality (by omega) (by omega), Host.Outcome.next.injEq] at h
  have hqm : t.qm = (State.powerOn s.params).qm := by rw [← h, complete_qm, hq, qmMatrix_fifty hb]
  exact ⟨fun i => by rw [hqm, powerOn_qm_toNat], hqm⟩

/-! ### QUANT -/

theorem exec_quant_of_finite {s : State} (h : ∀ i, F64.isFinite (s.coef.get i) = true) :
    exec .quant s = .next ((quantBody s).complete none) := by
  rw [exec_eq_finish, ruleOf, runQuant, if_pos ((s.coef.all_cells _).mpr h)]
  rfl

theorem exec_quant_of_special {s : State} (h : ∃ i, F64.isNaN (s.coef.get i) = true ∨ F64.isInf (s.coef.get i) = true) :
    FailsCleanly .quant s 0x04 := by
  have hall : ¬ s.coef.cells.all F64.isFinite = true := by
    rw [Tab.all_cells]
    intro hfin
    obtain ⟨i, hi⟩ := h
    obtain ⟨hnan, hinf⟩ := F64.isFinite_iff_not_special.mp (hfin i)
    simp [hnan, hinf] at hi
  rw [FailsCleanly, exec_eq_finish, ruleOf, runQuant, if_neg hall]
  rfl

/-- The stored byte is the truncated quotient, modulo 256 (R254, R255). -/
theorem quantCell_toNat (c : F64) (q : BitVec 16) :
    ((quantCell c q).toNat : Int) = F64.trunc (F64.div c (F64.ofInt q.toNat)) % 256 := by
  rw [quantCell, BitVec.toNat_ofInt]
  exact Int.toNat_of_nonneg (Int.emod_nonneg _ (by norm_num))

/-- Settles O32: the check of COEF, then R255's cell. -/
theorem quantTruncates : Obligations.QuantTruncates := by
  unfold Obligations.QuantTruncates
  refine ⟨decode_encode .quant, fun s => ⟨fun h => ?_, exec_quant_of_special⟩⟩
  refine ⟨_, exec_quant_of_finite fun i => F64.isFinite_iff_not_special.mpr (h i), rfl, fun i => ?_⟩
  rw [complete_qblk, quantBody, Tab.get_ofFn]
  exact quantCell_toNat _ _

/-! ### DEQUANT -/

theorem exec_dequant (s : State) : exec .dequant s = .next ((dequantBody s).complete none) := exec_eq_finish .dequant s

theorem dequantBody_coef (s : State) (i : Fin 64) : (dequantBody s).coef.get i = dequantCell (s.qblk.get i) (s.qm.get i) :=
  Tab.get_ofFn _ i

/-- A signed byte times a cell has at most 23 bits: `to_f64` is exact on it (R256). -/
theorem natAbs_dequant_lt (b : Byte) (q : BitVec 16) : (b.toInt * q.toNat).natAbs < 2 ^ 53 := by
  have hb : b.toInt.natAbs ≤ 2 ^ 7 := by have := b.toInt_lt; have := b.le_toInt; omega
  have hprod := Nat.mul_le_mul hb q.isLt.le
  rw [Int.natAbs_mul, Int.natAbs_natCast]
  omega

/-- Settles O33: R256's cell, which `to_f64` makes exactly. -/
theorem dequantMultiplies : Obligations.DequantMultiplies := by
  unfold Obligations.DequantMultiplies
  refine ⟨decode_encode .dequant, fun s => ⟨_, exec_dequant s, rfl, fun i => ?_⟩⟩
  rw [complete_coef, dequantBody_coef]
  obtain ⟨hfin, -, htrunc, hzero, -⟩ := F64.ofInt_spec _ (natAbs_dequant_lt (s.qblk.get i) (s.qm.get i))
  exact ⟨rfl, hfin, htrunc, fun h0 => hzero (by rw [h0]; simp)⟩

/-! ### There and back -/

/-- R258: the product of DEQUANT divides exactly, so QUANT's quotient is the signed byte, whose low 8 bits are the byte. -/
theorem quantCell_dequantCell (b : Byte) {q : BitVec 16} (h : q ≠ 0) : quantCell (dequantCell b q) q = b := by
  have hb : b.toInt.natAbs < 2 ^ 53 := by have := b.toInt_lt; have := b.le_toInt; omega
  have hq : ((q.toNat : ℤ)).natAbs < 2 ^ 53 := by have := q.isLt; omega
  have h0 : (q.toNat : ℤ) ≠ 0 := by exact_mod_cast fun h0 => h (BitVec.eq_of_toNat_eq h0)
  have quot := F64.value_div_ofInt (natAbs_dequant_lt b q) hb hq h0
  rw [quantCell, dequantCell, F64.trunc_eq_of_value_eq quot, BitVec.ofInt_toInt]

/-- Settles O35: DEQUANT's cells are finite, and each comes back. -/
theorem dequantThenQuantRestores : Obligations.DequantThenQuantRestores := by
  unfold Obligations.DequantThenQuantRestores
  intro s t hqm h
  rw [exec_dequant, Host.Outcome.next.injEq] at h
  have hcoef (i : Fin 64) : t.coef.get i = dequantCell (s.qblk.get i) (t.qm.get i) := by
    rw [← h, complete_coef, dequantBody_coef]
    rfl
  have hqm' (i : Fin 64) : t.qm.get i ≠ 0 := by rw [← h]; exact hqm i
  have hfin (i : Fin 64) : F64.isFinite (t.coef.get i) = true := by
    rw [hcoef]
    exact (within_dequantCell _ _).1
  have restored : quantBody t = { t with qblk := s.qblk } := by
    rw [quantBody]
    congr 1
    refine Tab.ext_get fun i => ?_
    rw [Tab.get_ofFn, hcoef, quantCell_dequantCell _ (hqm' i)]
  rw [exec_quant_of_finite hfin, restored, complete_none_eq_succeeded]

end Sys2Proof.Machine
end

section
/-! SUPPORT. The zigzag reorderer: its two tables, and its commands' cells, bytes and completion (42_zigzag.md R300 to R304). -/

namespace Sys2Proof

/-- A table written along an injective order: a listed place holds its value, every other place what it held. -/
theorem Tab.get_foldl_set {α : Type} {m n : Nat} {place : Fin m → Fin n} (hplace : Function.Injective place) (val : Fin m → α)
    (l : List (Fin m)) (t : Tab α n) (k : Fin m) :
    (l.foldl (fun q j => q.set (place j) (val j)) t).get (place k) = if k ∈ l then val k else t.get (place k) := by
  induction l generalizing t with
  | nil => simp
  | cons j l ih =>
    rw [List.foldl_cons, ih]
    obtain rfl | hne := eq_or_ne j k
    · simp
    · rw [Tab.get_set_of_ne _ (hplace.ne hne)]
      simp [hne.symm]

namespace Machine

/-! ### The tables -/

@[simp] theorem zigzagInv_zigzag (k : Fin 64) : zigzagInv.get (zigzag.get k) = k := by revert k; decide

@[simp] theorem zigzag_zigzagInv (i : Fin 64) : zigzag.get (zigzagInv.get i) = i := by revert i; decide

theorem zigzag_injective : Function.Injective zigzag.get := Function.LeftInverse.injective zigzagInv_zigzag

/-- R300's direction rule: the cell after (r, c) may be (r', c').  On an odd anti-diagonal the row rises, on an even one it falls, and
only from the end of its diagonal does the order go on to the next. -/
@[reducible] def NextCell (r c r' c' : Nat) : Prop :=
  (r' + c' = r + c ∧ (r + c) % 2 = 1 ∧ r' = r + 1) ∨ (r' + c' = r + c ∧ (r + c) % 2 = 0 ∧ r' + 1 = r) ∨
    (r' + c' = r + c + 1 ∧ ((r + c) % 2 = 1 → r = 7 ∨ c = 0) ∧ ((r + c) % 2 = 0 → r = 0 ∨ c = 7))

theorem zigzag_nextCell (k : Fin 63) :
    NextCell (rowOf (zigzag.get k.castSucc)) (colOf (zigzag.get k.castSucc)) (rowOf (zigzag.get k.succ))
      (colOf (zigzag.get k.succ)) := by
  revert k; decide

/-- R19's numbering: an index is 8 · row + column in one way only. -/
theorem rowOf_colOf_eq {i : Fin 64} {r c : Nat} (hc : c < 8) (h : i.val = 8 * r + c) :
    (rowOf i).val = r ∧ (colOf i).val = c := by
  simp only [rowOf, colOf]
  omega

/-- Settles O42: the tables undo each other cell by cell, and each step of the order keeps the direction rule. -/
theorem zigzagTablesAreInverse : Obligations.ZigzagTablesAreInverse := by
  unfold Obligations.ZigzagTablesAreInverse
  refine ⟨zigzagInv_zigzag, zigzag_zigzagInv, rfl, fun k k' hk r c r' c' _ hc _ hc' h h' => ?_⟩
  obtain ⟨j, rfl, rfl⟩ : ∃ j : Fin 63, j.castSucc = k ∧ j.succ = k' := ⟨⟨k, by omega⟩, rfl, Fin.ext hk⟩
  obtain ⟨rfl, rfl⟩ := rowOf_colOf_eq hc h
  obtain ⟨rfl, rfl⟩ := rowOf_colOf_eq hc' h'
  exact zigzag_nextCell j

/-! ### ZZSCAN -/

theorem exec_zzscan_of_inRange {s : State} (h : s.opDst + 64 ≤ s.params.dmemSize) :
    exec .zzscan s = .next ((zzscanBody s).complete none) := by
  rw [exec_eq_finish, ruleOf, runZzscan, if_pos ((state_inRange_iff ..).mpr h)]
  rfl

theorem exec_zzscan_of_outside {s : State} (h : s.params.dmemSize < s.opDst + 64) : FailsCleanly .zzscan s 0x03 := by
  rw [FailsCleanly, exec_eq_finish, ruleOf, runZzscan, if_neg (mt (state_inRange_iff ..).mp (by omega))]
  rfl

/-- ZZSCAN changes DMEM and STATUS alone (R302). -/
theorem zzscanBody_completes (s : State) :
    (zzscanBody s).complete none = { s with mem := ((zzscanBody s).complete none).mem, status := s.status.succeeded } := by
  obtain ⟨m, hm⟩ : ∃ m, zzscanBody s = { s with mem := m } := ⟨_, zzscanBody_frame s⟩
  rw [hm]
  rfl

/-- The 64 addresses are distinct, so every stored cell stays (R302). -/
theorem readByte_zzscanBody_cell (s : State) (k : Fin 64) :
    (zzscanBody s).readByte (s.opDst + k.val) = s.qblk.get (zigzag.get k) := by
  have hlast : ∀ j, k < j → s.opDst + j.val ≠ s.opDst + k.val := fun j hj => by omega
  rw [zzscanBody, readByte_writeCells_last s (fun k : Fin 64 => s.opDst + k.val) _ k hlast, Tab.get_ofFn]

/-- Settles O43: the check, the 64 stores, and the frame. -/
theorem zzscanStoresInOrder : Obligations.ZzscanStoresInOrder := by
  unfold Obligations.ZzscanStoresInOrder
  refine ⟨decode_encode .zzscan, fun s => ⟨fun h => ?_, exec_zzscan_of_outside⟩⟩
  refine ⟨(zzscanBody s).complete none, exec_zzscan_of_inRange h, zzscanBody_completes s, fun k => ?_, fun a ha => ?_⟩
  · rw [complete_readByte, readByte_zzscanBody_cell]
  · rw [complete_readByte, readByte_zzscanBody]
    rw [FootprintWrites]
    omega

/-! ### ZZUNSCAN -/

theorem exec_zzunscan_of_inRange {s : State} (h : s.opSrc + 64 ≤ s.params.dmemSize) :
    exec .zzunscan s = .next ((zzunscanBody s).complete none) := by
  rw [exec_eq_finish, ruleOf, runZzunscan, if_pos ((state_inRange_iff ..).mpr h)]
  rfl

theorem exec_zzunscan_of_outside {s : State} (h : s.params.dmemSize < s.opSrc + 64) : FailsCleanly .zzunscan s 0x03 := by
  rw [FailsCleanly, exec_eq_finish, ruleOf, runZzunscan, if_neg (mt (state_inRange_iff ..).mp (by omega))]
  rfl

/-- ZZUNSCAN changes QBLK and STATUS alone (R303). -/
theorem zzunscanBody_completes (s : State) :
    (zzunscanBody s).complete none = { s with qblk := ((zzunscanBody s).complete none).qblk, status := s.status.succeeded } := by
  obtain ⟨q, hq⟩ : ∃ q, zzunscanBody s = { s with qblk := q } := ⟨_, rfl⟩
  rw [hq]
  rfl

/-- The order meets no cell twice, so every loaded byte stays (R303). -/
theorem zzunscanBody_qblk_zigzag (s : State) (k : Fin 64) :
    (zzunscanBody s).qblk.get (zigzag.get k) = s.readByte (s.opSrc + k.val) := by
  rw [zzunscanBody, Tab.get_foldl_set zigzag_injective (fun k => s.readByte (s.opSrc + k.val)), if_pos (List.mem_finRange k)]

/-- The order meets every cell (R301, R303). -/
theorem zzunscanBody_qblk (s : State) (i : Fin 64) :
    (zzunscanBody s).qblk.get i = s.readByte (s.opSrc + (zigzagInv.get i).val) := by
  rw [← zzunscanBody_qblk_zigzag, zigzag_zigzagInv]

/-- Settles O44: the check, then the 64 loads. -/
theorem zzunscanLoadsInOrder : Obligations.ZzunscanLoadsInOrder := by
  unfold Obligations.ZzunscanLoadsInOrder
  refine ⟨decode_encode .zzunscan, fun s => ⟨fun h => ?_, exec_zzunscan_of_outside⟩⟩
  refine ⟨(zzunscanBody s).complete none, exec_zzunscan_of_inRange h, zzunscanBody_completes s, fun k => ?_, fun i => ?_⟩
  · rw [complete_qblk, zzunscanBody_qblk_zigzag]
  · rw [complete_qblk, zzunscanBody_qblk]

/-! ### There and back -/

/-- R304, from QBLK: the loads find what the stores of `s` left. -/
theorem zzunscanBody_qblk_of_scanned {s t : State} (hmem : t.mem = (zzscanBody s).mem) (haddr : t.opSrc = s.opDst) :
    (zzunscanBody t).qblk = s.qblk :=
  Tab.ext_get fun i => by
    rw [zzunscanBody_qblk, readByte_congr hmem, haddr, readByte_zzscanBody_cell, zigzag_zigzagInv]

/-- R304, from DMEM: the stores put back what the loads of `s` took. -/
theorem readByte_zzscanBody_of_unscanned {s t : State} (hmem : t.mem = s.mem) (hqblk : t.qblk = (zzunscanBody s).qblk)
    (haddr : t.opDst = s.opSrc) (a : Nat) : (zzscanBody t).readByte a = s.readByte a := by
  by_cases ha : FootprintWrites t a .zzscan
  · rw [FootprintWrites] at ha
    obtain ⟨k, rfl⟩ : ∃ k : Fin 64, a = t.opDst + k.val := ⟨⟨a - t.opDst, by omega⟩, by simp only; omega⟩
    rw [readByte_zzscanBody_cell, hqblk, zzunscanBody_qblk_zigzag, haddr]
  · rw [readByte_zzscanBody ha, readByte_congr hmem]

/-- Settles O45: the second command passes its check where the first did, and undoes it. -/
theorem zigzagRoundTrip : Obligations.ZigzagRoundTrip := by
  unfold Obligations.ZigzagRoundTrip
  refine ⟨fun s t args hr hargs h => ?_, fun s t args hr hargs h => ?_⟩
  · rw [exec_zzscan_of_inRange hr, Host.Outcome.next.injEq] at h
    generalize hv : ({ t with op := ⟨t.op.word, args⟩ } : State) = v
    have haddr : v.opSrc = s.opDst := by rw [← hv]; exact congrArg BitVec.toNat hargs
    have hparams : v.params = s.params := by rw [← hv, ← h, zzscanBody_completes]
    have hmem : v.mem = (zzscanBody s).mem := by rw [← hv, ← h, complete_mem]
    refine ⟨_, exec_zzunscan_of_inRange (by rwa [haddr, hparams]), ?_⟩
    rw [complete_qblk, zzunscanBody_qblk_of_scanned hmem haddr]
  · rw [exec_zzunscan_of_inRange hr, Host.Outcome.next.injEq] at h
    generalize hv : ({ t with op := ⟨t.op.word, args⟩ } : State) = v
    have haddr : v.opDst = s.opSrc := by rw [← hv]; exact congrArg BitVec.toNat hargs
    have hparams : v.params = s.params := by rw [← hv, ← h, zzunscanBody_completes]
    have hmem : v.mem = s.mem := by rw [← hv, ← h, zzunscanBody_completes]
    have hqblk : v.qblk = (zzunscanBody s).qblk := by rw [← hv, ← h, complete_qblk]
    refine ⟨_, exec_zzscan_of_inRange (by rwa [haddr, hparams]), fun a => ?_⟩
    rw [complete_readByte, readByte_zzscanBody_of_unscanned hmem hqblk haddr]

end Machine

end Sys2Proof
end

section
/-! SUPPORT. The frequency counters: FREQCLR and FREQACC (43_huffman.md R330, R331). -/

namespace Sys2Proof.Machine

/-- Settles O46: the rule fills the window with zeros. -/
theorem freqclrClearsCounters : Obligations.FreqclrClearsCounters := by
  unfold Obligations.FreqclrClearsCounters
  exact ⟨decode_encode .freqclr, fun s => ⟨_, exec_eq_finish .freqclr s, rfl, fun b => Tab.get_fill 0 b⟩⟩

theorem byteIx_injective : Function.Injective byteIx := fun _ _ h => BitVec.eq_of_toNat_eq (congrArg Fin.val h)

/-- The greatest count (R331). -/
theorem toNat_le_max (x : Word) : x.toNat ≤ 0xFFFFFFFF := Nat.le_of_lt_succ x.isLt

/-- One byte more: its own counter goes up unless it is full, every other stays (R331). -/
theorem countByte_get (acc : Tab Word 256 × Bool) (a b : Byte) :
    ((countByte acc a).1.get (byteIx b)).toNat =
      min ((acc.1.get (byteIx b)).toNat + if a = b then 1 else 0) 0xFFFFFFFF := by
  have hle := toNat_le_max (acc.1.get (byteIx b))
  unfold countByte
  split
  · next hfull =>
    split
    · next hab => subst hab; rw [hfull]; rfl
    · exact (Nat.min_eq_left hle).symm
  · next hroom =>
    obtain rfl | hab := eq_or_ne a b
    · have hne : (acc.1.get (byteIx a)).toNat ≠ 0xFFFFFFFF := fun h => hroom (BitVec.eq_of_toNat_eq h)
      have hone : (1 : Word).toNat = 1 := rfl
      rw [Tab.get_set_same, if_pos rfl, BitVec.toNat_add, hone, Nat.mod_eq_of_lt (by omega)]
      omega
    · rw [Tab.get_set_of_ne _ (byteIx_injective.ne hab), if_neg hab]
      exact (Nat.min_eq_left hle).symm

/-- The flag rises at a byte whose counter is full (R331). -/
theorem countByte_flag (acc : Tab Word 256 × Bool) (a : Byte) :
    (countByte acc a).2 = true ↔ acc.2 = true ∨ (acc.1.get (byteIx a)).toNat = 0xFFFFFFFF := by
  have hfull : acc.1.get (byteIx a) = 0xFFFFFFFF ↔ (acc.1.get (byteIx a)).toNat = 0xFFFFFFFF := BitVec.toNat_inj.symm
  unfold countByte
  split
  · next h => simp [hfull.mp h]
  · next h => simp [mt hfull.mpr h]

/-- Counting a list adds the number of each byte, up to the greatest count (R331). -/
theorem foldl_countByte_get (acc : Tab Word 256 × Bool) (bs : List Byte) (b : Byte) :
    ((bs.foldl countByte acc).1.get (byteIx b)).toNat = min ((acc.1.get (byteIx b)).toNat + bs.count b) 0xFFFFFFFF := by
  induction bs generalizing acc with
  | nil => exact (Nat.min_eq_left (toNat_le_max _)).symm
  | cons a bs ih =>
    rw [List.foldl_cons, ih, countByte_get, List.count_cons]
    simp only [beq_iff_eq]
    omega

/-- The flag says that some sum passed the greatest count (R331). -/
theorem foldl_countByte_flag (acc : Tab Word 256 × Bool) (bs : List Byte) :
    (bs.foldl countByte acc).2 = true ↔
      acc.2 = true ∨ ∃ b, 0xFFFFFFFF < (acc.1.get (byteIx b)).toNat + bs.count b := by
  induction bs generalizing acc with
  | nil =>
    have hnone (b : Byte) : ¬ 0xFFFFFFFF < (acc.1.get (byteIx b)).toNat + [].count b :=
      Nat.not_lt_of_le (toNat_le_max _)
    simp only [List.foldl_nil, hnone, exists_false, or_false]
  | cons a bs ih =>
    rw [List.foldl_cons, ih, countByte_flag, or_assoc]
    refine or_congr_right ⟨?_, ?_⟩
    · rintro (hfull | ⟨b, hb⟩)
      · exact ⟨a, by rw [hfull, List.count_cons_self]; omega⟩
      · refine ⟨b, ?_⟩
        rw [countByte_get] at hb
        rw [List.count_cons]
        simp only [beq_iff_eq]
        omega
    · rintro ⟨b, hb⟩
      by_cases hfull : (acc.1.get (byteIx a)).toNat = 0xFFFFFFFF
      · exact .inl hfull
      · refine .inr ⟨b, ?_⟩
        have hle := toNat_le_max (acc.1.get (byteIx b))
        rw [countByte_get]
        rw [List.count_cons] at hb
        simp only [beq_iff_eq] at hb
        split at hb
        · next hab => subst hab; simp only [if_true]; omega
        · next hab => simp only [if_neg hab]; omega

theorem exec_freqacc_of_outside {s : State} (h : s.params.dmemSize < s.opSrc + s.opLen) : FailsCleanly .freqacc s 0x03 := by
  have hr : s.inRange s.opSrc s.opLen = false := by
    rw [← Bool.not_eq_true, state_inRange_iff]
    omega
  rw [FailsCleanly, exec_eq_finish, ruleOf, runFreqacc, hr]
  rfl

theorem exec_freqacc_of_inRange {s : State} (h : s.opSrc + s.opLen ≤ s.params.dmemSize) :
    exec .freqacc s = .next (State.complete
      { s with freq := (countBytes s.freq (s.readBytes s.opSrc s.opLen)).1 }
      (if (countBytes s.freq (s.readBytes s.opSrc s.opLen)).2 then some .freqOvf else none)) := by
  rw [exec_eq_finish, ruleOf, runFreqacc, (state_inRange_iff ..).mpr h]
  simp only [Bool.not_true, Bool.false_eq_true, if_false]
  split <;> rfl

/-- Settles O47: the check, then the counts and the flag of the whole region. -/
theorem freqaccCountsExactly : Obligations.FreqaccCountsExactly := by
  unfold Obligations.FreqaccCountsExactly
  refine ⟨decode_encode .freqacc, fun s => ⟨exec_freqacc_of_outside, fun h => ?_⟩⟩
  have hflag := foldl_countByte_flag (s.freq, false) (s.readBytes s.opSrc s.opLen)
  rw [← countBytes] at hflag
  simp only [Bool.false_eq_true, false_or] at hflag
  refine ⟨_, exec_freqacc_of_inRange h, rfl, foldl_countByte_get (s.freq, false) _, fun hfits => ?_, fun hover => ?_⟩
  · rw [if_neg (mt hflag.mp fun ⟨b, hb⟩ => Nat.not_lt_of_le (hfits b) hb)]
    rfl
  · rw [if_pos (hflag.mpr hover)]
    rfl

end Sys2Proof.Machine
end

section
/-! SUPPORT. A list of stream bits as a number: DECODE's probe, and the code of an entry (10_state.md R71; 43_huffman.md R336). -/

namespace Sys2Proof.Machine

/-- The number whose binary digits are the bits of the list, first bit first: the probe p after these bits (R337). -/
def probe (w : List Bool) : Nat := w.foldl (fun p b => 2 * p + b.toNat) 0

theorem probe_append (w : List Bool) (b : Bool) : probe (w ++ [b]) = 2 * probe w + b.toNat := by
  rw [probe, List.foldl_append]
  rfl

theorem foldl_bit (w : List Bool) (p : Nat) : w.foldl (fun p b => 2 * p + b.toNat) p = p * 2 ^ w.length + probe w := by
  induction w generalizing p with
  | nil => simp [probe]
  | cons b w ih =>
    have hfirst : probe (b :: w) = (2 * 0 + b.toNat) * 2 ^ w.length + probe w := ih _
    rw [List.foldl_cons, ih, hfirst, List.length_cons, Nat.pow_succ]
    ring

theorem probe_cons (b : Bool) (w : List Bool) : probe (b :: w) = b.toNat * 2 ^ w.length + probe w :=
  (foldl_bit w (2 * 0 + b.toNat)).trans (by rw [Nat.mul_zero, Nat.zero_add])

theorem probe_lt (w : List Bool) : probe w < 2 ^ w.length := by
  induction w with
  | nil => exact Nat.one_pos
  | cons b w ih =>
    have hb := b.toNat_lt
    rw [probe_cons, List.length_cons, Nat.pow_succ]
    obtain hb | hb : b.toNat = 0 ∨ b.toNat = 1 := by omega
    all_goals
      rw [hb]
      omega

theorem bool_toNat_injective : Function.Injective Bool.toNat := by
  unfold Function.Injective
  decide

/-- Bits of one number and as many: the same bits. -/
theorem eq_of_probe_eq {w v : List Bool} (hl : w.length = v.length) (hp : probe w = probe v) : w = v := by
  induction w using List.reverseRecOn generalizing v with
  | nil => exact (List.length_eq_zero_iff.mp hl.symm).symm
  | append_singleton w b ih =>
    obtain rfl | ⟨v, c, rfl⟩ := List.eq_nil_or_concat' v
    · simp at hl
    · have hb := b.toNat_lt
      have hc := c.toNat_lt
      rw [probe_append, probe_append] at hp
      rw [ih (by simpa using hl) (by omega), bool_toNat_injective (show b.toNat = c.toNat by omega)]

theorem lowBits_length (v : Word) (l : Nat) : (lowBits v l).length = l := by simp [lowBits]

theorem lowBits_succ (v : Word) (l : Nat) : lowBits v (l + 1) = v.getLsbD l :: lowBits v l := by
  rw [lowBits, lowBits, List.range_succ_eq_map, List.map_cons, List.map_map]
  congr 1
  exact List.map_congr_left fun j _ => congrArg v.getLsbD (by simp only [Nat.succ_eq_add_one]; omega)

theorem probe_lowBits (v : Word) (l : Nat) : probe (lowBits v l) = v.toNat % 2 ^ l := by
  induction l with
  | zero => rw [Nat.pow_zero, Nat.mod_one]; rfl
  | succ l ih => 
    rw [lowBits_succ, probe_cons, ih, lowBits_length, Nat.mod_pow_succ, BitVec.getLsbD, Nat.toNat_testBit, Nat.mul_comm,
      Nat.add_comm]

/-! ### The code of an entry -/

theorem stream_eq_lowBits (e : CodeEntry) : e.stream = lowBits e.bits e.len.toNat := rfl

@[simp] theorem stream_length (e : CodeEntry) : e.stream.length = e.len.toNat := lowBits_length _ _

/-- R336's key is the code, as a number and a length. -/
theorem key_eq (e : CodeEntry) : e.key = (probe e.stream, e.stream.length) := by
  rw [stream_length, stream_eq_lowBits, probe_lowBits]
  rfl

theorem key_eq_iff_stream_eq (e : CodeEntry) (w : List Bool) : e.key = (probe w, w.length) ↔ e.stream = w := by
  rw [key_eq, Prod.mk.injEq]
  exact ⟨fun ⟨hp, hl⟩ => eq_of_probe_eq hl hp, fun h => h ▸ ⟨rfl, rfl⟩⟩

theorem len_eq_zero_iff (e : CodeEntry) : e.len = 0 ↔ e.stream = [] := by
  rw [← List.length_eq_zero_iff, stream_length, ← BitVec.toNat_inj]
  rfl

/-- The entry that holds the bits of `w` in its low end, as TREEBUILD writes it. -/
theorem stream_mk (w : List Bool) (h : w.length ≤ 32) :
    (⟨BitVec.ofNat 32 (probe w), BitVec.ofNat 6 w.length⟩ : CodeEntry).stream = w := by
  have hp : probe w < 2 ^ 32 := (probe_lt w).trans_le (Nat.pow_le_pow_right (by decide) h)
  have hlen : (BitVec.ofNat 6 w.length).toNat = w.length := by rw [BitVec.toNat_ofNat]; omega
  rw [← key_eq_iff_stream_eq, CodeEntry.key, hlen, BitVec.toNat_ofNat, Nat.mod_eq_of_lt hp, Nat.mod_eq_of_lt (probe_lt w)]

/-- Codes of which none begins another are distinct (R336). -/
theorem PrefixFree.validTable {c : Tab CodeEntry 256} (h : PrefixFree c) (hl : ∀ i, (c.get i).len.toNat ≤ 32) : ValidTable c := by
  refine ⟨hl, fun i j hij hi hlen hkey => ?_⟩
  have hkeys : (c.get i).key = (c.get j).key := Prod.ext hkey (congrArg BitVec.toNat hlen)
  rw [key_eq (c.get j), key_eq_iff_stream_eq] at hkeys
  exact h i j hij hi (hlen ▸ hi) (hkeys ▸ List.prefix_rfl)

end Sys2Proof.Machine
end

section
/-! SUPPORT. The priority structure of TREEBUILD: the least key, one merge, and the tree that all merges end in (43_huffman.md R332,
R333). -/

namespace Sys2Proof.Machine

/-- The key (weight, seq) in the lexicographic order (R333). -/
def QNode.key (a : QNode) : ℕ ×ₗ ℕ := toLex (a.weight, a.seq)

theorem precedes_iff_key_lt {a b : QNode} : a.Precedes b ↔ a.key < b.key := by
  rw [QNode.key, QNode.key, Prod.Lex.toLex_lt_toLex, QNode.Precedes]

theorem before_iff_key_lt {a b : QNode} : a.before b = true ↔ a.key < b.key := by
  rw [← precedes_iff_key_lt, QNode.before, QNode.Precedes]
  simp

theorem precedes_of_key_le {a b : QNode} (h : a.key ≤ b.key) (hs : a.seq ≠ b.seq) : a.Precedes b :=
  precedes_iff_key_lt.mpr (h.lt_of_ne fun e => hs (congrArg (fun k => (ofLex k).2) e))

/-- `takeMin` takes a least key (R332). -/
theorem takeMin_key_le (m : QNode) (q : List QNode) : ∀ z ∈ m :: q, (takeMin m q).1.key ≤ z.key := by
  induction q generalizing m with
  | nil => exact fun z hz => (List.mem_singleton.mp hz) ▸ le_rfl
  | cons x rest ih =>
    rw [List.forall_mem_cons, List.forall_mem_cons]
    simp only [takeMin]
    split
    · next hx =>
      have hall := List.forall_mem_cons.mp (ih x)
      exact ⟨hall.1.trans (before_iff_key_lt.mp hx).le, hall⟩
    · next hx =>
      have hall := List.forall_mem_cons.mp (ih m)
      exact ⟨hall.1, hall.1.trans (not_lt.mp (mt before_iff_key_lt.mpr hx)), hall.2⟩

/-- Of nodes with different sequence numbers `takeMin` takes the first in the order of extraction (R333). -/
theorem takeMin_precedes {m : QNode} {q : List QNode} (h : ((m :: q).map QNode.seq).Nodup) :
    ∀ z ∈ (takeMin m q).2, (takeMin m q).1.Precedes z := by
  intro z hz
  have hperm := takeMin_perm m q
  have hseq := ((hperm.map QNode.seq).nodup_iff.mpr h)
  rw [List.map_cons, List.nodup_cons] at hseq
  refine precedes_of_key_le (takeMin_key_le m q z (hperm.subset (List.mem_cons_of_mem _ hz))) fun e => hseq.1 ?_
  exact e ▸ List.mem_map_of_mem hz

/-- The priority structure before the node of sequence number `next` is made: its numbers are distinct and below (R332). -/
structure QueueOk (next : Nat) (q : List QNode) : Prop where
  nodup : (q.map QNode.seq).Nodup
  lt : ∀ z ∈ q, z.seq < next

theorem QueueOk.perm {next : Nat} {q q' : List QNode} (h : QueueOk next q) (hp : q.Perm q') : QueueOk next q' :=
  ⟨(hp.map _).nodup_iff.mp h.nodup, fun z hz => h.lt z (hp.mem_iff.mpr hz)⟩

/-- The parent of two nodes, the first extracted to the left (R332, R333). -/
def QNode.join (next : Nat) (a b : QNode) : QNode := ⟨a.weight + b.weight, next, .node a.tree b.tree⟩

theorem QueueOk.join {next : Nat} {a b : QNode} {rest : List QNode} (h : QueueOk next (a :: b :: rest)) :
    QueueOk (next + 1) (a.join next b :: rest) := by
  obtain ⟨hnodup, hlt⟩ := h
  have hrest : ∀ z ∈ rest, z.seq < next := fun z hz => hlt z (List.mem_cons_of_mem _ (List.mem_cons_of_mem _ hz))
  refine ⟨List.nodup_cons.mpr ⟨fun hmem => ?_, hnodup.of_cons.of_cons⟩, List.forall_mem_cons.mpr ⟨next.lt_succ_self, ?_⟩⟩
  · obtain ⟨z, hz, he⟩ := List.mem_map.mp hmem
    exact (hrest z hz).ne he
  · exact fun z hz => (hrest z hz).trans next.lt_succ_self

/-- One merge (R332): the two first nodes in the order of extraction are replaced by their parent. -/
theorem mergeAll_step {next : Nat} {q : List QNode} (h : QueueOk next q) (h2 : 2 ≤ q.length) :
    ∃ a b rest, q.Perm (a :: b :: rest) ∧ a.Precedes b ∧ (∀ z ∈ rest, b.Precedes z) ∧
      ∀ fuel, mergeAll (fuel + 1) next q = mergeAll fuel (next + 1) (a.join next b :: rest) := by
  obtain ⟨x, xs, rfl⟩ := List.exists_cons_of_length_pos (show 0 < q.length by omega)
  have hlen := takeMin_length x xs
  have hperm := takeMin_perm x xs
  have hfirst := takeMin_precedes h.nodup
  cases htake : takeMin x xs with
  | mk a r =>
    simp only [htake] at hlen hperm hfirst
    obtain ⟨y, ys, rfl⟩ := List.exists_cons_of_length_pos (show 0 < r.length by rw [List.length_cons] at h2; omega)
    have hperm' : (x :: xs).Perm (a :: (takeMin y ys).1 :: (takeMin y ys).2) :=
      hperm.symm.trans ((takeMin_perm y ys).symm.cons a)
    have hnodup : ((y :: ys).map QNode.seq).Nodup := (h.perm hperm.symm).nodup.of_cons
    refine ⟨a, _, _, hperm', hfirst _ ((takeMin_perm y ys).subset List.mem_cons_self), takeMin_precedes hnodup, fun fuel => ?_⟩
    simp only [mergeAll, htake]
    rfl

/-- The merges end in one tree, the one of R332. -/
theorem mergeAll_merges (fuel : Nat) {next : Nat} {q : List QNode} (h : QueueOk next q) (hne : q ≠ []) (hfuel : q.length ≤ fuel) :
    ∃ r, mergeAll fuel next q = [r] ∧ Merges next q r.tree := by
  induction fuel generalizing next q with
  | zero => exact absurd (List.length_eq_zero_iff.mp (Nat.le_zero.mp hfuel)) hne
  | succ fuel ih =>
    obtain h1 | h2 : q.length = 1 ∨ 2 ≤ q.length := by
      have := List.length_pos_iff.mpr hne
      omega
    · obtain ⟨x, rfl⟩ := List.length_eq_one_iff.mp h1
      exact ⟨x, rfl, .root next x.weight x.seq x.tree⟩
    · obtain ⟨a, b, rest, hperm, hab, hrest, hstep⟩ := mergeAll_step h h2
      have hlen := hperm.length_eq
      simp only [List.length_cons] at hlen
      obtain ⟨r, hr, hmerges⟩ := ih (h.perm hperm).join (by simp) (by rw [List.length_cons]; omega)
      exact ⟨r, (hstep fuel).trans hr, .merge hperm hab hrest hmerges⟩

end Sys2Proof.Machine
end

section
/-! SUPPORT. The codes of a tree as its root-to-leaf paths (43_huffman.md R332). -/

namespace Sys2Proof.Machine

/-- The leaves of a tree, each with its path from the root: left is 1, right is 0 (R332). -/
def HTree.paths : HTree → List (Fin 256 × List Bool)
  | .leaf b => [(b, [])]
  | .node l r => l.paths.map (fun p => (p.1, true :: p.2)) ++ r.paths.map (fun p => (p.1, false :: p.2))

theorem leafPath_iff_mem_paths {T : HTree} {b : Fin 256} {w : List Bool} : LeafPath T b w ↔ (b, w) ∈ T.paths := by
  constructor
  · intro h
    induction h with
    | leaf b => exact List.mem_singleton_self _
    | left _ ih => exact List.mem_append_left _ (List.mem_map.mpr ⟨_, ih, rfl⟩)
    | right _ ih => exact List.mem_append_right _ (List.mem_map.mpr ⟨_, ih, rfl⟩)
  · induction T generalizing w with
    | leaf c =>
      intro h
      obtain ⟨rfl, rfl⟩ := Prod.mk.inj (List.mem_singleton.mp h)
      exact .leaf b
    | node l r ihl ihr =>
      intro h
      rw [HTree.paths, List.mem_append, List.mem_map, List.mem_map] at h
      obtain ⟨⟨c, v⟩, hp, he⟩ | ⟨⟨c, v⟩, hp, he⟩ := h
      · obtain ⟨rfl, rfl⟩ := Prod.mk.inj he
        exact .left (ihl hp)
      · obtain ⟨rfl, rfl⟩ := Prod.mk.inj he
        exact .right (ihr hp)

/-- The code of a leaf (R332): its path as a number, and its length. -/
def assigned (p : Fin 256 × List Bool) : Assigned := ⟨p.1, probe p.2, p.2.length⟩

/-- `AssignCodes` below a node reached by the bits (p, l) (R332). -/
theorem codes_eq_map_paths (T : HTree) (p l : Nat) :
    T.codes p l = T.paths.map fun x => ⟨x.1, p * 2 ^ x.2.length + probe x.2, l + x.2.length⟩ := by
  induction T generalizing p l with
  | leaf b => simp [HTree.codes, HTree.paths, probe]
  | node a b iha ihb =>
    rw [HTree.codes, iha, ihb, HTree.paths, List.map_append, List.map_map, List.map_map]
    congr 1
    all_goals
      refine List.map_congr_left fun x _ => ?_
      simp only [Function.comp, probe_cons, List.length_cons, Assigned.mk.injEq, true_and, Bool.toNat_true, Bool.toNat_false]
      exact ⟨by ring, by ring⟩

theorem codes_root (T : HTree) : T.codes 0 0 = T.paths.map assigned := by
  rw [codes_eq_map_paths]
  exact List.map_congr_left fun x _ => by rw [Nat.zero_mul, Nat.zero_add, Nat.zero_add, assigned]

/-- A path of `d` steps passes a subtree at each: the tree has more than `d` leaves. -/
theorem path_length_lt {T : HTree} {b : Fin 256} {w : List Bool} (h : LeafPath T b w) : w.length < T.paths.length := by
  have hpos (T : HTree) : 0 < T.paths.length := by
    induction T with
    | leaf => exact Nat.one_pos
    | node l r ihl _ => rw [HTree.paths, List.length_append, List.length_map]; omega
  induction h with
  | leaf => exact Nat.one_pos
  | @left l r _ _ _ ih =>
    have := hpos r
    rw [HTree.paths, List.length_append, List.length_map, List.length_map, List.length_cons]
    omega
  | @right l r _ _ _ ih =>
    have := hpos l
    rw [HTree.paths, List.length_append, List.length_map, List.length_map, List.length_cons]
    omega

/-- No leaf lies on the path to another (R336). -/
theorem LeafPath.eq_of_prefix {T : HTree} {a b : Fin 256} {v w : List Bool} (ha : LeafPath T a v) (hb : LeafPath T b w)
    (h : v <+: w) : a = b := by
  induction ha generalizing w with
  | leaf a => cases hb; rfl
  | left _ ih =>
    cases hb with
    | left hb => exact ih hb (List.cons_prefix_cons.mp h).2
    | right hb => exact absurd (List.cons_prefix_cons.mp h).1 (by decide)
  | right _ ih =>
    cases hb with
    | left hb => exact absurd (List.cons_prefix_cons.mp h).1 (by decide)
    | right hb => exact ih hb (List.cons_prefix_cons.mp h).2

/-- The leaves' symbols. -/
def HTree.symbols (T : HTree) : List (Fin 256) := T.paths.map Prod.fst

@[simp] theorem symbols_leaf (b : Fin 256) : (HTree.leaf b).symbols = [b] := rfl

@[simp] theorem symbols_node (l r : HTree) : (HTree.node l r).symbols = l.symbols ++ r.symbols := by
  simp only [HTree.symbols, HTree.paths, List.map_append, List.map_map]
  rfl

/-- The merges lose no leaf. -/
theorem Merges.symbols_perm {next : Nat} {q : List QNode} {T : HTree} (h : Merges next q T) :
    T.symbols.Perm (q.flatMap fun z => z.tree.symbols) := by
  induction h with
  | root => simp
  | merge hperm _ _ _ ih =>
    refine ih.trans ((List.Perm.of_eq ?_).trans (hperm.flatMap_right _).symm)
    simp

end Sys2Proof.Machine
end

section
/-! SUPPORT. The code table that TREEBUILD computes (43_huffman.md R332, R334, R336). -/

namespace Sys2Proof.Machine

/-! ### The present symbols and their leaves -/

theorem mem_presentSymbols {f : Tab Word 256} {b : Fin 256} : b ∈ presentSymbols f ↔ f.get b ≠ 0 := by
  simp [presentSymbols]

theorem presentSymbols_pairwise_lt (f : Tab Word 256) : (presentSymbols f).Pairwise (· < ·) :=
  (List.pairwise_lt_finRange 256).filter _

/-- Lsym is the ascending list of the symbols with a count (R332). -/
theorem presentSymbols_eq {f : Tab Word 256} {l : List (Fin 256)} (hl : l.Pairwise (· < ·)) (h : ∀ b, b ∈ l ↔ f.get b ≠ 0) :
    presentSymbols f = l := by
  have hs := presentSymbols_pairwise_lt f
  have hperm := (List.perm_ext_iff_of_nodup (hs.imp ne_of_lt) (hl.imp ne_of_lt)).mpr fun b => mem_presentSymbols.trans (h b).symm
  exact hperm.eq_of_pairwise (fun a b _ _ hab hba => absurd hab hba.asymm) hs hl

theorem leaves_eq_map_zipIdx (f : Tab Word 256) :
    leaves f = (presentSymbols f).zipIdx.map fun p => ⟨(f.get p.1).toNat, p.2, .leaf p.1⟩ := List.mapIdx_eq_zipIdx_map

theorem leaves_length (f : Tab Word 256) : (leaves f).length = (presentSymbols f).length := List.length_mapIdx

theorem leaves_seq (f : Tab Word 256) : (leaves f).map QNode.seq = List.range' 0 (presentSymbols f).length := by
  rw [leaves_eq_map_zipIdx, List.map_map, ← List.zipIdx_map_snd 0]
  rfl

theorem leaves_symbols (f : Tab Word 256) : ((leaves f).flatMap fun z => z.tree.symbols) = presentSymbols f := by
  rw [leaves_eq_map_zipIdx, List.flatMap_map]
  simp only [symbols_leaf]
  rw [← List.map_eq_flatMap, List.zipIdx_map_fst]

theorem leaves_queueOk (f : Tab Word 256) : QueueOk (leaves f).length (leaves f) where
  nodup := by rw [leaves_seq]; exact List.nodup_range'
  lt z hz := by
    have hseq := List.mem_map_of_mem (f := QNode.seq) hz
    rw [leaves_seq, List.mem_range'_1] at hseq
    rw [leaves_length]
    omega

/-! ### The codes -/

/-- The paths `ps` make a code for the counts `f`: one non-empty word for each present symbol, none the beginning of another's
(R336). -/
structure CodePaths (f : Tab Word 256) (ps : List (Fin 256 × List Bool)) : Prop where
  symbols : (ps.map Prod.fst).Perm (presentSymbols f)
  nonempty : ∀ p ∈ ps, p.2 ≠ []
  prefixFree : ∀ p ∈ ps, ∀ q ∈ ps, p.2 <+: q.2 → p.1 = q.1
  short : ∀ p ∈ ps, p.2.length < 256

theorem codePaths_of_merges {f : Tab Word 256} {T : HTree} (h2 : 2 ≤ (presentSymbols f).length)
    (h : Merges (leaves f).length (leaves f) T) : CodePaths f T.paths := by
  have hsym : T.symbols.Perm (presentSymbols f) := leaves_symbols f ▸ h.symbols_perm
  have hlen : T.paths.length = (presentSymbols f).length := by rw [← hsym.length_eq, HTree.symbols, List.length_map]
  have h256 := presentSymbols_length_le f
  refine ⟨hsym, fun p hp he => ?_, fun p hp q hq hpre => ?_, fun p hp => ?_⟩
  · obtain ⟨b, w⟩ := p
    obtain rfl : w = [] := he
    cases leafPath_iff_mem_paths.mpr hp
    simp [HTree.paths] at hlen
    omega
  · exact (leafPath_iff_mem_paths.mpr hp).eq_of_prefix (leafPath_iff_mem_paths.mpr hq) hpre
  · have := path_length_lt (leafPath_iff_mem_paths.mpr hp)
    omega

theorem buildCodes_of_none {f : Tab Word 256} (h : presentSymbols f = []) : buildCodes f = [] := by
  rw [buildCodes, leaves, h]
  rfl

/-- One symbol: its code is `0` (R334). -/
theorem buildCodes_of_one {f : Tab Word 256} {b : Fin 256} (h : presentSymbols f = [b]) :
    buildCodes f = [(b, [false])].map assigned := by
  rw [buildCodes, leaves, h]
  rfl

/-- From two symbols on: the codes of the merged tree (R332). -/
theorem buildCodes_of_two_le {f : Tab Word 256} (h2 : 2 ≤ (presentSymbols f).length) :
    ∃ T, Merges (leaves f).length (leaves f) T ∧ buildCodes f = T.paths.map assigned := by
  have hlen : 2 ≤ (leaves f).length := leaves_length f ▸ h2
  obtain ⟨r, hr, hm⟩ := mergeAll_merges _ (leaves_queueOk f) (List.length_pos_iff.mp (by omega)) le_rfl
  refine ⟨r.tree, hm, ?_⟩
  rw [← codes_root, buildCodes]
  split
  · next h => rw [h] at hlen; simp at hlen
  · next h => rw [h] at hlen; simp at hlen
  · rw [hr]

/-- The codes of at least one symbol are a code for the counts (R332, R334, R336). -/
theorem exists_codePaths {f : Tab Word 256} (h : presentSymbols f ≠ []) :
    ∃ ps, buildCodes f = ps.map assigned ∧ CodePaths f ps := by
  obtain h1 | h2 : (presentSymbols f).length = 1 ∨ 2 ≤ (presentSymbols f).length := by
    have := List.length_pos_iff.mpr h
    omega
  · obtain ⟨b, hb⟩ := List.length_eq_one_iff.mp h1
    refine ⟨_, buildCodes_of_one hb, by rw [hb]; rfl, ?_, ?_, ?_⟩
    all_goals simp
  · obtain ⟨T, hm, hT⟩ := buildCodes_of_two_le h2
    exact ⟨_, hT, codePaths_of_merges h2 hm⟩

/-! ### The greatest length -/

/-- MAXLEN is at most `n` exactly when no code is longer (R332). -/
theorem maxCodeLen_le_iff (cs : List Assigned) (n : Nat) : maxCodeLen cs ≤ n ↔ ∀ c ∈ cs, c.len ≤ n := by
  have hfold (m : Nat) : cs.foldl (fun m c => max m c.len) m ≤ n ↔ m ≤ n ∧ ∀ c ∈ cs, c.len ≤ n := by
    induction cs generalizing m with
    | nil => simp
    | cons c cs ih => rw [List.foldl_cons, ih, max_le_iff, List.forall_mem_cons, and_assoc]
  rw [maxCodeLen, hfold]
  exact and_iff_right (Nat.zero_le n)

theorem len_le_maxCodeLen {cs : List Assigned} : ∀ c ∈ cs, c.len ≤ maxCodeLen cs := (maxCodeLen_le_iff cs _).mp le_rfl

/-- MAXLEN is reached (R332). -/
theorem exists_len_eq_maxCodeLen {cs : List Assigned} (h : cs ≠ []) : ∃ c ∈ cs, c.len = maxCodeLen cs := by
  by_contra hno
  push Not at hno
  have hlt : ∀ c ∈ cs, c.len < maxCodeLen cs := fun c hc => (len_le_maxCodeLen c hc).lt_of_ne (hno c hc)
  obtain ⟨c, hc⟩ := List.exists_mem_of_ne_nil cs h
  have hpos := hlt c hc
  have := (maxCodeLen_le_iff cs (maxCodeLen cs - 1)).mpr fun c hc => by have := hlt c hc; omega
  omega

theorem maxCodeLen_paths_le_iff (ps : List (Fin 256 × List Bool)) (n : Nat) :
    maxCodeLen (ps.map assigned) ≤ n ↔ ∀ p ∈ ps, p.2.length ≤ n := by
  rw [maxCodeLen_le_iff, List.forall_mem_map]
  rfl

/-! ### The table of a code -/

/-- The entry of a word (R332). -/
def entryOf (w : List Bool) : CodeEntry := ⟨BitVec.ofNat 32 (probe w), BitVec.ofNat 6 w.length⟩

theorem codeTable_absent {ps : List (Fin 256 × List Bool)} {b : Fin 256} (h : b ∉ ps.map Prod.fst) :
    (codeTable (ps.map assigned)).get b = ⟨0, 0⟩ := by
  have hnone : (ps.map assigned).find? (fun c => c.sym == b) = none := by
    rw [List.find?_eq_none, List.forall_mem_map]
    exact fun p hp he => h (List.mem_map.mpr ⟨p, hp, beq_iff_eq.mp he⟩)
  rw [codeTable_get, hnone]

theorem codeTable_present {ps : List (Fin 256 × List Bool)} (hnodup : (ps.map Prod.fst).Nodup) {b : Fin 256} {w : List Bool}
    (h : (b, w) ∈ ps) : (codeTable (ps.map assigned)).get b = entryOf w := by
  rw [codeTable_get]
  cases hf : (ps.map assigned).find? (fun c => c.sym == b) with
  | none => exact absurd (beq_self_eq_true b) (List.find?_eq_none.mp hf _ (List.mem_map_of_mem (f := assigned) h))
  | some c =>
    obtain ⟨p, hp, rfl⟩ := List.mem_map.mp (List.mem_of_find?_eq_some hf)
    have hb : p.1 = b := by simpa [assigned] using List.find?_some hf
    obtain rfl := List.inj_on_of_nodup_map hnodup hp h hb
    rfl

section
variable {f : Tab Word 256} {ps : List (Fin 256 × List Bool)}

theorem CodePaths.nodup (hc : CodePaths f ps) : (ps.map Prod.fst).Nodup :=
  hc.symbols.nodup_iff.mpr ((presentSymbols_pairwise_lt f).imp ne_of_lt)

theorem CodePaths.mem_symbols (hc : CodePaths f ps) {b : Fin 256} : b ∈ ps.map Prod.fst ↔ f.get b ≠ 0 :=
  hc.symbols.mem_iff.trans mem_presentSymbols

theorem CodePaths.ne_nil (hc : CodePaths f ps) (h : presentSymbols f ≠ []) : ps ≠ [] := by
  rintro rfl
  exact h (List.nil_perm.mp hc.symbols)

theorem CodePaths.exists_word (hc : CodePaths f ps) {b : Fin 256} (h : f.get b ≠ 0) : ∃ w, (b, w) ∈ ps := by
  obtain ⟨⟨c, w⟩, hp, rfl⟩ := List.mem_map.mp (hc.mem_symbols.mpr h)
  exact ⟨w, hp⟩

theorem CodePaths.absent (hc : CodePaths f ps) {b : Fin 256} (h : f.get b = 0) :
    (codeTable (ps.map assigned)).get b = ⟨0, 0⟩ :=
  codeTable_absent fun hb => hc.mem_symbols.mp hb h

/-- Each entry of the table is an absent one, or the word of a present symbol. -/
theorem CodePaths.entry_cases (hc : CodePaths f ps) (b : Fin 256) :
    (f.get b = 0 ∧ (codeTable (ps.map assigned)).get b = ⟨0, 0⟩) ∨
    (f.get b ≠ 0 ∧ ∃ w, (b, w) ∈ ps ∧ (codeTable (ps.map assigned)).get b = entryOf w) := by
  by_cases h : f.get b = 0
  · exact .inl ⟨h, hc.absent h⟩
  · obtain ⟨w, hw⟩ := hc.exists_word h
    exact .inr ⟨h, w, hw, codeTable_present hc.nodup hw⟩

/-- TREEBUILD's entry for a word of up to 32 bits holds it. -/
theorem entryOf_stream {w : List Bool} (h : w.length ≤ 32) : (entryOf w).stream = w := stream_mk w h

theorem entryOf_len {w : List Bool} (h : w.length ≤ 32) : (entryOf w).len.toNat = w.length := by
  rw [← stream_length, entryOf_stream h]

theorem entryOf_bits_lt (w : List Bool) : (entryOf w).bits.toNat < 2 ^ w.length :=
  (Nat.mod_le _ _).trans_lt (probe_lt w)

theorem word_length_le (h : maxCodeLen (ps.map assigned) ≤ 32) {p : Fin 256 × List Bool} (hp : p ∈ ps) :
    p.2.length ≤ 32 :=
  (maxCodeLen_paths_le_iff ps 32).mp h p hp

/-- Exactly the symbols with a count are present (R332). -/
theorem CodePaths.len_eq_zero_iff (hc : CodePaths f ps) (h32 : maxCodeLen (ps.map assigned) ≤ 32) (b : Fin 256) :
    ((codeTable (ps.map assigned)).get b).len = 0 ↔ f.get b = 0 := by
  obtain ⟨hb, he⟩ | ⟨hb, w, hw, he⟩ := hc.entry_cases b
  · simp [he, hb]
  · rw [he, Machine.len_eq_zero_iff, entryOf_stream (word_length_le h32 hw)]
    exact iff_of_false (hc.nonempty _ hw) hb

theorem CodePaths.entry_bounds (hc : CodePaths f ps) (h32 : maxCodeLen (ps.map assigned) ≤ 32) (b : Fin 256) :
    ((codeTable (ps.map assigned)).get b).len.toNat ≤ maxCodeLen (ps.map assigned) ∧
    ((codeTable (ps.map assigned)).get b).bits.toNat < 2 ^ ((codeTable (ps.map assigned)).get b).len.toNat := by
  obtain ⟨-, he⟩ | ⟨-, w, hw, he⟩ := hc.entry_cases b
  · simp [he]
  · rw [he, entryOf_len (word_length_le h32 hw)]
    exact ⟨(maxCodeLen_paths_le_iff ps _).mp le_rfl _ hw, entryOf_bits_lt w⟩

/-- No entry of a code's table begins another (R336). -/
theorem CodePaths.prefixFree_table (hc : CodePaths f ps) (h32 : maxCodeLen (ps.map assigned) ≤ 32) :
    PrefixFree (codeTable (ps.map assigned)) := by
  intro i j hij hi hj hpre
  obtain ⟨-, he⟩ | ⟨-, v, hv, hev⟩ := hc.entry_cases i
  · simp [he] at hi
  obtain ⟨-, he⟩ | ⟨-, w, hw, hew⟩ := hc.entry_cases j
  · simp [he] at hj
  rw [hev, hew, entryOf_stream (word_length_le h32 hv), entryOf_stream (word_length_le h32 hw)] at hpre
  exact hij (hc.prefixFree _ hv _ hw hpre)

theorem CodePaths.exists_len_eq (hc : CodePaths f ps) (h : ps ≠ []) (h32 : maxCodeLen (ps.map assigned) ≤ 32) :
    ∃ b, ((codeTable (ps.map assigned)).get b).len.toNat = maxCodeLen (ps.map assigned) := by
  obtain ⟨c, hmem, hlen⟩ := exists_len_eq_maxCodeLen (mt List.map_eq_nil_iff.mp h)
  obtain ⟨⟨b, w⟩, hp, rfl⟩ := List.mem_map.mp hmem
  exact ⟨b, by rw [codeTable_present hc.nodup hp, entryOf_len (word_length_le h32 hp), ← hlen]; rfl⟩

theorem CodePaths.maxCodeLen_lt (hc : CodePaths f ps) : maxCodeLen (ps.map assigned) < 256 :=
  Nat.lt_succ_of_le ((maxCodeLen_paths_le_iff ps 255).mpr fun p hp => Nat.le_of_lt_succ (hc.short p hp))

end

/-! ### TREEBUILD -/

/-- The part of TREEBUILD that is done whatever the codes (R332). -/
def treeReport (s : State) : State :=
  { s with
    nsym := BitVec.ofNat 9 (presentSymbols s.freq).length
    maxlen := BitVec.ofNat 8 (maxCodeLen (buildCodes s.freq)) }

theorem exec_treebuild_of_none {s : State} (h : presentSymbols s.freq = []) :
    exec .treebuild s = .next { s with nsym := 0, maxlen := 0, status := s.status.failed 0x06 } := by
  rw [exec_eq_finish, ruleOf, runTreebuild, buildCodes_of_none h, h]
  rfl

theorem exec_treebuild_of_long {s : State} (h : presentSymbols s.freq ≠ []) (hlong : 32 < maxCodeLen (buildCodes s.freq)) :
    exec .treebuild s = .next ((treeReport s).complete (some .codeLen)) := by
  rw [exec_eq_finish, ruleOf, runTreebuild]
  simp only [if_neg (mt List.length_eq_zero_iff.mp h), if_pos hlong]
  rfl

theorem exec_treebuild_of_short {s : State} (h : presentSymbols s.freq ≠ []) (hshort : maxCodeLen (buildCodes s.freq) ≤ 32) :
    exec .treebuild s = .next (State.complete { treeReport s with code := codeTable (buildCodes s.freq) } none) := by
  rw [exec_eq_finish, ruleOf, runTreebuild]
  simp only [if_neg (mt List.length_eq_zero_iff.mp h), if_neg (Nat.not_lt_of_le hshort)]
  rfl

theorem treeReport_nsym (s : State) :
    (treeReport s).nsym.toNat = (List.finRange 256).countP (fun b => s.freq.get b != 0) := by
  have := presentSymbols_length_le s.freq
  rw [treeReport, BitVec.toNat_ofNat, Nat.mod_eq_of_lt (by omega), presentSymbols, List.countP_eq_length_filter]

/-- MAXLEN holds the greatest length in its 8 bits (log entry 13). -/
theorem treeReport_maxlen (s : State) : (treeReport s).maxlen.toNat = maxCodeLen (buildCodes s.freq) := by
  rw [treeReport, BitVec.toNat_ofNat]
  refine Nat.mod_eq_of_lt ?_
  by_cases h : presentSymbols s.freq = []
  · rw [buildCodes_of_none h]
    decide
  · obtain ⟨ps, hps, hc⟩ := exists_codePaths h
    rw [hps]
    exact hc.maxCodeLen_lt

theorem presentSymbols_ne_nil {f : Tab Word 256} (h : ∃ b, f.get b ≠ 0) : presentSymbols f ≠ [] := by
  obtain ⟨b, hb⟩ := h
  exact List.ne_nil_of_mem (mem_presentSymbols.mpr hb)

/-- The only merge of two nodes (R332). -/
theorem mergeAll_pair (fuel next : Nat) (x y : QNode) :
    mergeAll (fuel + 2) next [x, y] = if y.before x then [y.join next x] else [x.join next y] := by
  cases h : y.before x
  · simp only [mergeAll, takeMin, h]
    rfl
  · simp only [mergeAll, takeMin, h]
    rfl

/-- Two symbols: the one of the smaller key (count, rank) is extracted first and gets the bit 1 (R333). -/
theorem buildCodes_of_two {f : Tab Word 256} {a b : Fin 256} (h : presentSymbols f = [a, b]) :
    buildCodes f = if (f.get a).toNat ≤ (f.get b).toNat then [(a, [true]), (b, [false])].map assigned
      else [(b, [true]), (a, [false])].map assigned := by
  have hleaves : leaves f = [⟨(f.get a).toNat, 0, .leaf a⟩, ⟨(f.get b).toNat, 1, .leaf b⟩] := by rw [leaves, h]; rfl
  have hbefore : (⟨(f.get b).toNat, 1, .leaf b⟩ : QNode).before ⟨(f.get a).toNat, 0, .leaf a⟩ =
      decide ((f.get b).toNat < (f.get a).toNat) := by
    simp [QNode.before]
  rw [buildCodes, hleaves]
  simp only [List.length_cons, List.length_nil, mergeAll_pair, hbefore]
  obtain hle | hlt := le_or_gt (f.get a).toNat (f.get b).toNat
  · rw [if_pos hle, decide_eq_false hle.not_gt]
    rfl
  · rw [if_neg hlt.not_ge, decide_eq_true hlt]
    rfl

/-- The table of two codes of one bit. -/
theorem codeTable_pair {a b : Fin 256} (hab : a ≠ b) :
    (codeTable ([(a, [true]), (b, [false])].map assigned)).get a = ⟨1, 1⟩ ∧
    (codeTable ([(a, [true]), (b, [false])].map assigned)).get b = ⟨0, 1⟩ ∧
    ∀ c, c ≠ a → c ≠ b → (codeTable ([(a, [true]), (b, [false])].map assigned)).get c = ⟨0, 0⟩ := by
  have hnodup : ([(a, [true]), (b, [false])].map Prod.fst).Nodup := by simpa using hab
  exact ⟨codeTable_present hnodup (w := [true]) (by simp), codeTable_present hnodup (w := [false]) (by simp),
    fun c ha hb => codeTable_absent (by simp [ha, hb])⟩

theorem presentSymbols_of_one {f : Tab Word 256} {b : Fin 256} (hb : f.get b ≠ 0) (hrest : ∀ c, c ≠ b → f.get c = 0) :
    presentSymbols f = [b] :=
  presentSymbols_eq (List.pairwise_singleton _ _) fun c => by
    rw [List.mem_singleton]
    exact ⟨fun e => e ▸ hb, fun hc => by_contra fun hne => hc (hrest c hne)⟩

theorem presentSymbols_of_two {f : Tab Word 256} {a b : Fin 256} (hab : a < b) (ha : f.get a ≠ 0) (hb : f.get b ≠ 0)
    (hrest : ∀ c, c ≠ a → c ≠ b → f.get c = 0) : presentSymbols f = [a, b] :=
  presentSymbols_eq (List.pairwise_pair.mpr hab) fun c => by
    rw [List.mem_pair]
    refine ⟨fun hc => hc.elim (· ▸ ha) (· ▸ hb), fun hc => by_contra fun hne => ?_⟩
    rw [not_or] at hne
    exact hc (hrest c hne.1 hne.2)

/-- TREEBUILD of one symbol (R334). -/
theorem exec_treebuild_of_one {s : State} {b : Fin 256} (hb : s.freq.get b ≠ 0) (hrest : ∀ c, c ≠ b → s.freq.get c = 0) :
    ∃ t, exec .treebuild s = .next t ∧
      t = { s with code := t.code, nsym := 1, maxlen := 1, status := s.status.succeeded } ∧
      t.code.get b = ⟨0, 1⟩ ∧ ∀ c, c ≠ b → t.code.get c = ⟨0, 0⟩ := by
  have hsym := presentSymbols_of_one hb hrest
  have hcodes := buildCodes_of_one hsym
  have hmax : maxCodeLen (buildCodes s.freq) = 1 := by rw [hcodes]; rfl
  refine ⟨_, exec_treebuild_of_short (by simp [hsym]) (by omega), ?_, ?_, fun c hc => ?_⟩
  · rw [treeReport, hmax, hsym]
    rfl
  · rw [complete_code, hcodes, codeTable_present (w := [false]) (by simp) (by simp)]
    rfl
  · rw [complete_code, hcodes, codeTable_absent (by simpa using hc)]

/-- TREEBUILD of two symbols (R333). -/
theorem exec_treebuild_of_two {s : State} {a b : Fin 256} (hab : a < b) (ha : s.freq.get a ≠ 0) (hb : s.freq.get b ≠ 0)
    (hrest : ∀ c, c ≠ a → c ≠ b → s.freq.get c = 0) :
    ∃ t, exec .treebuild s = .next t ∧
      t = { s with code := t.code, nsym := 2, maxlen := 1, status := s.status.succeeded } ∧
      ((s.freq.get a).toNat ≤ (s.freq.get b).toNat → t.code.get a = ⟨1, 1⟩ ∧ t.code.get b = ⟨0, 1⟩) ∧
      ((s.freq.get b).toNat < (s.freq.get a).toNat → t.code.get a = ⟨0, 1⟩ ∧ t.code.get b = ⟨1, 1⟩) ∧
      ∀ c, c ≠ a → c ≠ b → t.code.get c = ⟨0, 0⟩ := by
  have hsym := presentSymbols_of_two hab ha hb hrest
  have hcodes := buildCodes_of_two hsym
  have hmax : maxCodeLen (buildCodes s.freq) = 1 := by rw [hcodes]; split <;> rfl
  obtain ⟨haT, hbF, hrest⟩ := codeTable_pair hab.ne
  obtain ⟨hbT, haF, hrest'⟩ := codeTable_pair hab.ne'
  refine ⟨_, exec_treebuild_of_short (by simp [hsym]) (by omega), ?_, fun hle => ?_, fun hlt => ?_, fun c hca hcb => ?_⟩
  · rw [treeReport, hmax, hsym]
    rfl
  · rw [complete_code, hcodes, if_pos hle]
    exact ⟨haT, hbF⟩
  · rw [complete_code, hcodes, if_neg hlt.not_ge]
    exact ⟨haF, hbT⟩
  · rw [complete_code, hcodes]
    split
    · exact hrest c hca hcb
    · exact hrest' c hcb hca

/-- Settles O48: the codes of no, one and two symbols, and the failure on a code too long. -/
theorem treebuildSmallAndFailingTrees : Obligations.TreebuildSmallAndFailingTrees := by
  unfold Obligations.TreebuildSmallAndFailingTrees
  refine ⟨decode_encode .treebuild, fun s => ⟨fun h => ?_, fun _ => exec_treebuild_of_one, fun _ _ => exec_treebuild_of_two,
    fun h hlong => ?_⟩⟩
  · exact exec_treebuild_of_none (presentSymbols_eq List.Pairwise.nil fun b => by simp [h b])
  · exact ⟨_, exec_treebuild_of_long (presentSymbols_ne_nil h) hlong, rfl, treeReport_nsym s, treeReport_maxlen s⟩

/-- The table of at least one symbol, where no code is too long (R332, R336). -/
theorem buildCodes_table {f : Tab Word 256} (h : presentSymbols f ≠ []) (h32 : maxCodeLen (buildCodes f) ≤ 32)
    {c : Tab CodeEntry 256} (hc : c = codeTable (buildCodes f)) :
    (∀ b, (c.get b).len = 0 ↔ f.get b = 0) ∧ (∀ b, (c.get b).len = 0 → (c.get b).bits = 0) ∧
    (∀ b, (c.get b).len.toNat ≤ maxCodeLen (buildCodes f) ∧ (c.get b).bits.toNat < 2 ^ (c.get b).len.toNat) ∧
    (∃ b, (c.get b).len.toNat = maxCodeLen (buildCodes f)) ∧ ValidTable c ∧ PrefixFree c := by
  obtain ⟨ps, hps, hpaths⟩ := exists_codePaths h
  rw [hps] at h32 hc ⊢
  subst hc
  have hpresent := hpaths.len_eq_zero_iff h32
  have hbounds := hpaths.entry_bounds h32
  have hfree := hpaths.prefixFree_table h32
  refine ⟨hpresent, fun b hb => ?_, hbounds, hpaths.exists_len_eq (hpaths.ne_nil h) h32, ?_, hfree⟩
  · rw [hpaths.absent ((hpresent b).mp hb)]
  · exact hfree.validTable fun b => (hbounds b).1.trans h32

/-- From two symbols on: MAXLEN is the depth of the merged tree, and the codes are its paths (R332, R333). -/
theorem buildCodes_tree {f : Tab Word 256} (h2 : 2 ≤ (presentSymbols f).length) :
    ∃ T, Merges (presentSymbols f).length (leaves f) T ∧
      (∀ b w, LeafPath T b w → w.length ≤ maxCodeLen (buildCodes f)) ∧
      (∃ b w, LeafPath T b w ∧ w.length = maxCodeLen (buildCodes f)) ∧
      (maxCodeLen (buildCodes f) ≤ 32 → ∀ b w, LeafPath T b w → ((codeTable (buildCodes f)).get b).stream = w) := by
  obtain ⟨T, hm, hT⟩ := buildCodes_of_two_le h2
  have hpaths := codePaths_of_merges h2 hm
  have hne : T.paths ≠ [] := hpaths.ne_nil (List.length_pos_iff.mp (by omega))
  rw [hT, ← leaves_length]
  refine ⟨T, hm, fun b w hw => ?_, ?_, fun h32 b w hw => ?_⟩
  · exact (maxCodeLen_paths_le_iff _ _).mp le_rfl _ (leafPath_iff_mem_paths.mp hw)
  · obtain ⟨c, hmem, hlen⟩ := exists_len_eq_maxCodeLen (cs := T.paths.map assigned) (mt List.map_eq_nil_iff.mp hne)
    obtain ⟨p, hp, rfl⟩ := List.mem_map.mp hmem
    exact ⟨p.1, p.2, leafPath_iff_mem_paths.mpr hp, hlen⟩
  · have hp := leafPath_iff_mem_paths.mp hw
    rw [codeTable_present hpaths.nodup hp, entryOf_stream (word_length_le h32 hp)]

/-- Settles O49: the codes of the present symbols are root-to-leaf paths, so none begins another in the table that holds them. -/
theorem treebuildMakesPrefixFreeTable : Obligations.TreebuildMakesPrefixFreeTable := by
  unfold Obligations.TreebuildMakesPrefixFreeTable
  intro s h
  have hne := presentSymbols_ne_nil h
  obtain h32 | hlong := le_or_gt (maxCodeLen (buildCodes s.freq)) 32
  · refine ⟨_, exec_treebuild_of_short hne h32, treeReport_nsym s, ?_⟩
    simp only [complete_maxlen, complete_code, treeReport_maxlen]
    refine ⟨fun _ => ⟨rfl, buildCodes_table hne h32 rfl⟩, fun hlong => absurd h32 hlong.not_ge, ?_⟩
    rintro _ rfl h2
    exact buildCodes_tree h2
  · refine ⟨_, exec_treebuild_of_long hne hlong, treeReport_nsym s, ?_⟩
    simp only [complete_maxlen, treeReport_maxlen]
    refine ⟨fun h32 => absurd h32 hlong.not_ge, fun _ => rfl, ?_⟩
    rintro _ rfl h2
    obtain ⟨T, hm, hle, hreach, -⟩ := buildCodes_tree h2
    exact ⟨T, hm, hle, hreach, fun h32 => absurd h32 hlong.not_ge⟩

end Sys2Proof.Machine
end

section
/-! SUPPORT. What an append adds to the stream: its bits, behind those stored and carried (44_bitbuffer.md R403, R404; 20_memory.md
R105). -/

namespace Sys2Proof.Machine

/-! ### Stored bits -/

theorem readBytes_succ (s : State) (a n : Nat) : s.readBytes a (n + 1) = s.readByte a :: s.readBytes (a + 1) n := by
  rw [State.readBytes, State.readBytes, List.range_succ_eq_map, List.map_cons, List.map_map]
  congr 1
  exact List.map_congr_left fun i _ => congrArg s.readByte (by simp only [Nat.succ_eq_add_one]; omega)

theorem readBytes_congr {s t : State} {a n : Nat} (h : ∀ b, a ≤ b → b < a + n → t.readByte b = s.readByte b) :
    t.readBytes a n = s.readBytes a n :=
  List.map_congr_left fun i hi => h _ (Nat.le_add_right a i) (Nat.add_lt_add_left (List.mem_range.mp hi) a)

theorem streamBit_add (s : State) (a m k : Nat) : streamBit s a (8 * m + k) = streamBit s (a + m) k := by
  rw [streamBit, streamBit, Nat.mul_add_mod, Nat.mul_add_div (by decide), Nat.add_assoc]

theorem storedBits_add (s : State) (a m n : Nat) :
    storedBits s a (8 * m + n) = storedBits s a (8 * m) ++ storedBits s (a + m) n := by
  rw [storedBits, List.range_add, List.map_append, List.map_map]
  exact congrArg _ (List.map_congr_left fun k _ => streamBit_add s a m k)

theorem storedBits_congr {s t : State} {a n : Nat} (h : ∀ b, a ≤ b → b < a + (n + 7) / 8 → t.readByte b = s.readByte b) :
    storedBits t a n = storedBits s a n :=
  List.map_congr_left fun k hk => by
    have := List.mem_range.mp hk
    rw [streamBit, streamBit, h _ (Nat.le_add_right _ _) (by omega)]

@[simp] theorem storedBits_length (s : State) (a n : Nat) : (storedBits s a n).length = n := by simp [storedBits]

/-! ### Appended bits -/

/-- `t` comes from `s` by appending these bits (R403): the counters move on, the stored bits and the carried ones are the old carried
bits and the new ones behind them, and no byte changes but the completed ones. -/
structure Appends (s t : State) (bits : List Bool) : Prop where
  limit : t.bb.limit = s.bb.limit
  outptr : t.bb.outptr.toNat = s.bb.outptr.toNat + (s.bb.nbits.val + bits.length) / 8
  outcnt : t.bb.outcnt.toNat = s.bb.outcnt.toNat + (s.bb.nbits.val + bits.length) / 8
  nbits : t.bb.nbits.val = (s.bb.nbits.val + bits.length) % 8
  tot : t.bb.tot = s.bb.tot + BitVec.ofNat 64 bits.length
  acc_lt : t.bb.acc.toNat < 2 ^ t.bb.nbits.val
  stored : storedBits t s.bb.outptr.toNat (8 * ((s.bb.nbits.val + bits.length) / 8)) ++ t.bb.carried = s.bb.carried ++ bits
  kept : ∀ a, a < s.bb.outptr.toNat ∨ s.bb.outptr.toNat + (s.bb.nbits.val + bits.length) / 8 ≤ a → t.readByte a = s.readByte a

theorem Appends.refl {s : State} (h : s.bb.acc.toNat < 2 ^ s.bb.nbits.val) : Appends s s [] where
  limit := rfl
  outptr := by simp only [List.length_nil]; omega
  outcnt := by simp only [List.length_nil]; omega
  nbits := by simp only [List.length_nil]; omega
  tot := by simp
  acc_lt := h
  stored := by
    have : (s.bb.nbits.val + ([] : List Bool).length) / 8 = 0 := by simp only [List.length_nil]; omega
    rw [this, List.append_nil]
    rfl
  kept _ _ := rfl

/-- Appends follow one another: the bytes of the second lie behind those of the first. -/
theorem Appends.trans {s t u : State} {x y : List Bool} (h : Appends s t x) (h' : Appends t u y) : Appends s u (x ++ y) := by
  have hlen : (x ++ y).length = x.length + y.length := List.length_append
  have hptr := h.outptr
  have hptr' := h'.outptr
  have hcnt := h.outcnt
  have hcnt' := h'.outcnt
  have hnbits := h.nbits
  have hnbits' := h'.nbits
  have hbytes : (s.bb.nbits.val + (x ++ y).length) / 8 =
      (s.bb.nbits.val + x.length) / 8 + (t.bb.nbits.val + y.length) / 8 := by omega
  refine ⟨h'.limit.trans h.limit, by omega, by omega, by omega, ?_, h'.acc_lt, ?_, fun a ha => ?_⟩
  · rw [h'.tot, h.tot, hlen, BitVec.add_assoc, BitVec.ofNat_add]
  · have hold : storedBits u s.bb.outptr.toNat (8 * ((s.bb.nbits.val + x.length) / 8)) =
        storedBits t s.bb.outptr.toNat (8 * ((s.bb.nbits.val + x.length) / 8)) :=
      storedBits_congr fun b _ hb => h'.kept b (by omega)
    rw [hbytes, Nat.mul_add, storedBits_add, hold, ← hptr, List.append_assoc, h'.stored, ← List.append_assoc, h.stored,
      List.append_assoc]
  · rw [h'.kept a (by omega), h.kept a (by omega)]

/-- The state with another context, ENC_POS and STATUS: an append reads and writes none of them. -/
def State.around (s : State) (c : Context) (p : Word) (st : Status) : State := { s with op := c, encPos := p, status := st }

theorem Appends.around {s t : State} {bits : List Bool} (h : Appends s t bits) (c c' : Context) (p p' : Word) (st st' : Status) :
    Appends (s.around c p st) (t.around c' p' st') bits :=
  ⟨h.limit, h.outptr, h.outcnt, h.nbits, h.tot, h.acc_lt, h.stored, h.kept⟩

/-! ### One bit -/

/-- The carried bits with one more (R403). -/
def shiftIn (acc : Byte) (b : Bool) : Byte := (acc <<< 1) ||| (BitVec.ofBool b).zeroExtend 8

theorem shiftIn_bits (acc : Byte) (b : Bool) {n : Nat} (hn : n < 8) :
    (List.range (n + 1)).map (fun j => (shiftIn acc b).getLsbD (n - j)) =
      (List.range n).map (fun j => acc.getLsbD (n - 1 - j)) ++ [b] := by
  rw [List.range_succ, List.map_append, List.map_singleton]
  congr 1
  · refine List.map_congr_left fun j hj => ?_
    have hj := List.mem_range.mp hj
    have hsub : n - j - 1 = n - 1 - j := by omega
    have hlow : (BitVec.ofBool b).getLsbD (n - j) = false := BitVec.getLsbD_of_ge _ _ (by omega)
    rw [shiftIn, BitVec.getLsbD_or, BitVec.getLsbD_shiftLeft, BitVec.getLsbD_setWidth, hlow, hsub]
    simp only [show n - j < 8 by omega, show ¬ n - j < 1 by omega, decide_true, decide_false, Bool.not_false, Bool.true_and,
      Bool.and_false, Bool.or_false]
  · simp [shiftIn]

theorem pushBit_of_carried {s : State} {b : Bool} (h : s.bb.nbits.val + 1 < 8) :
    pushBit s b = { s with bb := { s.bb with
      acc := shiftIn s.bb.acc b, nbits := ⟨s.bb.nbits.val + 1, h⟩, tot := s.bb.tot + 1 } } := by
  simp only [pushBit, dif_pos h]
  rfl

theorem pushBit_of_completed {s : State} {b : Bool} (h : s.bb.nbits.val = 7) :
    pushBit s b = { s.writeByte s.bb.outptr.toNat (shiftIn s.bb.acc b) with bb := { s.bb with
      acc := 0, nbits := 0, tot := s.bb.tot + 1, outptr := s.bb.outptr + 1, outcnt := s.bb.outcnt + 1 } } := by
  simp only [pushBit, dif_neg (show ¬ s.bb.nbits.val + 1 < 8 by omega)]
  rfl

theorem pushBit_stored (s : State) (b : Bool) :
    storedBits (pushBit s b) s.bb.outptr.toNat (8 * ((s.bb.nbits.val + 1) / 8)) ++ (pushBit s b).bb.carried =
      s.bb.carried ++ [b] := by
  have hbits := shiftIn_bits s.bb.acc b s.bb.nbits.isLt
  obtain h | h : s.bb.nbits.val + 1 < 8 ∨ s.bb.nbits.val = 7 := by omega
  · have hnone : (s.bb.nbits.val + 1) / 8 = 0 := by omega
    rw [hnone, pushBit_of_carried h]
    exact hbits
  · have hread (k : Nat) (hk : k ∈ List.range 8) :
        streamBit (pushBit s b) s.bb.outptr.toNat k = (shiftIn s.bb.acc b).getLsbD (s.bb.nbits.val - k) := by
      have hk := List.mem_range.mp hk
      have hbyte : (pushBit s b).readByte (s.bb.outptr.toNat + k / 8) = shiftIn s.bb.acc b := by
        rw [Nat.div_eq_of_lt hk, pushBit_of_completed h]
        exact readByte_writeByte_same s _ _
      rw [streamBit, hbyte, Nat.mod_eq_of_lt hk, h]
    have hstored : storedBits (pushBit s b) s.bb.outptr.toNat 8 = s.bb.carried ++ [b] := by
      rw [storedBits, List.map_congr_left hread]
      rw [h] at hbits ⊢
      rw [hbits, BitBuffer.carried, h]
    have hcarried : (pushBit s b).bb.carried = [] := by rw [pushBit_of_completed h]; rfl
    rw [h, hcarried, List.append_nil]
    exact hstored

theorem ofNat_toNat_self {n : Nat} (x : BitVec n) : BitVec.ofNat n x.toNat = x := by
  rw [BitVec.ofNat_toNat, BitVec.setWidth_eq]

/-- The byte counters move by `k` bytes without a wrap. -/
theorem toNat_add_bytes {x : Word} {k : Nat} (h : x.toNat + k < 2 ^ 32) : (x + BitVec.ofNat 32 k).toNat = x.toNat + k := by
  rw [BitVec.toNat_add, BitVec.toNat_ofNat]
  omega

theorem pushBit_appends {s : State} (hacc : s.bb.acc.toNat < 2 ^ s.bb.nbits.val)
    (hptr : s.bb.outptr.toNat + (s.bb.nbits.val + 1) / 8 < 2 ^ 32) (hcnt : s.bb.outcnt.toNat + (s.bb.nbits.val + 1) / 8 < 2 ^ 32)
    (b : Bool) : Appends s (pushBit s b) [b] where
  limit := pushBit_limit s b
  outptr := by rw [pushBit_outptr, toNat_add_bytes hptr]; rfl
  outcnt := by rw [pushBit_outcnt, toNat_add_bytes hcnt]; rfl
  nbits := pushBit_nbits s b
  tot := pushBit_tot s b
  acc_lt := pushBit_acc_lt s b hacc
  stored := pushBit_stored s b
  kept a ha := readByte_pushBit (by simp only [List.length_singleton] at ha; omega) b

/-! ### A run of bits -/

theorem pushBits_appends {s : State} {l : Nat} (hacc : s.bb.acc.toNat < 2 ^ s.bb.nbits.val)
    (hptr : s.bb.outptr.toNat + (s.bb.nbits.val + l) / 8 < 2 ^ 32) (hcnt : s.bb.outcnt.toNat + (s.bb.nbits.val + l) / 8 < 2 ^ 32)
    (bits : Word) : Appends s (pushBits s bits l) (lowBits bits l) := by
  induction l generalizing s with
  | zero => exact .refl hacc
  | succ l ih =>
    have h := pushBit_appends hacc (by omega) (by omega) (bits.getLsbD l)
    obtain ⟨-, hptr', hcnt', hnbits', -, hacc', -, -⟩ := id h
    simp only [List.length_singleton] at hptr' hcnt' hnbits'
    rw [lowBits_succ]
    exact h.trans (ih hacc' (by omega) (by omega))

/-- The stream has room for `l` more bits: within the capacity and within DMEM (R403). -/
@[reducible] def HasRoom (s : State) (l : Nat) : Prop :=
  s.bb.outcnt.toNat + (s.bb.nbits.val + l) / 8 ≤ s.bb.limit.toNat ∧
    s.bb.outptr.toNat + (s.bb.nbits.val + l) / 8 ≤ s.params.dmemSize

theorem pushBits_appends_of_hasRoom {s : State} (hp : s.params.wellFormed = true) (hacc : s.bb.acc.toNat < 2 ^ s.bb.nbits.val)
    {l : Nat} (h : HasRoom s l) (bits : Word) : Appends s (pushBits s bits l) (lowBits bits l) :=
  pushBits_appends hacc (h.2.trans_lt (dmemSize_lt hp)) (h.1.trans_lt s.bb.limit.isLt) bits

end Sys2Proof.Machine
end

section
/-! SUPPORT. ENCODE's turn for one byte, and its loop as one append after the other (43_huffman.md R335). -/

namespace Sys2Proof.Machine

/-! ### One byte -/

theorem encodeEntry_of_noCode {s : State} {c : CodeEntry} (h : c.len.toNat = 0) : encodeEntry s c = s.raised .noCode := if_pos h

theorem encodeEntry_of_long {s : State} {c : CodeEntry} (h : 32 < c.len.toNat) : encodeEntry s c = s.raised .badTable := by
  rw [encodeEntry, if_neg (by omega), if_pos h]

theorem encodeEntry_of_code {s : State} {c : CodeEntry} (h1 : 1 ≤ c.len.toNat) (h32 : c.len.toNat ≤ 32) :
    encodeEntry s c = append s c.bits c.len.toNat := by
  rw [encodeEntry, if_neg (by omega), if_neg (by omega)]

theorem append_of_overrun {s : State} {l : Nat} (bits : Word)
    (h : s.bb.limit.toNat < s.bb.outcnt.toNat + (s.bb.nbits.val + l) / 8) : append s bits l = s.raised .overrun := if_pos h

theorem append_of_outside {s : State} {l : Nat} (bits : Word)
    (hc : s.bb.outcnt.toNat + (s.bb.nbits.val + l) / 8 ≤ s.bb.limit.toNat)
    (h : s.params.dmemSize < s.bb.outptr.toNat + (s.bb.nbits.val + l) / 8) : append s bits l = s.raised .addr := by
  obtain ⟨h', -⟩ | ⟨-, -, e⟩ | ⟨-, h', -⟩ := append_cases s bits l
  · exact absurd h' hc.not_gt
  · exact e
  · exact absurd h' h.not_ge

theorem append_of_hasRoom {s : State} {l : Nat} (bits : Word) (h : HasRoom s l) : append s bits l = (pushBits s bits l).ok := by
  obtain ⟨h', -⟩ | ⟨-, h', -⟩ | ⟨-, -, e⟩ := append_cases s bits l
  · exact absurd h' h.1.not_gt
  · exact absurd h' h.2.not_gt
  · exact e

/-- A byte whose code is appended has one, of at most 32 bits, and there is room for it (R335). -/
theorem encodeEntry_ok_iff {s : State} {c : CodeEntry} :
    (encodeEntry s c).error = none ↔ (1 ≤ c.len.toNat ∧ c.len.toNat ≤ 32) ∧ HasRoom s c.len.toNat := by
  obtain h0 | h1 := Nat.eq_zero_or_pos c.len.toNat
  · rw [encodeEntry_of_noCode h0, h0]
    simp
  obtain h32 | hlong := le_or_gt c.len.toNat 32
  · rw [encodeEntry_of_code h1 h32]
    obtain ⟨h, e⟩ | ⟨-, h, e⟩ | ⟨hc, hr, e⟩ := append_cases s c.bits c.len.toNat
    · rw [e]
      exact iff_of_false (by simp) fun hroom => hroom.2.1.not_gt h
    · rw [e]
      exact iff_of_false (by simp) fun hroom => hroom.2.2.not_gt h
    · rw [e]
      exact iff_of_true rfl ⟨⟨h1, h32⟩, hc, hr⟩
  · rw [encodeEntry_of_long hlong]
    exact iff_of_false (by simp) fun h => h.1.2.not_gt hlong

/-- The code table's entry of a byte. -/
def entryAt (s : State) (b : Byte) : CodeEntry := s.code.get (byteIx b)

theorem encodeEntry_appends {s : State} (hp : s.params.wellFormed = true) (hacc : s.bb.acc.toNat < 2 ^ s.bb.nbits.val)
    {c : CodeEntry} (h : (encodeEntry s c).error = none) : Appends s (encodeEntry s c).state c.stream := by
  obtain ⟨⟨h1, h32⟩, hroom⟩ := encodeEntry_ok_iff.mp h
  rw [encodeEntry_of_code h1 h32, append_of_hasRoom _ hroom]
  exact pushBits_appends_of_hasRoom hp hacc hroom c.bits

theorem encodeByte_ok_iff {s : State} {i : Nat} : (encodeByte s i).error = none ↔
    (1 ≤ (entryAt s (s.readByte (s.opSrc + i))).len.toNat ∧ (entryAt s (s.readByte (s.opSrc + i))).len.toNat ≤ 32) ∧
      HasRoom s (entryAt s (s.readByte (s.opSrc + i))).len.toNat :=
  encodeEntry_ok_iff (s := { s with encPos := BitVec.ofNat 32 i })

theorem encodeByte_appends {s : State} (hp : s.params.wellFormed = true) (hacc : s.bb.acc.toNat < 2 ^ s.bb.nbits.val) {i : Nat}
    (h : (encodeByte s i).error = none) :
    Appends s (encodeByte s i).state (entryAt s (s.readByte (s.opSrc + i))).stream :=
  have happ := encodeEntry_appends (s := { s with encPos := BitVec.ofNat 32 i }) hp hacc h
  happ.around s.op _ s.encPos (encodeByte s i).state.encPos s.status (encodeByte s i).state.status

theorem encodeByte_onlyEncode (s : State) (i : Nat) : OnlyEncode s (encodeByte s i).state :=
  have hpos : OnlyEncode s { s with encPos := BitVec.ofNat 32 i } := Eq.refl _
  hpos.trans (encodeEntry_onlyStream _ _).onlyEncode

theorem encodeLoop_succ_of_ok {s : State} {i : Nat} (h : (encodeByte s i).error = none) (n : Nat) :
    encodeLoop s (n + 1) i = encodeLoop (encodeByte s i).state n (i + 1) := by
  rw [encodeLoop_succ, Ran.andThen, h]

theorem encodeLoop_succ_of_error {s : State} {i : Nat} (h : (encodeByte s i).error ≠ none) (n : Nat) :
    encodeLoop s (n + 1) i = encodeByte s i := by
  rw [encodeLoop_succ, Ran.andThen]
  split
  · rfl
  · next e => exact absurd e h

/-! ### The whole region -/

theorem codesOf_readBytes_succ (c : Tab CodeEntry 256) (s : State) (a n : Nat) :
    codesOf c (s.readBytes a (n + 1)) = (c.get (byteIx (s.readByte a))).stream ++ codesOf c (s.readBytes (a + 1) n) := by
  rw [readBytes_succ, codesOf, List.flatMap_cons, codesOf]

theorem OnlyEncode.code {s t : State} (h : OnlyEncode s t) : t.code = s.code := by rw [h]

theorem OnlyEncode.op {s t : State} (h : OnlyEncode s t) : t.op = s.op := by rw [h]

theorem OnlyEncode.opSrc {s t : State} (h : OnlyEncode s t) : t.opSrc = s.opSrc := by rw [State.opSrc, h.op]; rfl

theorem OnlyEncode.params {s t : State} (h : OnlyEncode s t) : t.params = s.params := by rw [h]

theorem OnlyEncode.status {s t : State} (h : OnlyEncode s t) : t.status = s.status := by rw [h]

/-- ENCODE's loop appends the codes of its bytes, if there is room for them and they do not run into the bytes still to be read
(R335). -/
theorem encodeLoop_appends {s : State} (hp : s.params.wellFormed = true) (hacc : s.bb.acc.toNat < 2 ^ s.bb.nbits.val) {n i : Nat}
    {codes : List Bool} (hcodes : codes = codesOf s.code (s.readBytes (s.opSrc + i) n))
    (hlen : ∀ b ∈ s.readBytes (s.opSrc + i) n, 1 ≤ (entryAt s b).len.toNat ∧ (entryAt s b).len.toNat ≤ 32)
    (hroom : HasRoom s codes.length)
    (hclear : ∀ a, s.opSrc + i ≤ a → a < s.opSrc + i + n →
      a < s.bb.outptr.toNat ∨ s.bb.outptr.toNat + (s.bb.nbits.val + codes.length) / 8 ≤ a) :
    (encodeLoop s n i).error = none ∧ Appends s (encodeLoop s n i).state codes := by
  induction n generalizing s i codes with
  | zero => exact ⟨rfl, hcodes ▸ (Appends.refl hacc).around s.op s.op s.encPos _ s.status s.status⟩
  | succ n ih =>
    rw [readBytes_succ, List.forall_mem_cons] at hlen
    rw [codesOf_readBytes_succ] at hcodes
    obtain ⟨hcap, hdmem⟩ := hroom
    have hsum : codes.length = (entryAt s (s.readByte (s.opSrc + i))).len.toNat +
        (codesOf s.code (s.readBytes (s.opSrc + i + 1) n)).length := by
      rw [hcodes, List.length_append, stream_length, entryAt]
    have hok : (encodeByte s i).error = none := encodeByte_ok_iff.mpr ⟨hlen.1, by omega, by omega⟩
    have happ := encodeByte_appends hp hacc hok
    have hframe := encodeByte_onlyEncode s i
    rw [encodeLoop_succ_of_ok hok]
    generalize (encodeByte s i).state = t at happ hframe
    obtain ⟨hlimit, hptr, hcnt, hnbits, -, hacc', -, hkept⟩ := id happ
    rw [stream_length] at hptr hcnt hnbits hkept
    have hread : t.readBytes (t.opSrc + (i + 1)) n = s.readBytes (s.opSrc + i + 1) n := by
      rw [hframe.opSrc, ← Nat.add_assoc]
      refine readBytes_congr fun a ha hlt => hkept a ?_
      have := hclear a (by omega) (by omega)
      omega
    have hrest := ih (s := t) (i := i + 1) (codes := codesOf s.code (s.readBytes (s.opSrc + i + 1) n)) (hframe.params ▸ hp) hacc'
      (by rw [hframe.code, hread])
      (by rw [hread]; unfold entryAt; rw [hframe.code]; exact hlen.2)
      ⟨by rw [hlimit]; omega, by rw [hframe.params]; omega⟩
      (fun a ha hlt => by
        rw [hframe.opSrc] at ha hlt
        have := hclear a (by omega) (by omega)
        omega)
    exact ⟨hrest.1, hcodes ▸ happ.trans hrest.2⟩

theorem encodeByte_ok_of_succ {s : State} {n i : Nat} (hok : (encodeLoop s (n + 1) i).error = none) :
    (encodeByte s i).error = none := by
  by_contra herr
  exact herr (encodeLoop_succ_of_error herr n ▸ hok)

/-- A run of ENCODE's loop that met no error appended the codes of its bytes, if its stores lie clear of the bytes; where it appended
any, or began in DMEM, it ends in DMEM (R335). -/
theorem encodeLoop_appends_of_ok {s : State} (hp : s.params.wellFormed = true) (hacc : s.bb.acc.toNat < 2 ^ s.bb.nbits.val)
    {n i : Nat} (hok : (encodeLoop s n i).error = none) (hstart : n = 0 → s.bb.outptr.toNat ≤ s.params.dmemSize)
    (hclear : ∀ a, s.opSrc + i ≤ a → a < s.opSrc + i + n →
      a < s.bb.outptr.toNat ∨ s.bb.outptr.toNat + (encodeLoop s n i).state.bb.outcnt.toNat ≤ a + s.bb.outcnt.toNat) :
    Appends s (encodeLoop s n i).state (codesOf s.code (s.readBytes (s.opSrc + i) n)) ∧
      (encodeLoop s n i).state.bb.outptr.toNat ≤ s.params.dmemSize := by
  induction n generalizing s i with
  | zero => exact ⟨(Appends.refl hacc).around s.op s.op s.encPos _ s.status s.status, hstart rfl⟩
  | succ n ih =>
    have hbyte := encodeByte_ok_of_succ hok
    obtain ⟨-, -, hroom⟩ := encodeByte_ok_iff.mp hbyte
    have happ := encodeByte_appends hp hacc hbyte
    have hframe := encodeByte_onlyEncode s i
    rw [encodeLoop_succ_of_ok hbyte] at hok hclear ⊢
    rw [codesOf_readBytes_succ]
    generalize (encodeByte s i).state = t at happ hframe hok hclear
    obtain ⟨-, hptr, hcnt, -, -, hacc', -, hkept⟩ := id happ
    rw [stream_length] at hptr hcnt hkept
    obtain ⟨hrest, hend⟩ := ih (s := t) (i := i + 1) (hframe.params ▸ hp) hacc' hok
      (fun _ => by rw [hframe.params]; omega)
      (fun a ha hlt => by
        rw [hframe.opSrc] at ha hlt
        have := hclear a (by omega) (by omega)
        omega)
    have hread : t.readBytes (t.opSrc + (i + 1)) n = s.readBytes (s.opSrc + i + 1) n := by
      have hcnt' := hrest.outcnt
      rw [hframe.opSrc, ← Nat.add_assoc]
      refine readBytes_congr fun a ha hlt => hkept a ?_
      have := hclear a (by omega) (by omega)
      omega
    rw [hread, hframe.code] at hrest
    exact ⟨happ.trans hrest, hframe.params ▸ hend⟩

theorem encodeLoop_encPos {s : State} {n i : Nat} (hok : (encodeLoop s n i).error = none) :
    (encodeLoop s n i).state.encPos = BitVec.ofNat 32 (i + n) := by
  induction n generalizing s i with
  | zero => rfl
  | succ n ih =>
    have hbyte := encodeByte_ok_of_succ hok
    rw [encodeLoop_succ_of_ok hbyte] at hok ⊢
    rw [ih hok, Nat.add_right_comm, Nat.add_assoc]

/-! ### ENCODE -/

theorem exec_encode_of_outside {s : State} (h : s.params.dmemSize < s.opSrc + s.opLen) : FailsCleanly .encode s 0x03 := by
  have hr : s.inRange s.opSrc s.opLen = false := by
    rw [← Bool.not_eq_true, state_inRange_iff]
    omega
  rw [FailsCleanly, exec_eq_finish, ruleOf, runEncode, hr]
  rfl

theorem exec_encode_of_inRange {s : State} (h : s.opSrc + s.opLen ≤ s.params.dmemSize) :
    exec .encode s = (encodeLoop s s.opLen 0).finish := by
  rw [exec_eq_finish, ruleOf, runEncode, (state_inRange_iff ..).mpr h]
  rfl

/-- A run of ENCODE's loop that met no error, as ENCODE completes it. -/
theorem encodeLoop_completes {s : State} (hok : (encodeLoop s s.opLen 0).error = none) :
    (encodeLoop s s.opLen 0).state.complete none =
      { s with
        mem := (encodeLoop s s.opLen 0).state.mem
        bb := (encodeLoop s s.opLen 0).state.bb
        encPos := s.op.args.len
        status := s.status.succeeded } := by
  have hframe := encodeLoop_onlyEncode s s.opLen 0
  have hpos : (encodeLoop s s.opLen 0).state.encPos = s.op.args.len := by
    rw [encodeLoop_encPos hok, Nat.zero_add]
    exact ofNat_toNat_self _
  generalize (encodeLoop s s.opLen 0).state = t at hframe hpos
  rw [hframe, ← hpos]
  rfl

/-- Settles O54: the loop's appends, one after the other. -/
theorem encodeAppendsCodes : Obligations.EncodeAppendsCodes := by
  unfold Obligations.EncodeAppendsCodes
  refine ⟨decode_encode .encode, fun s codes hp hacc hr hlen hcodes hcap hdmem hdis => ?_⟩
  obtain ⟨hok, happ⟩ := encodeLoop_appends (i := 0) (n := s.opLen) hp hacc hcodes hlen ⟨hcap, hdmem⟩ fun a ha hlt => by
    unfold Disjoint at hdis
    omega
  refine ⟨(encodeLoop s s.opLen 0).state.complete none, ?_, encodeLoop_completes hok, ?_⟩
  · rw [exec_encode_of_inRange hr, finish_eq, hok]
  · exact ⟨happ.limit, happ.outptr, happ.outcnt, happ.nbits, happ.tot, happ.stored, happ.kept⟩

end Sys2Proof.Machine
end

section
/-! SUPPORT. ENCODE as BBPUT of the first byte's code, then ENCODE of the rest (43_huffman.md R335, 20_memory.md R122). -/

namespace Sys2Proof.Machine

/-- The same run, ending in a state with another context, ENC_POS and STATUS. -/
def Ran.around (x : Ran) (c : Context) (p : Word) (st : Status) : Ran := ⟨x.state.around c p st, x.error⟩

section
variable (s : State) (c : Context) (p : Word) (st : Status)

theorem pushBit_around (b : Bool) : pushBit (s.around c p st) b = (pushBit s b).around c p st := by
  obtain h | h : s.bb.nbits.val + 1 < 8 ∨ s.bb.nbits.val = 7 := by omega
  · rw [pushBit_of_carried h, pushBit_of_carried (s := s.around c p st) h]
    rfl
  · rw [pushBit_of_completed h, pushBit_of_completed (s := s.around c p st) h]
    rfl

theorem pushBits_around (bits : Word) (l : Nat) : pushBits (s.around c p st) bits l = (pushBits s bits l).around c p st := by
  induction l generalizing s with
  | zero => rfl
  | succ l ih => rw [pushBits, pushBit_around, ih, pushBits]

theorem append_around (bits : Word) (l : Nat) : append (s.around c p st) bits l = (append s bits l).around c p st := by
  obtain ⟨h, e⟩ | ⟨hc, h, e⟩ | ⟨hc, h, e⟩ := append_cases s bits l
  · rw [e, append_of_overrun (s := s.around c p st) bits h]
    rfl
  · rw [e, append_of_outside (s := s.around c p st) bits hc h]
    rfl
  · rw [e, append_of_hasRoom (s := s.around c p st) bits ⟨hc, h⟩, pushBits_around]
    rfl

theorem encodeEntry_around (e : CodeEntry) : encodeEntry (s.around c p st) e = (encodeEntry s e).around c p st := by
  obtain h0 | h1 := Nat.eq_zero_or_pos e.len.toNat
  · rw [encodeEntry_of_noCode h0, encodeEntry_of_noCode h0]
    rfl
  obtain h32 | hlong := le_or_gt e.len.toNat 32
  · rw [encodeEntry_of_code h1 h32, encodeEntry_of_code h1 h32, append_around]
  · rw [encodeEntry_of_long hlong, encodeEntry_of_long hlong]
    rfl

theorem encodeByte_around (i : Nat) :
    encodeByte (s.around c p st) i =
      (encodeEntry s (entryAt s (s.readByte (c.args.src.toNat + i)))).around c (BitVec.ofNat 32 i) st :=
  encodeEntry_around s c (BitVec.ofNat 32 i) st _

end

/-- Back from ENCODE of the rest of a region to ENCODE of the region: its context and STATUS, and ENC_POS one more. -/
def Ran.back (x : Ran) (c : Context) (st : Status) : Ran := x.around c (x.state.encPos + 1) st

theorem encPos_succ (i : Nat) : BitVec.ofNat 32 (i + 1) = BitVec.ofNat 32 i + 1 := BitVec.ofNat_add ..

/-- The bytes from index i + 1 on are those from index i on of the region that starts one byte later (R335). -/
theorem encodeLoop_shift (s : State) {c c' : Context} (h : c'.args.src.toNat = c.args.src.toNat + 1) (p p' : Word)
    (st st' : Status) (n i : Nat) :
    encodeLoop (s.around c p st) n (i + 1) = (encodeLoop (s.around c' p' st') n i).back c st := by
  induction n generalizing s p p' i with
  | zero => exact congrArg (fun v => (s.around c v st).ok) (encPos_succ i)
  | succ n ih =>
    have haddr : c.args.src.toNat + (i + 1) = c'.args.src.toNat + i := by omega
    rw [encodeLoop_succ, encodeLoop_succ, encodeByte_around, encodeByte_around, haddr]
    obtain ⟨t, _ | e⟩ := encodeEntry s (entryAt s (s.readByte (c'.args.src.toNat + i)))
    · exact ih t _ _ _
    · exact congrArg (fun v => (t.around c v st).raised e) (encPos_succ i)

theorem complete_succeeded (st : Status) (e : Option ErrorCode) : st.succeeded.complete e = st.complete e := by
  cases e <;> rfl

/-- The engine's step for the entry of the first byte, where it ends the loop (R335). -/
theorem exec_encode_of_error {s : State} (hr : s.opSrc + s.opLen ≤ s.params.dmemSize) (h1 : 1 ≤ s.opLen) {e : ErrorCode}
    (h : encodeEntry { s with encPos := 0 } (entryAt s (s.readByte s.opSrc)) = State.raised { s with encPos := 0 } e) :
    exec .encode s = .next { s with encPos := 0, status := s.status.failed e.code } := by
  have hbyte : encodeByte s 0 = State.raised { s with encPos := 0 } e := h
  obtain ⟨n, hn⟩ : ∃ n, s.opLen = n + 1 := ⟨s.opLen - 1, by omega⟩
  rw [exec_encode_of_inRange hr, hn, encodeLoop_succ_of_error (by rw [hbyte]; simp), hbyte]
  rfl

theorem exec_encode_of_empty {s : State} (hr : s.opSrc ≤ s.params.dmemSize) (h0 : s.opLen = 0) :
    exec .encode s = .next { s with encPos := 0, status := s.status.succeeded } := by
  rw [exec_encode_of_inRange (by omega), h0]
  rfl

theorem exec_bbput_of_hasRoom {s : State} (h32 : s.opPutlen ≤ 32) (hroom : HasRoom s s.opPutlen) :
    exec .bbput s = .next ((pushBits s s.op.args.putbits s.opPutlen).complete none) := by
  rw [exec_eq_finish, ruleOf, runBbput, if_neg (by omega), append_of_hasRoom _ hroom]
  rfl

/-- ENCODE with the context `c` at any STATUS and ENC_POS. -/
theorem exec_encode_around {s : State} {c : Context} (p : Word) (st : Status)
    (hr : c.args.src.toNat + c.args.len.toNat ≤ s.params.dmemSize) :
    exec .encode (s.around c p st) = (encodeLoop (s.around c p st) c.args.len.toNat 0).finish :=
  exec_encode_of_inRange (s := s.around c p st) hr

/-- The context of BBPUT of the entry `e` (44_bitbuffer.md R401). -/
def putContext (s : State) (e : CodeEntry) : Context := ⟨s.op.word, { s.op.args with putbits := e.bits, putlen := e.len }⟩

/-- The context of ENCODE of the region without its first byte. -/
def restContext (s : State) : Context := ⟨s.op.word, { s.op.args with src := s.op.args.src + 1, len := s.op.args.len - 1 }⟩

theorem exec_bbput_code {s : State} {e : CodeEntry} (he32 : e.len.toNat ≤ 32) (hroom : HasRoom s e.len.toNat) :
    exec .bbput (s.around (putContext s e) s.encPos s.status) =
      .next ((pushBits s e.bits e.len.toNat).around (putContext s e) s.encPos s.status.succeeded) := by
  rw [exec_bbput_of_hasRoom (s := s.around (putContext s e) s.encPos s.status) he32 hroom, pushBits_around]
  rfl

/-- ENCODE of a region whose first byte has the code `e`: its append, then the loop over the rest (R335). -/
theorem exec_encode_of_code {s : State} (hr : s.opSrc + s.opLen ≤ s.params.dmemSize) {n : Nat} (hn : s.opLen = n + 1)
    {e : CodeEntry} (he : e = entryAt s (s.readByte s.opSrc)) (he1 : 1 ≤ e.len.toNat) (he32 : e.len.toNat ≤ 32)
    (hroom : HasRoom s e.len.toNat) :
    exec .encode s = (encodeLoop ((pushBits s e.bits e.len.toNat).around s.op 0 s.status) n 1).finish := by
  have hbyte : encodeByte s 0 = ((pushBits s e.bits e.len.toNat).around s.op 0 s.status).ok := by
    have hfirst := encodeByte_around s s.op s.encPos s.status 0
    rw [Nat.add_zero] at hfirst
    refine hfirst.trans ?_
    rw [← State.opSrc, ← he, encodeEntry_of_code he1 he32, append_of_hasRoom _ hroom]
    rfl
  rw [exec_encode_of_inRange hr, hn, encodeLoop_succ_of_ok (by rw [hbyte]; rfl), hbyte]
  rfl

/-- Completing the loop over the rest from the state that BBPUT completed, or from the one it reached, ends alike. -/
theorem back_completes (s t : State) (c c' : Context) (p : Word) (n : Nat) :
    ((encodeLoop (t.around c' p s.status.succeeded) n 0).back c s.status).state.complete
        (encodeLoop (t.around c' p s.status.succeeded) n 0).error =
      { (encodeLoop (t.around c' p s.status.succeeded) n 0).state.complete
          (encodeLoop (t.around c' p s.status.succeeded) n 0).error with
        op := c, encPos := (encodeLoop (t.around c' p s.status.succeeded) n 0).state.encPos + 1 } := by
  have hstatus := (encodeLoop_onlyEncode (t.around c' p s.status.succeeded) n 0).status
  generalize encodeLoop (t.around c' p s.status.succeeded) n 0 = r at hstatus
  have hdone : r.state.status.complete r.error = s.status.complete r.error := by
    rw [hstatus]
    exact complete_succeeded _ _
  simp only [State.complete, hdone]
  rfl

/-- One byte, and the rest (R335): BBPUT of its code, and ENCODE from the next byte on. -/
theorem exec_encode_of_byte {s : State} (hp : s.params.wellFormed = true) (hr : s.opSrc + s.opLen ≤ s.params.dmemSize)
    (h1 : 1 ≤ s.opLen) {e : CodeEntry} (he : e = entryAt s (s.readByte s.opSrc)) (he1 : 1 ≤ e.len.toNat)
    (he32 : e.len.toNat ≤ 32) (hroom : HasRoom s e.len.toNat) :
    ∃ t u v, exec .bbput { s with op := putContext s e } = .next t ∧ exec .encode { t with op := restContext s } = .next u ∧
      exec .encode s = .next v ∧ v = { u with op := s.op, encPos := u.encPos + 1 } := by
  have hsize := dmemSize_lt hp
  obtain ⟨n, hn⟩ : ∃ n, s.opLen = n + 1 := ⟨s.opLen - 1, by omega⟩
  have hsrc : (restContext s).args.src.toNat = s.op.args.src.toNat + 1 :=
    toNat_add_bytes (k := 1) (by unfold State.opSrc at hr; omega)
  have hlen : (restContext s).args.len.toNat = n := by
    rw [State.opLen] at hn
    change (s.op.args.len - 1).toNat = n
    bv_omega
  obtain ⟨t, ht⟩ : ∃ t, t = pushBits s e.bits e.len.toNat := ⟨_, rfl⟩
  have hparams : t.params = s.params := by rw [ht, pushBits_onlyStream s e.bits e.len.toNat]
  have hrest := exec_encode_around (s := t) (c := restContext s) s.encPos s.status.succeeded (by
    rw [hsrc, hlen, hparams]
    unfold State.opSrc at hr
    omega)
  have hall := exec_encode_of_code hr hn he he1 he32 hroom
  rw [← ht, encodeLoop_shift t hsrc 0 s.encPos s.status s.status.succeeded] at hall
  rw [hlen] at hrest
  refine ⟨t.around (putContext s e) s.encPos s.status.succeeded, _, _, ht ▸ exec_bbput_code he32 hroom, hrest, hall, ?_⟩
  exact back_completes s t s.op (restContext s) s.encPos n

/-- Settles O55: the checks in their order, and one turn of the loop. -/
theorem encodeRunsByteByByte : Obligations.EncodeRunsByteByByte := by
  unfold Obligations.EncodeRunsByteByByte
  refine fun s => ⟨exec_encode_of_outside, exec_encode_of_empty, fun hr h1 e he => ⟨fun h => ?_, fun h => ?_, ?_, ?_, ?_⟩⟩
  · exact exec_encode_of_error hr h1 (encodeEntry_of_noCode (by rw [entryAt, ← he, h]; rfl))
  · exact exec_encode_of_error hr h1 (encodeEntry_of_long (by rwa [entryAt, ← he]))
  · intro he1 he32 hover
    exact exec_encode_of_error hr h1 (by
      rw [entryAt, ← he, encodeEntry_of_code he1 he32]
      exact append_of_overrun e.bits hover)
  · intro he1 he32 hcap hout
    exact exec_encode_of_error hr h1 (by
      rw [entryAt, ← he, encodeEntry_of_code he1 he32]
      exact append_of_outside e.bits hcap hout)
  · intro hp he1 he32 hcap hdmem
    exact exec_encode_of_byte hp hr h1 he he1 he32 ⟨hcap, hdmem⟩

end Sys2Proof.Machine
end

section
/-! SUPPORT. The code table as DECODE looks it up: validity, and the match of a probe (43_huffman.md R336). -/

namespace Sys2Proof.Machine

/-- A match is a present symbol whose code the probe's bits are (R336). -/
theorem matchCode_stream {c : Tab CodeEntry 256} {w : List Bool} {j : Fin 256} (h : matchCode c (probe w) w.length = some j) :
    (c.get j).len ≠ 0 ∧ (c.get j).stream = w := by
  obtain ⟨hlen, hkey⟩ := matchCode_some h
  exact ⟨hlen, (key_eq_iff_stream_eq _ _).mp hkey⟩

/-- No code is the probe's bits: no match (R336). -/
theorem matchCode_eq_none {c : Tab CodeEntry 256} {w : List Bool} (h : ∀ j, (c.get j).len ≠ 0 → (c.get j).stream ≠ w) :
    matchCode c (probe w) w.length = none := by
  rw [Option.eq_none_iff_forall_ne_some]
  intro j hj
  obtain ⟨hlen, hw⟩ := matchCode_stream hj
  exact h j hlen hw

/-- At the end of the code of a symbol that the greedy match gives, it is found (R336). -/
theorem FirstMatch.matchCode {c : Tab CodeEntry 256} {b : Fin 256} (h : FirstMatch c b) :
    matchCode c (probe (c.get b).stream) (c.get b).stream.length = some b := by
  obtain ⟨hlen, hfirst⟩ := h
  cases hm : Machine.matchCode c (probe (c.get b).stream) (c.get b).stream.length with
  | none =>
    obtain h0 | hkey := matchCode_none hm b
    · exact absurd h0 hlen
    · exact absurd (key_eq _) hkey
  | some j =>
    obtain ⟨hj, hw⟩ := matchCode_stream hm
    rw [hfirst j hj (hw ▸ List.prefix_rfl)]

/-- Before the end of its code nothing matches (R336). -/
theorem FirstMatch.matchCode_before {c : Tab CodeEntry 256} {b : Fin 256} (h : FirstMatch c b) {w : List Bool}
    (hpre : w <+: (c.get b).stream) (hne : w ≠ (c.get b).stream) : Machine.matchCode c (probe w) w.length = none := by
  refine matchCode_eq_none fun j hj hw => hne ?_
  obtain rfl := h.2 j hj (hw ▸ hpre)
  exact hw.symm

theorem NoMatch.matchCode {c : Tab CodeEntry 256} {bits w : List Bool} (h : NoMatch c bits) (hpre : w <+: bits) :
    Machine.matchCode c (probe w) w.length = none :=
  matchCode_eq_none fun j hj hw => h j hj (hw ▸ hpre)

/-- Where no code begins another, the greedy match gives every present symbol (R336). -/
theorem PrefixFree.firstMatch {c : Tab CodeEntry 256} (h : PrefixFree c) {b : Fin 256} (hb : (c.get b).len ≠ 0) : FirstMatch c b :=
  ⟨hb, fun j hj hpre => by_contra fun hne => h j b hne hj hb hpre⟩

theorem stream_ne_nil {e : CodeEntry} (h : e.len ≠ 0) : e.stream ≠ [] := mt (len_eq_zero_iff e).mpr h

end Sys2Proof.Machine
end

section
/-! SUPPORT. DECODE's loop over the bits ahead: one symbol, no match, and a list of symbols (43_huffman.md R337). -/

namespace Sys2Proof.Machine

/-- The `rem` stream bits of the payload from bit `k` on. -/
def bitsAhead (s : State) (k rem : Nat) : List Bool := (List.range' k rem).map (streamBit s s.opSrc)

theorem bitsAhead_succ (s : State) (k rem : Nat) : bitsAhead s k (rem + 1) = streamBit s s.opSrc k :: bitsAhead s (k + 1) rem := rfl

theorem bitsAhead_zero (s : State) (n : Nat) : bitsAhead s 0 n = storedBits s s.opSrc n := by
  rw [bitsAhead, storedBits, List.range_eq_range']

/-- What is ahead after `m` of the bits. -/
theorem bitsAhead_drop (s : State) (k m rem : Nat) : (bitsAhead s k (m + rem)).drop m = bitsAhead s (k + m) rem := by
  rw [bitsAhead, bitsAhead, ← List.map_drop, List.drop_range']
  simp

/-- The bits ahead are those of the payload's bytes. -/
theorem bitsAhead_congr {s t : State} (hsrc : t.opSrc = s.opSrc) {k rem : Nat}
    (h : ∀ a, s.opSrc ≤ a → a < s.opSrc + (k + rem + 7) / 8 → t.readByte a = s.readByte a) :
    bitsAhead t k rem = bitsAhead s k rem := by
  refine List.map_congr_left fun j hj => ?_
  rw [List.mem_range'_1] at hj
  rw [streamBit, streamBit, hsrc, h _ (Nat.le_add_right _ _) (by omega)]

/-- The state once `k` stream bits are consumed (R337). -/
def State.atBit (s : State) (k : Nat) : State := { s with decBitpos := BitVec.ofNat 64 k }

theorem consumeBit_eq (s : State) (k : Nat) : consumeBit s k = s.atBit (k + 1) := rfl

theorem nextProbe_eq {s : State} {k : Nat} {b : Bool} (h : streamBit s s.opSrc k = b) (w : List Bool) :
    nextProbe s k (probe w) = probe (w ++ [b]) := by
  rw [nextProbe, h, probe_append]

/-- One bit that ends no code (R337). -/
theorem decodeLoop_of_no_match {s : State} {k : Nat} {b : Bool} (hb : streamBit s s.opSrc k = b) {w : List Bool}
    (hm : matchCode s.code (probe (w ++ [b])) (w ++ [b]).length = none) (rem n : Nat) :
    decodeLoop s (rem + 1) k (probe w) w.length n =
      if w.length + 1 = 32 then (s.atBit (k + 1)).raised .corrupt
      else decodeLoop (s.atBit (k + 1)) rem (k + 1) (probe (w ++ [b])) (w ++ [b]).length n := by
  have hlen : (w ++ [b]).length = w.length + 1 := List.length_append
  rw [hlen] at hm ⊢
  rw [decodeLoop_succ_none (by rwa [nextProbe_eq hb]), nextProbe_eq hb, consumeBit_eq]

/-- The code of a symbol: its last bit is the match (R337). -/
theorem decodeLoop_symbol {s : State} {b : Fin 256} (hb : FirstMatch s.code b) (h32 : (s.code.get b).len.toNat ≤ 32)
    {v w : List Bool} (hv : v ≠ []) (hcode : (s.code.get b).stream = w ++ v) {k rem : Nat} {rest : List Bool}
    (hbits : bitsAhead s k (v.length + rem) = v ++ rest) (n : Nat) :
    decodeLoop s (v.length + rem) k (probe w) w.length n =
      if s.opDstlen ≤ n then (s.atBit (k + v.length)).raised .overrun
      else if !s.inRange (s.opDst + n) 1 then (s.atBit (k + v.length)).raised .addr
      else decodeLoop (emitSymbol (s.atBit (k + v.length)) n b) rem (k + v.length) 0 0 (n + 1) := by
  induction v generalizing s w k with
  | nil => exact absurd rfl hv
  | cons x v ih =>
    have hrem : (x :: v).length + rem = v.length + rem + 1 := by rw [List.length_cons]; omega
    have hlen : (w ++ [x]).length = w.length + 1 := List.length_append
    rw [hrem, bitsAhead_succ, List.cons_append, List.cons.injEq] at hbits
    obtain ⟨hx, hbits⟩ := hbits
    rw [hrem]
    obtain rfl | hv' := eq_or_ne v []
    · have hm := hb.matchCode
      rw [hcode, hlen] at hm
      rw [decodeLoop_succ_some (by rwa [nextProbe_eq hx]), List.length_nil, Nat.zero_add, consumeBit_eq]
      rfl
    · have hsplit : (s.code.get b).stream = (w ++ [x]) ++ v := by rw [hcode, List.append_assoc]; rfl
      have hshort : w.length + 1 + v.length ≤ 32 := by
        have := congrArg List.length hsplit
        rw [stream_length, List.length_append, hlen] at this
        omega
      have hpos := List.length_pos_iff.mpr hv'
      have hm := hb.matchCode_before (w := w ++ [x]) (hsplit ▸ List.prefix_append _ _) fun e => hv' (by
        rw [hsplit] at e
        exact List.self_eq_append_right.mp e)
      rw [decodeLoop_of_no_match hx hm, if_neg (by omega),
        ih (s := s.atBit (k + 1)) (w := w ++ [x]) hb h32 hv' hsplit hbits]
      have hk : k + 1 + v.length = k + (x :: v).length := by rw [List.length_cons]; omega
      rw [hk]
      rfl

/-- Bits that match nothing: the 32nd ends the loop, or the last, if there is one (R337). -/
theorem decodeLoop_noMatch {s : State} {v w : List Bool} (hno : NoMatch s.code (w ++ v)) {k : Nat}
    (hbits : bitsAhead s k v.length = v) (hw : w.length < 32) (hne : w ++ v ≠ []) (n : Nat) :
    decodeLoop s v.length k (probe w) w.length n =
      if v = [] then s.raised .corrupt
      else (s.atBit (k + min v.length (32 - w.length))).raised .corrupt := by
  induction v generalizing s w k with
  | nil =>
    have hw0 : w.length ≠ 0 := by rwa [List.append_nil, ← List.length_pos_iff, Nat.pos_iff_ne_zero] at hne
    rw [List.length_nil, decodeLoop, if_neg hw0, if_pos rfl]
  | cons x v ih =>
    have hlen : (w ++ [x]).length = w.length + 1 := List.length_append
    have hassoc : w ++ x :: v = (w ++ [x]) ++ v := by rw [List.append_assoc]; rfl
    rw [List.length_cons, bitsAhead_succ, List.cons.injEq] at hbits
    obtain ⟨hx, hbits⟩ := hbits
    rw [hassoc] at hno
    have hm := hno.matchCode (List.prefix_append _ _)
    rw [List.length_cons, decodeLoop_of_no_match hx hm, if_neg (List.cons_ne_nil x v)]
    split
    · next h32 =>
      rw [show min (v.length + 1) (32 - w.length) = 1 by omega]
    · next h32 =>
      rw [ih (s := s.atBit (k + 1)) (w := w ++ [x]) hno hbits (by omega) (by simp)]
      split
      · next hv => rw [hv, List.length_nil, show min (0 + 1) (32 - w.length) = 1 by omega]
      · next hv =>
        rw [hlen, show k + 1 + min v.length (32 - (w.length + 1)) = k + min (v.length + 1) (32 - w.length) by omega]
        rfl

end Sys2Proof.Machine
end

section
/-! SUPPORT. DECODE: the symbols of a run, how it ends, and its progress registers (43_huffman.md R337; 10_state.md R60, R61). -/

namespace Sys2Proof.Machine

/-! ### The output -/

/-- The bytes written from address `a` up. -/
def storeBytes (s : State) (a : Nat) : List Byte → State
  | [] => s
  | b :: bs => storeBytes (s.writeByte a b) (a + 1) bs

theorem storeBytes_mem_only (s : State) (a : Nat) (bs : List Byte) :
    storeBytes s a bs = { s with mem := (storeBytes s a bs).mem } := by
  induction bs generalizing s a with
  | nil => rfl
  | cons b bs ih => rw [storeBytes, ih]; rfl

theorem storeBytes_append (s : State) (a : Nat) (bs : List Byte) (b : Byte) :
    storeBytes s a (bs ++ [b]) = (storeBytes s a bs).writeByte (a + bs.length) b := by
  induction bs generalizing s a with
  | nil => rfl
  | cons c bs ih => rw [List.cons_append, storeBytes, ih, storeBytes, List.length_cons, Nat.add_right_comm, Nat.add_assoc]

theorem readByte_storeBytes_outside (s : State) {a x : Nat} {bs : List Byte} (h : x < a ∨ a + bs.length ≤ x) :
    (storeBytes s a bs).readByte x = s.readByte x := by
  induction bs generalizing s a with
  | nil => rfl
  | cons b bs ih =>
    rw [List.length_cons] at h
    rw [storeBytes, ih _ (by omega), readByte_writeByte_of_ne _ (by omega)]

theorem readBytes_storeBytes (s : State) (a : Nat) (bs : List Byte) : (storeBytes s a bs).readBytes a bs.length = bs := by
  induction bs generalizing s a with
  | nil => rfl
  | cons b bs ih =>
    rw [List.length_cons, readBytes_succ, storeBytes, ih, readByte_storeBytes_outside _ (.inl (Nat.lt_succ_self a)),
      readByte_writeByte_same]

/-- The state of a DECODE that wrote `syms` and consumed `pos` stream bits (R337). -/
def State.decoded (s : State) (syms : List Byte) (pos : Nat) : State :=
  { storeBytes s s.opDst syms with decOutlen := BitVec.ofNat 32 syms.length, decBitpos := BitVec.ofNat 64 pos }

theorem decoded_frame (s : State) (syms : List Byte) (pos : Nat) :
    s.decoded syms pos = { s with
      mem := (s.decoded syms pos).mem
      decOutlen := BitVec.ofNat 32 syms.length
      decBitpos := BitVec.ofNat 64 pos } := by
  rw [State.decoded, storeBytes_mem_only]

theorem decoded_op (s : State) (syms : List Byte) (pos : Nat) : (s.decoded syms pos).op = s.op := by rw [decoded_frame]

theorem decoded_code (s : State) (syms : List Byte) (pos : Nat) : (s.decoded syms pos).code = s.code := by rw [decoded_frame]

theorem decoded_params (s : State) (syms : List Byte) (pos : Nat) : (s.decoded syms pos).params = s.params := by
  rw [decoded_frame]

theorem decoded_opSrc (s : State) (syms : List Byte) (pos : Nat) : (s.decoded syms pos).opSrc = s.opSrc := by
  rw [State.opSrc, decoded_op]; rfl

theorem decoded_opDst (s : State) (syms : List Byte) (pos : Nat) : (s.decoded syms pos).opDst = s.opDst := by
  rw [State.opDst, decoded_op]; rfl

theorem decoded_opDstlen (s : State) (syms : List Byte) (pos : Nat) : (s.decoded syms pos).opDstlen = s.opDstlen := by
  rw [State.opDstlen, decoded_op]; rfl

theorem decoded_atBit (s : State) (syms : List Byte) (pos k : Nat) : (s.decoded syms pos).atBit k = s.decoded syms k := rfl

theorem decoded_readByte (s : State) {syms : List Byte} (pos : Nat) {a : Nat} (h : a < s.opDst ∨ s.opDst + syms.length ≤ a) :
    (s.decoded syms pos).readByte a = s.readByte a := readByte_storeBytes_outside s h

/-- One symbol more (R337). -/
theorem emitSymbol_decoded (s : State) (syms : List Byte) (b : Byte) (pos : Nat) :
    emitSymbol (s.decoded syms pos) syms.length (byteIx b) = s.decoded (syms ++ [b]) pos := by
  have hb : BitVec.ofNat 8 (byteIx b).val = b := ofNat_toNat_self b
  rw [emitSymbol, decoded_opDst, hb]
  simp only [State.decoded, storeBytes_append, List.length_append, List.length_singleton]
  rfl

theorem decoded_decodedTo (s : State) (syms : List Byte) (pos : Nat) (e : Option ErrorCode) :
    DecodedTo s ((s.decoded syms pos).complete e) syms pos (s.status.complete e) := by
  refine ⟨?_, readBytes_storeBytes s s.opDst syms, fun a ha => decoded_readByte s pos ha⟩
  have h := decoded_frame s syms pos
  generalize s.decoded syms pos = t at h
  rw [h]
  rfl

/-! ### A list of symbols -/

/-- Output clear of the payload leaves the bits ahead. -/
theorem bitsAhead_decoded {s : State} {N : Nat} {syms : List Byte} (hclear : Disjoint s.opSrc ((N + 7) / 8) s.opDst syms.length)
    {front back : List Bool} (hbits : storedBits s s.opSrc N = front ++ back) (pos : Nat) :
    bitsAhead (s.decoded syms pos) front.length back.length = back := by
  have hN : N = front.length + back.length := by rw [← storedBits_length s s.opSrc N, hbits, List.length_append]
  have hread : bitsAhead (s.decoded syms pos) front.length back.length = bitsAhead s front.length back.length :=
    bitsAhead_congr (decoded_opSrc s syms pos) fun a ha hlt => decoded_readByte s pos (by unfold Disjoint at hclear; omega)
  have hdrop := bitsAhead_drop s 0 front.length back.length
  rw [Nat.zero_add, bitsAhead_zero, ← hN, hbits, List.drop_left] at hdrop
  rw [hread, ← hdrop]

theorem codesOf_append (c : Tab CodeEntry 256) (syms : List Byte) (b : Byte) :
    codesOf c (syms ++ [b]) = codesOf c syms ++ (c.get (byteIx b)).stream := by
  rw [codesOf, List.flatMap_append, List.flatMap_singleton, codesOf]

/-- Symbols that the greedy match gives are written, if there is room for them clear of the payload (R337). -/
theorem decodeLoop_symbols {s : State} (hvalid : ∀ i, (s.code.get i).len.toNat ≤ 32) {N : Nat} {syms : List Byte}
    {rest : List Bool} (hfirst : ∀ b ∈ syms, FirstMatch s.code (byteIx b))
    (hbits : storedBits s s.opSrc N = codesOf s.code syms ++ rest) (hcap : syms.length ≤ s.opDstlen)
    (hdmem : ∀ n, n < syms.length → s.opDst + n < s.params.dmemSize)
    (hclear : Disjoint s.opSrc ((N + 7) / 8) s.opDst syms.length) :
    decodeLoop (s.decoded [] 0) N 0 0 0 0 =
      decodeLoop (s.decoded syms (codesOf s.code syms).length) rest.length (codesOf s.code syms).length 0 0 syms.length := by
  induction syms using List.reverseRecOn generalizing rest with
  | nil =>
    have hN : N = rest.length := by rw [← storedBits_length s s.opSrc N, hbits]; rfl
    rw [hN]
    rfl
  | append_singleton syms b ih =>
    have hlen : (syms ++ [b]).length = syms.length + 1 := List.length_append
    rw [hlen] at hcap hdmem hclear
    rw [codesOf_append, List.append_assoc] at hbits
    rw [List.forall_mem_append] at hfirst
    have hclear' : Disjoint s.opSrc ((N + 7) / 8) s.opDst syms.length := by unfold Disjoint at hclear ⊢; omega
    obtain ⟨hsyms, hb⟩ := hfirst
    have hb := hb b (List.mem_singleton_self b)
    have hahead := bitsAhead_decoded hclear' hbits (codesOf s.code syms).length
    have hdst := decoded_opDst s syms (codesOf s.code syms).length
    have hdstlen := decoded_opDstlen s syms (codesOf s.code syms).length
    have hstep := decodeLoop_symbol (s := s.decoded syms (codesOf s.code syms).length) (b := byteIx b) (w := [])
      (v := (s.code.get (byteIx b)).stream) (rem := rest.length) (rest := rest) (k := (codesOf s.code syms).length)
      (by rwa [decoded_code]) (by rw [decoded_code]; exact hvalid _) (stream_ne_nil hb.1) (by rw [decoded_code]; rfl)
      (by rwa [← List.length_append]) syms.length
    have hin : ((s.decoded syms (codesOf s.code syms).length).inRange (s.opDst + syms.length) 1) = true := by
      rw [state_inRange_iff, decoded_params]
      exact hdmem _ (Nat.lt_succ_self _)
    rw [hdst, hdstlen, if_neg (by omega), hin, decoded_atBit, emitSymbol_decoded] at hstep
    rw [ih hsyms hbits (by omega) (fun n hn => hdmem n (by omega)) hclear', codesOf_append, List.length_append, hlen,
      List.length_append]
    exact hstep

end Sys2Proof.Machine
end

section
/-! SUPPORT. How DECODE ends (43_huffman.md R337), and what every run keeps (10_state.md R60, R61). -/

namespace Sys2Proof.Machine

/-! ### The checks before the loop -/

theorem exec_decode_of_invalid {s : State} (h : ¬ ValidTable s.code) :
    exec .decode s = .next { s with decOutlen := 0, decBitpos := 0, status := s.status.failed 0x09 } := by
  have hv : tableValid s.code = false := by rwa [← Bool.not_eq_true, tableValid_iff]
  rw [exec_eq_finish, ruleOf, runDecode]
  simp only [hv]
  rfl

theorem exec_decode_of_long {s : State} (h : ValidTable s.code) (hlen : 8 * s.opLen < s.opBitcnt) :
    exec .decode s = .next { s with decOutlen := 0, decBitpos := 0, status := s.status.failed 0x0C } := by
  rw [exec_eq_finish, ruleOf, runDecode, (tableValid_iff _).mpr h]
  exact congrArg Ran.finish (if_pos hlen)

theorem exec_decode_of_outside {s : State} (h : ValidTable s.code) (hlen : s.opBitcnt ≤ 8 * s.opLen)
    (hr : s.params.dmemSize < s.opSrc + (s.opBitcnt + 7) / 8) :
    exec .decode s = .next { s with decOutlen := 0, decBitpos := 0, status := s.status.failed 0x03 } := by
  have hin : s.inRange s.opSrc ((s.opBitcnt + 7) / 8) = false := by
    rw [← Bool.not_eq_true, state_inRange_iff]
    omega
  rw [exec_eq_finish, ruleOf, runDecode, (tableValid_iff _).mpr h]
  refine congrArg Ran.finish ((if_neg hlen.not_gt).trans (if_pos ?_))
  exact congrArg (!·) hin

/-- Past the checks DECODE is its loop, from no symbol and bit 0 on (R337). -/
theorem exec_decode_of_checked {s : State} (h : ValidTable s.code) (hlen : s.opBitcnt ≤ 8 * s.opLen)
    (hr : s.opSrc + (s.opBitcnt + 7) / 8 ≤ s.params.dmemSize) :
    exec .decode s = (decodeLoop (s.decoded [] 0) s.opBitcnt 0 0 0 0).finish := by
  have hin : s.inRange s.opSrc ((s.opBitcnt + 7) / 8) = true := (state_inRange_iff ..).mpr hr
  rw [exec_eq_finish, ruleOf, runDecode, (tableValid_iff _).mpr h]
  refine congrArg Ran.finish ((if_neg hlen.not_gt).trans (if_neg ?_))
  exact (Bool.not_eq_true _).mpr (congrArg (!·) hin)

/-! ### The end of a run -/

/-- Where a loop that ends with `r` completes. -/
theorem decodedTo_of_raised {s : State} {syms : List Byte} {pos : Nat} {r : Ran} {e : ErrorCode}
    (h : r = (s.decoded syms pos).raised e) : DecodedTo s (r.state.complete r.error) syms pos (s.status.failed e.code) :=
  h ▸ decoded_decodedTo s syms pos (some e)

section
variable {s : State} {syms : List Byte} {pos : Nat} {rest : List Bool}

/-- A symbol for which the capacity or DMEM has no room (R337). -/
theorem decodeLoop_of_no_room (hvalid : ∀ i, (s.code.get i).len.toNat ≤ 32)
    (hahead : bitsAhead (s.decoded syms pos) pos rest.length = rest) {b : Fin 256} (hb : FirstMatch s.code b)
    (hpre : (s.code.get b).stream <+: rest) :
    (s.opDstlen ≤ syms.length → decodeLoop (s.decoded syms pos) rest.length pos 0 0 syms.length =
      (s.decoded syms (pos + (s.code.get b).len.toNat)).raised .overrun) ∧
    (syms.length < s.opDstlen → s.params.dmemSize ≤ s.opDst + syms.length →
      decodeLoop (s.decoded syms pos) rest.length pos 0 0 syms.length =
        (s.decoded syms (pos + (s.code.get b).len.toNat)).raised .addr) := by
  obtain ⟨back, rfl⟩ := hpre
  rw [List.length_append] at hahead ⊢
  have hstep := decodeLoop_symbol (s := s.decoded syms pos) (b := b) (w := []) (v := (s.code.get b).stream)
    (by rwa [decoded_code]) (by rw [decoded_code]; exact hvalid b) (stream_ne_nil hb.1) (by rw [decoded_code]; rfl) hahead
    syms.length
  rw [decoded_opDst, decoded_opDstlen, decoded_atBit, stream_length] at hstep
  rw [stream_length]
  refine ⟨fun hcap => hstep.trans (if_pos hcap), fun hcap hout => hstep.trans ((if_neg hcap.not_ge).trans (if_pos ?_))⟩
  rw [Bool.not_eq_true', ← Bool.not_eq_true, state_inRange_iff, decoded_params]
  omega

/-- Bits that match nothing (R337): the loop ends at the 32nd, or at the last. -/
theorem decodeLoop_of_corrupt (hahead : bitsAhead (s.decoded syms pos) pos rest.length = rest) (hno : NoMatch s.code rest)
    (hne : rest ≠ []) (n : Nat) : decodeLoop (s.decoded syms pos) rest.length pos 0 0 n =
      (s.decoded syms (pos + min rest.length 32)).raised .corrupt := by
  have hend := decodeLoop_noMatch (s := s.decoded syms pos) (w := []) (v := rest) (by rwa [decoded_code]) hahead (by simp) hne n
  rwa [if_neg hne, decoded_atBit] at hend

end

/-! ### Every run -/

/-- A part of a DECODE that began at `s` with `n` symbols written, and would stop at bit `stop`, ended with `r`: DEC_OUTLEN is a number
`m` of symbols within the capacity, DEC_BITPOS a number of bits, all of them without an error, and no byte changed but the new
symbols' (R337). -/
def DecodeProgress (s : State) (n stop : Nat) (r : Ran) : Prop :=
  ∃ m j, n ≤ m ∧ m ≤ s.opDstlen ∧ j ≤ stop ∧
    r.state.decOutlen = BitVec.ofNat 32 m ∧ r.state.decBitpos = BitVec.ofNat 64 j ∧
    (r.error = none → j = stop) ∧ ∀ a, a < s.opDst + n ∨ s.opDst + m ≤ a → r.state.readByte a = s.readByte a

/-- A run that stops with an error before any new symbol. -/
theorem decodeProgress_raised {s t : State} {n k stop : Nat} (hn : n ≤ s.opDstlen) (hk : k ≤ stop)
    (hout : t.decOutlen = BitVec.ofNat 32 n) (hpos : t.decBitpos = BitVec.ofNat 64 k) (hmem : t.mem = s.mem) (e : ErrorCode) :
    DecodeProgress s n stop (t.raised e) :=
  ⟨n, k, le_rfl, hn, hk, hout, hpos, fun h => absurd h (by simp), fun a _ => readByte_congr hmem a⟩

theorem emitSymbol_readByte_of_ne (s : State) {n a : Nat} (h : s.opDst + n ≠ a) (sym : Fin 256) :
    (emitSymbol s n sym).readByte a = s.readByte a := readByte_writeByte_of_ne s h _

/-- Every run of the loop keeps the progress registers right. -/
theorem decodeLoop_progress {s : State} {n k : Nat} (rem p l : Nat) (hn : n ≤ s.opDstlen) (hout : s.decOutlen = BitVec.ofNat 32 n)
    (hpos : s.decBitpos = BitVec.ofNat 64 k) : DecodeProgress s n (k + rem) (decodeLoop s rem k p l n) := by
  induction rem generalizing s n k p l with
  | zero =>
    rw [decodeLoop]
    split
    · exact ⟨n, k, le_rfl, hn, le_rfl, hout, hpos, fun _ => rfl, fun _ _ => rfl⟩
    · exact decodeProgress_raised hn le_rfl hout hpos rfl _
  | succ rem ih =>
    have hstop (e : ErrorCode) : DecodeProgress s n (k + (rem + 1)) ((consumeBit s k).raised e) :=
      decodeProgress_raised (t := consumeBit s k) (k := k + 1) hn (by omega) hout rfl rfl e
    have hk : k + 1 + rem = k + (rem + 1) := by omega
    cases hm : matchCode s.code (nextProbe s k p) (l + 1) with
    | none =>
      rw [decodeLoop_succ_none hm]
      split
      · exact hstop _
      · exact hk ▸ ih (s := consumeBit s k) (k := k + 1) (nextProbe s k p) (l + 1) hn hout rfl
    | some sym =>
      rw [decodeLoop_succ_some hm]
      split_ifs with hcap
      · exact hstop _
      · exact hstop _
      · obtain ⟨m, j, hnm, hmd, hj, hlen, hbit, hdone, hread⟩ :=
          ih (s := emitSymbol (consumeBit s k) n sym) (k := k + 1) (n := n + 1) 0 0 (Nat.lt_of_not_le hcap) rfl rfl
        refine ⟨m, j, by omega, hmd, hk ▸ hj, hlen, hbit, hk ▸ hdone, fun a ha => ?_⟩
        have hdst : (emitSymbol (consumeBit s k) n sym).opDst = s.opDst := rfl
        have hne : s.opDst + n ≠ a := by omega
        exact (hread a (by rw [hdst]; omega)).trans (emitSymbol_readByte_of_ne (consumeBit s k) hne sym)

theorem runDecode_progress (s : State) : DecodeProgress s 0 s.opBitcnt (runDecode s) := by
  have hstop (e : ErrorCode) : DecodeProgress s 0 s.opBitcnt (State.raised { s with decOutlen := 0, decBitpos := 0 } e) :=
    decodeProgress_raised (t := { s with decOutlen := 0, decBitpos := 0 }) (k := 0) (Nat.zero_le _) (Nat.zero_le _) rfl rfl rfl e
  simp only [runDecode]
  split_ifs
  · exact hstop _
  · exact hstop _
  · exact hstop _
  · have hloop := decodeLoop_progress (s := { s with decOutlen := 0, decBitpos := 0 }) (n := 0) (k := 0) s.opBitcnt 0 0
      (Nat.zero_le _) rfl rfl
    rwa [Nat.zero_add] at hloop

theorem failed_ne_succeeded {st : Status} (h : st.err = false) (c : Byte) : st.failed c ≠ st.succeeded := fun e => by
  have := congrArg Status.err e
  simp [Status.failed, Status.succeeded, h] at this

/-- The progress registers and the bytes after any DECODE (R60, R61). -/
theorem exec_decode_progress (s : State) :
    ∃ t, exec .decode s = .next t ∧
      t = { s with mem := t.mem, decOutlen := t.decOutlen, decBitpos := t.decBitpos, status := t.status } ∧
      t.decOutlen.toNat ≤ s.opDstlen ∧ t.decBitpos.toNat ≤ s.opBitcnt ∧
      (t.status = s.status.succeeded → s.status.err = false → t.decBitpos = s.op.args.bitcnt) ∧
      ∀ a, a < s.opDst ∨ s.opDst + t.decOutlen.toNat ≤ a → t.readByte a = s.readByte a := by
  obtain ⟨m, j, -, hm, hj, hlen, hbit, hdone, hread⟩ := runDecode_progress s
  have hframe := ruleOf_frame .decode s
  rw [ruleOf] at hframe
  refine ⟨_, exec_eq_finish .decode s, ?_⟩
  rw [ruleOf]
  generalize runDecode s = r at *
  have hmlt : m < 2 ^ 32 := hm.trans_lt s.op.args.dstlen.isLt
  have hjlt : j < 2 ^ 64 := hj.trans_lt s.op.args.bitcnt.isLt
  have hlenN : r.state.decOutlen.toNat = m := by rw [hlen, BitVec.toNat_ofNat, Nat.mod_eq_of_lt hmlt]
  have hbitN : r.state.decBitpos.toNat = j := by rw [hbit, BitVec.toNat_ofNat, Nat.mod_eq_of_lt hjlt]
  have hstatus : r.state.status = s.status := by rw [hframe]; rfl
  refine ⟨?_, ?_, ?_, fun hst herr => ?_, fun a ha => ?_⟩
  · rw [hframe]
    rfl
  · rwa [complete_decOutlen, hlenN]
  · rwa [complete_decBitpos, hbitN]
  · rw [complete_status, hstatus] at hst
    cases hr : r.error with
    | none => exact BitVec.eq_of_toNat_eq (hbitN.trans (hdone hr))
    | some e =>
      rw [hr] at hst
      exact absurd hst (failed_ne_succeeded herr e.code)
  · rw [complete_decOutlen, hlenN] at ha
    exact hread a (by omega)

/-- Where a DECODE stands after symbols that the greedy match gives (R337). -/
theorem exec_decode_of_symbols {s : State} (hv : ValidTable s.code) (hlen : s.opBitcnt ≤ 8 * s.opLen)
    (hr : s.opSrc + (s.opBitcnt + 7) / 8 ≤ s.params.dmemSize) {syms : List Byte} {rest : List Bool}
    (hfirst : ∀ b ∈ syms, FirstMatch s.code (byteIx b)) (hbits : storedBits s s.opSrc s.opBitcnt = codesOf s.code syms ++ rest)
    (hcap : syms.length ≤ s.opDstlen) (hdmem : ∀ n, n < syms.length → s.opDst + n < s.params.dmemSize)
    (hclear : Disjoint s.opSrc ((s.opBitcnt + 7) / 8) s.opDst syms.length) :
    exec .decode s = (decodeLoop (s.decoded syms (codesOf s.code syms).length) rest.length (codesOf s.code syms).length 0 0
      syms.length).finish := by
  rw [exec_decode_of_checked hv hlen hr, decodeLoop_symbols hv.1 hfirst hbits hcap hdmem hclear]

/-- Settles O57: the checks in their order, the symbols and then each end of the loop, and the progress of every run. -/
theorem decodeReportsProgress : Obligations.DecodeReportsProgress := by
  unfold Obligations.DecodeReportsProgress
  refine fun s => ⟨exec_decode_of_invalid, exec_decode_of_long, exec_decode_of_outside, ?_, exec_decode_progress s⟩
  intro hv hlen hr syms rest hfirst hbits hcap hdmem hclear
  have hahead := bitsAhead_decoded hclear hbits (codesOf s.code syms).length
  have hcount : s.opBitcnt = (codesOf s.code syms).length + rest.length := by
    rw [← storedBits_length s s.opSrc s.opBitcnt, hbits, List.length_append]
  refine ⟨_, exec_decode_of_symbols hv hlen hr hfirst hbits hcap hdmem hclear, ?_, ?_, ?_, ?_⟩
  · rintro rfl
    rw [hcount]
    exact decoded_decodedTo s syms _ none
  · intro b hb hpre
    obtain ⟨hover, hout⟩ := decodeLoop_of_no_room hv.1 hahead hb hpre
    exact ⟨fun h => decodedTo_of_raised (hover h.ge), fun hlt h => decodedTo_of_raised (hout hlt h)⟩
  · intro hno h32
    have hend := decodeLoop_of_corrupt hahead hno (List.length_pos_iff.mp (by omega)) syms.length
    rw [Nat.min_eq_right h32] at hend
    exact decodedTo_of_raised hend
  · intro hno h1 h32
    have hend := decodeLoop_of_corrupt hahead hno (List.length_pos_iff.mp h1) syms.length
    rw [Nat.min_eq_left h32.le, ← hcount] at hend
    exact decodedTo_of_raised hend

/-- Settles O56: where no code begins another, the greedy match gives every present symbol, and no bits are left. -/
theorem decodeRecoversSymbols : Obligations.DecodeRecoversSymbols := by
  unfold Obligations.DecodeRecoversSymbols
  refine ⟨decode_encode .decode, fun s syms hv hpf hpresent hlen hr hbits hcap hdmem hclear => ?_⟩
  have hbits' : storedBits s s.opSrc s.opBitcnt = codesOf s.code syms ++ [] := by rw [hbits, List.append_nil, codesOf]
  have hcount : (codesOf s.code syms).length = s.opBitcnt := by
    rw [← storedBits_length s s.opSrc s.opBitcnt, hbits, codesOf]
  have hexec := exec_decode_of_symbols hv hlen hr (fun b hb => hpf.firstMatch (hpresent b hb)) hbits' hcap
    (fun n hn => by omega) hclear
  obtain ⟨hstate, hsyms, hread⟩ := decoded_decodedTo s syms (codesOf s.code syms).length none
  refine ⟨_, hexec, hstate.trans ?_, hsyms, hread⟩
  have hpos : BitVec.ofNat 64 s.opBitcnt = s.op.args.bitcnt := ofNat_toNat_self _
  rw [hcount, hpos]
  rfl

end Sys2Proof.Machine
end

section
/-! SUPPORT. BBFLUSH behind an ENCODE, and DECODE of what they stored (44_bitbuffer.md R402; 43_huffman.md R338). -/

namespace Sys2Proof.Machine

/-! ### The flushed stream -/

/-- A command that completed with ERR clear met no error (60_exceptions.md R502). -/
theorem exec_without_error {i : Instr} {s t : State} (h : exec i s = .next t) (herr : t.status.err = false) :
    (ruleOf i s).error = none ∧ t = (ruleOf i s).state.complete none := by
  rw [exec_next_iff] at h
  have hnone : (ruleOf i s).error = none := by
    rw [h, complete_status, status_complete_err, Bool.or_eq_false_iff] at herr
    simpa using herr.2
  exact ⟨hnone, hnone ▸ h⟩

theorem runEncode_of_ok {s : State} (hok : (runEncode s).error = none) : runEncode s = encodeLoop s s.opLen 0 := by
  unfold runEncode at hok ⊢
  split_ifs at hok ⊢
  · simp at hok
  · rfl

/-- The high bits of the padded byte are the carried ones (R402). -/
theorem padByte_bits (bb : BitBuffer) {k : Nat} (hk : k < bb.nbits.val) :
    (padByte bb).getLsbD (7 - k) = bb.acc.getLsbD (bb.nbits.val - 1 - k) := by
  have hn := bb.nbits.isLt
  rw [padByte, BitVec.getLsbD_shiftLeft, show 7 - k - (8 - bb.nbits.val) = bb.nbits.val - 1 - k by omega]
  simp only [show 7 - k < 8 by omega, show ¬ 7 - k < 8 - bb.nbits.val by omega, decide_true, decide_false, Bool.not_false,
    Bool.true_and]

theorem flushByte_stored (s : State) : storedBits (flushByte s) s.bb.outptr.toNat s.bb.nbits.val = s.bb.carried := by
  refine List.map_congr_left fun k hk => ?_
  have hk := List.mem_range.mp hk
  have hn := s.bb.nbits.isLt
  have hbyte : (flushByte s).readByte s.bb.outptr.toNat = padByte s.bb := readByte_writeByte_same s _ _
  rw [streamBit, Nat.div_eq_of_lt (by omega), Nat.add_zero, hbyte, Nat.mod_eq_of_lt (by omega), padByte_bits s.bb hk]

/-- What a BBFLUSH that met no error leaves in `u`: BITCNT is the number of the appended bits, the carried bits are stored behind the
completed bytes, and the bytes below them stay (R402). -/
structure Flushed (s u : State) : Prop where
  bitcnt : u.regs.bitcnt = s.bb.tot
  outcnt : u.bb.outcnt.toNat = s.bb.outcnt.toNat + (s.bb.nbits.val + 7) / 8
  inDmem : s.bb.outptr.toNat ≤ s.params.dmemSize → s.bb.outptr.toNat + (s.bb.nbits.val + 7) / 8 ≤ s.params.dmemSize
  stored : storedBits u s.bb.outptr.toNat s.bb.nbits.val = s.bb.carried
  kept : ∀ a, a < s.bb.outptr.toNat → u.readByte a = s.readByte a

theorem runBbflush_flushed {s : State} (hok : (runBbflush s).error = none) : Flushed s (runBbflush s).state := by
  unfold runBbflush at hok ⊢
  split_ifs at hok ⊢ with h0 hover hout
  · have hval : s.bb.nbits.val = 0 := congrArg Fin.val h0
    refine ⟨rfl, ?_, fun hend => ?_, ?_, fun _ _ => rfl⟩
    · rw [hval]; rfl
    · rwa [hval]
    · rw [BitBuffer.carried, hval]; rfl
  · simp at hok
  · simp at hok
  · have hpos : s.bb.nbits.val ≠ 0 := fun h => h0 (Fin.ext h)
    have hlimit := s.bb.limit.isLt
    have hone : (s.bb.nbits.val + 7) / 8 = 1 := by omega
    have hr : s.bb.outptr.toNat + 1 ≤ s.params.dmemSize := (state_inRange_iff ..).mp (by simpa using hout)
    refine ⟨rfl, ?_, fun _ => by rwa [hone], flushByte_stored s, fun a ha => readByte_writeByte_of_ne s (by omega) _⟩
    rw [hone]
    exact toNat_add_bytes (k := 1) (by omega)

/-- The bits of a stream opened at a byte boundary, once BBFLUSH has stored the last of them (R404). -/
theorem Appends.stored_of_flushed {s t u : State} {bits : List Bool} (h : Appends s t bits) (hopen : s.bb.nbits = 0)
    (hf : Flushed t u) : storedBits u s.bb.outptr.toNat bits.length = bits := by
  have hzero : s.bb.nbits.val = 0 := congrArg Fin.val hopen
  have hbits := h.stored
  have hptr := h.outptr
  have hnbits := h.nbits
  have hnone : s.bb.carried = [] := by rw [BitBuffer.carried, hzero]; rfl
  rw [hzero, Nat.zero_add] at hbits hptr hnbits
  have hsplit : bits.length = 8 * (bits.length / 8) + t.bb.nbits.val := by omega
  have hold : storedBits u s.bb.outptr.toNat (8 * (bits.length / 8)) = storedBits t s.bb.outptr.toNat (8 * (bits.length / 8)) :=
    storedBits_congr fun b _ hb => hf.kept b (by omega)
  rw [hsplit, storedBits_add, hold, ← hptr, hf.stored, hbits, hnone, List.nil_append]

/-! ### There and back -/

/-- The bit buffer holds no bit and has stored no byte: a fresh stream (R400). -/
structure FreshStream (bb : BitBuffer) : Prop where
  nbits : bb.nbits = 0
  acc : bb.acc = 0
  tot : bb.tot = 0
  outcnt : bb.outcnt = 0

/-- What ENCODE into a fresh stream and BBFLUSH leave for DECODE: the codes of the region's bytes, their number, and the table
(R338). -/
structure Encoded (s u : State) (codes : List Bool) : Prop where
  stored : storedBits u s.bb.outptr.toNat codes.length = codes
  bitcnt : u.regs.bitcnt.toNat = codes.length
  outcnt : u.bb.outcnt.toNat = (codes.length + 7) / 8
  inDmem : s.bb.outptr.toNat + (codes.length + 7) / 8 ≤ s.params.dmemSize
  code : u.code = s.code
  params : u.params = s.params

/-- Appended and flushed bits, counted (R404). -/
theorem Appends.encoded {s t u : State} {codes : List Bool} (h : Appends s t codes) (hfresh : FreshStream s.bb) (hf : Flushed t u)
    (hend : t.bb.outptr.toNat ≤ s.params.dmemSize) (htparams : t.params = s.params) (hcode : u.code = s.code)
    (hparams : u.params = s.params) : Encoded s u codes := by
  have hzero : s.bb.nbits.val = 0 := congrArg Fin.val hfresh.nbits
  have hcnt : s.bb.outcnt.toNat = 0 := congrArg BitVec.toNat hfresh.outcnt
  have hptr := h.outptr
  have hbytes := h.outcnt
  have hrest := h.nbits
  have hflushed := hf.outcnt
  have hsmall := u.bb.outcnt.isLt
  have hinside := hf.inDmem (htparams ▸ hend)
  have htotal : u.regs.bitcnt = BitVec.ofNat 64 codes.length := by
    rw [hf.bitcnt, h.tot, hfresh.tot]
    exact BitVec.zero_add _
  rw [htparams] at hinside
  refine ⟨h.stored_of_flushed hfresh.nbits hf, ?_, by omega, by omega, hcode, hparams⟩
  rw [htotal, BitVec.toNat_ofNat]
  omega

theorem encoded_of_no_error {s t u : State} (hp : s.params.wellFormed = true) (h1 : 1 ≤ s.opLen) (hfresh : FreshStream s.bb)
    (ht : exec .encode s = .next t) (hterr : t.status.err = false) (hu : exec .bbflush t = .next u)
    (huerr : u.status.err = false) (hclear : Disjoint s.opSrc s.opLen s.bb.outptr.toNat u.bb.outcnt.toNat) :
    Encoded s u (codesOf s.code (s.readBytes s.opSrc s.opLen)) := by
  obtain ⟨hencode, ht⟩ := exec_without_error ht hterr
  obtain ⟨hflush, hu⟩ := exec_without_error hu huerr
  have hflushFrame := ruleOf_frame .bbflush t
  have hframe := encodeLoop_onlyEncode s s.opLen 0
  have hrun : ruleOf .encode s = encodeLoop s s.opLen 0 := runEncode_of_ok hencode
  rw [hrun] at hencode ht
  have hf : Flushed t u := by
    obtain ⟨hbitcnt, houtcnt, hinDmem, hstored, hkept⟩ := runBbflush_flushed hflush
    rw [hu]
    exact ⟨hbitcnt, houtcnt, hinDmem, hstored, hkept⟩
  have hcount := hf.outcnt
  have htb : t.bb = (encodeLoop s s.opLen 0).state.bb := by rw [ht]; rfl
  have hacc : s.bb.acc.toNat < 2 ^ s.bb.nbits.val := by rw [hfresh.acc, hfresh.nbits]; decide
  obtain ⟨happ, hend⟩ := encodeLoop_appends_of_ok hp hacc hencode (by omega) fun a ha hlt => by
    rw [← htb]
    unfold Disjoint at hclear
    omega
  have happ : Appends s t (codesOf s.code (s.readBytes s.opSrc s.opLen)) := by
    rw [ht]
    exact happ.around s.op _ s.encPos (encodeLoop s s.opLen 0).state.encPos s.status _
  have hparams : t.params = s.params := by rw [ht]; exact hframe.params
  have hcode : t.code = s.code := by rw [ht]; exact hframe.code
  refine happ.encoded hfresh hf (by rw [htb]; exact hend) hparams ?_ ?_
  · rw [hu, complete_code, hflushFrame]
    exact hcode
  · rw [hu, complete_params, hflushFrame]
    exact hparams

/-- Settles O58: the decoder's premises are what the encoder left. -/
theorem huffmanRoundTrip : Obligations.HuffmanRoundTrip := by
  unfold Obligations.HuffmanRoundTrip
  intro s t u args hp hv hpf h1 hnbits hacc htot hcnt herr hpresent ht hterr hu huerr hclear hsrc hlen hbitcnt hcap hdmem hdis
  obtain ⟨hstored, hbits, hbytes, hinside, hcode, hparams⟩ :=
    encoded_of_no_error hp h1 ⟨hnbits, hacc, htot, hcnt⟩ ht hterr hu huerr hclear
  obtain ⟨w, hw⟩ : ∃ w : State, w = { u with op := ⟨u.op.word, args⟩ } := ⟨_, rfl⟩
  have hwsrc : w.opSrc = s.bb.outptr.toNat := by rw [hw, ← hsrc]; rfl
  have hwlen : w.opLen = u.bb.outcnt.toNat := by rw [hw, ← hlen]; rfl
  have hwbits : w.opBitcnt = u.regs.bitcnt.toNat := by rw [hw, ← hbitcnt]; rfl
  have hwcode : w.code = s.code := by rw [hw, ← hcode]
  have hwparams : w.params = s.params := by rw [hw, ← hparams]
  have hwstatus : w.status = u.status := by rw [hw]
  have hargs : w.op.args = args := by rw [hw]
  have hsyms : (s.readBytes s.opSrc s.opLen).length = s.opLen := by simp [State.readBytes]
  rw [← hw]
  obtain ⟨v, hexec, hstate, hread, -⟩ := decodeRecoversSymbols.2 w (s.readBytes s.opSrc s.opLen) (hwcode ▸ hv) (hwcode ▸ hpf)
    (by rwa [hwcode]) (by omega) (by rw [hwparams]; omega)
    (by rw [hwsrc, hwbits, hbits, hwcode, hw]; exact hstored)
    (by rw [hsyms, State.opDstlen, hargs]; exact hcap)
    (by rw [hsyms, State.opDst, hargs, hwparams]; exact hdmem)
    (by rw [hsyms, State.opDst, hargs, hwsrc, hwbits, hbits, ← hbytes]; exact hdis)
  rw [hsyms] at hread hstate
  refine ⟨v, hexec, ?_, ?_, ?_, ?_⟩
  · rw [hstate, Status.succeeded, hwstatus]
    exact huerr
  · rw [hstate]
    exact ofNat_toNat_self _
  · rw [hstate, ← hargs]
  · rwa [State.opDst, hargs] at hread

end Sys2Proof.Machine
end

section
/-! SUPPORT. BBRESET and BBPUT: the checks, and the append of the latched pair (44_bitbuffer.md R400, R401, R403). -/

namespace Sys2Proof.Machine

/-- Settles O50: the rule is one update of the bit buffer. -/
theorem bbresetOpensStream : Obligations.BbresetOpensStream := by
  unfold Obligations.BbresetOpensStream
  exact ⟨decode_encode .bbreset, fun _ => rfl⟩

/-! ### The checks -/

theorem exec_bbput_of_long {s : State} (h : 32 < s.opPutlen) : FailsCleanly .bbput s 0x0A := by
  rw [FailsCleanly, exec_eq_finish, ruleOf, runBbput, if_pos h]
  rfl

theorem exec_bbput_of_short {s : State} (h : s.opPutlen ≤ 32) :
    exec .bbput s = (append s s.op.args.putbits s.opPutlen).finish := by
  rw [exec_eq_finish, ruleOf, runBbput, if_neg h.not_gt]

theorem exec_bbput_of_raised {s : State} {e : ErrorCode} (h32 : s.opPutlen ≤ 32)
    (h : append s s.op.args.putbits s.opPutlen = s.raised e) : FailsCleanly .bbput s e.code := by
  rw [FailsCleanly, exec_bbput_of_short h32, h]
  rfl

/-! ### The append -/

theorem Appends.complete {s t : State} {bits : List Bool} (h : Appends s t bits) (e : Option ErrorCode) :
    Appends s (t.complete e) bits :=
  h.around s.op t.op s.encPos t.encPos s.status (t.complete e).status

theorem pushBits_completes (s : State) (bits : Word) (l : Nat) :
    (pushBits s bits l).complete none =
      { s with mem := (pushBits s bits l).mem, bb := (pushBits s bits l).bb, status := s.status.succeeded } := by
  have hframe := pushBits_onlyStream s bits l
  generalize pushBits s bits l = t at hframe
  rw [hframe]
  rfl

/-- Settles O51: each failed check raises before any effect, and with room the latched pair's bits are pushed. -/
theorem bbputAppendsBits : Obligations.BbputAppendsBits := by
  unfold Obligations.BbputAppendsBits
  refine ⟨decode_encode .bbput, fun s => ⟨exec_bbput_of_long, fun h32 hover => ?_, fun h32 hcap hout => ?_,
    fun hp hacc h32 hcap hdmem => ?_⟩⟩
  · exact exec_bbput_of_raised h32 (append_of_overrun _ hover)
  · exact exec_bbput_of_raised h32 (append_of_outside _ hcap hout)
  · have happ := (pushBits_appends_of_hasRoom hp hacc ⟨hcap, hdmem⟩ s.op.args.putbits).complete none
    obtain ⟨hlimit, hptr, hcnt, hnbits, htot, hacc', hstored, hkept⟩ := happ
    rw [lowBits_length] at hptr hcnt hnbits htot hstored hkept
    exact ⟨_, exec_bbput_of_hasRoom h32 ⟨hcap, hdmem⟩, pushBits_completes .., hlimit, hptr, hcnt, hnbits, hacc', htot, hstored,
      hkept⟩

end Sys2Proof.Machine
end

section
/-! SUPPORT. BBFLUSH: the close of an empty buffer, the two checks, and the padded byte (44_bitbuffer.md R402). -/

namespace Sys2Proof.Machine

theorem runBbflush_of_empty {s : State} (h : s.bb.nbits = 0) : runBbflush s = (closeStream s).ok := if_pos h

theorem runBbflush_of_overrun {s : State} (h : s.bb.nbits ≠ 0) (hover : s.bb.limit.toNat < s.bb.outcnt.toNat + 1) :
    runBbflush s = s.raised .overrun := by
  rw [runBbflush, if_neg h, if_pos hover]

theorem runBbflush_of_outside {s : State} (h : s.bb.nbits ≠ 0) (hcap : s.bb.outcnt.toNat + 1 ≤ s.bb.limit.toNat)
    (hout : s.params.dmemSize < s.bb.outptr.toNat + 1) : runBbflush s = s.raised .addr := by
  have hr : s.inRange s.bb.outptr.toNat 1 = false := by
    rw [← Bool.not_eq_true, state_inRange_iff]
    exact hout.not_ge
  rw [runBbflush, if_neg h, if_neg hcap.not_gt, hr]
  rfl

theorem runBbflush_of_room {s : State} (h : s.bb.nbits ≠ 0) (hcap : s.bb.outcnt.toNat + 1 ≤ s.bb.limit.toNat)
    (hdmem : s.bb.outptr.toNat + 1 ≤ s.params.dmemSize) : runBbflush s = (closeStream (flushByte s)).ok := by
  rw [runBbflush, if_neg h, if_neg hcap.not_gt, (state_inRange_iff ..).mpr hdmem]
  rfl

theorem exec_bbflush_of_raised {s : State} {e : ErrorCode} (h : runBbflush s = s.raised e) : FailsCleanly .bbflush s e.code := by
  rw [FailsCleanly, exec_eq_finish, ruleOf, h]
  rfl

theorem padByte_toNat (bb : BitBuffer) : (padByte bb).toNat = bb.acc.toNat * 2 ^ (8 - bb.nbits.val) % 256 := by
  rw [padByte, BitVec.toNat_shiftLeft, Nat.shiftLeft_eq]

theorem readByte_flushByte (s : State) : (flushByte s).readByte s.bb.outptr.toNat = padByte s.bb :=
  readByte_writeByte_same s _ _

/-- Settles O52: the four branches of the rule. -/
theorem bbflushClosesStream : Obligations.BbflushClosesStream := by
  unfold Obligations.BbflushClosesStream
  refine ⟨decode_encode .bbflush, fun s => ⟨fun h => ?_, fun h hover => ?_, fun h hcap hout => ?_, fun h hcap hdmem => ?_⟩⟩
  · rw [exec_eq_finish, ruleOf, runBbflush_of_empty h]
    rfl
  · exact exec_bbflush_of_raised (runBbflush_of_overrun h hover)
  · exact exec_bbflush_of_raised (runBbflush_of_outside h hcap hout)
  · refine ⟨(closeStream (flushByte s)).complete none, ?_, rfl, ?_, fun a ha => ?_⟩
    · rw [exec_eq_finish, ruleOf, runBbflush_of_room h hcap hdmem]
      rfl
    · exact (congrArg BitVec.toNat (readByte_flushByte s)).trans (padByte_toNat s.bb)
    · exact readByte_writeByte_of_ne s (Ne.symm ha) _

end Sys2Proof.Machine
end

section
/-! SUPPORT. A whole stream: BBRESET, a run of BBPUTs, and BBFLUSH (44_bitbuffer.md R404). -/

namespace Sys2Proof.Machine

/-! ### A run of BBPUTs -/

/-- The bits that a run of BBPUTs appends. -/
def bitsOf (pairs : List (Word × BitVec 6)) : List Bool := pairs.flatMap fun p => lowBits p.1 p.2.toNat

theorem bitsOf_cons (p : Word × BitVec 6) (rest : List (Word × BitVec 6)) :
    bitsOf (p :: rest) = lowBits p.1 p.2.toNat ++ bitsOf rest := List.flatMap_cons

/-- `t` differs from `s` at most in DMEM, the bit buffer, the context, and STATUS besides ERR. -/
def OnlyPuts (s t : State) : Prop :=
  t = { s with mem := t.mem, bb := t.bb, op := t.op, status := { t.status with err := s.status.err } }

theorem OnlyPuts.refl (s : State) : OnlyPuts s s := Eq.refl _

theorem OnlyPuts.trans {s t u : State} (h : OnlyPuts s t) (h' : OnlyPuts t u) : OnlyPuts s u := by
  unfold OnlyPuts at *
  rw [h', h]

theorem OnlyStream.onlyPuts {s t : State} (h : OnlyStream s t) (c : Context) :
    OnlyPuts s (t.around c s.encPos s.status.succeeded) := by
  rw [h]
  exact Eq.refl _

theorem OnlyPuts.params {s t : State} (h : OnlyPuts s t) : t.params = s.params := by rw [h]

theorem OnlyPuts.code {s t : State} (h : OnlyPuts s t) : t.code = s.code := by rw [h]

theorem OnlyPuts.err {s t : State} (h : OnlyPuts s t) : t.status.err = s.status.err := by rw [h]

theorem putAll_cons {s : State} {p : Word × BitVec 6} (h32 : p.2.toNat ≤ 32) (hroom : HasRoom s p.2.toNat)
    (rest : List (Word × BitVec 6)) :
    putAll s (p :: rest) =
      putAll ((pushBits s p.1 p.2.toNat).around (putContext s ⟨p.1, p.2⟩) s.encPos s.status.succeeded) rest := by
  have hput : exec .bbput { s with op := ⟨s.op.word, { s.op.args with putbits := p.1, putlen := p.2 }⟩ } = _ :=
    exec_bbput_code (e := ⟨p.1, p.2⟩) h32 hroom
  rw [putAll, hput]

/-- The bits appended count against the room. -/
theorem Appends.hasRoom {s t : State} {x : List Bool} {n : Nat} (h : Appends s t x) (hparams : t.params = s.params)
    (hroom : HasRoom s (x.length + n)) : HasRoom t n := by
  obtain ⟨hcap, hdmem⟩ := hroom
  have hptr := h.outptr
  have hcnt := h.outcnt
  have hnbits := h.nbits
  exact ⟨by rw [h.limit]; omega, by rw [hparams]; omega⟩

/-- BBPUTs that have room for all their bits append them in order (R404). -/
theorem putAll_appends {s : State} {pairs : List (Word × BitVec 6)} (hp : s.params.wellFormed = true)
    (hacc : s.bb.acc.toNat < 2 ^ s.bb.nbits.val) (h32 : ∀ p ∈ pairs, p.2.toNat ≤ 32)
    (hroom : HasRoom s (bitsOf pairs).length) : Appends s (putAll s pairs) (bitsOf pairs) ∧ OnlyPuts s (putAll s pairs) := by
  induction pairs generalizing s with
  | nil => exact ⟨.refl hacc, .refl s⟩
  | cons p rest ih =>
    rw [List.forall_mem_cons] at h32
    rw [bitsOf_cons] at hroom ⊢
    have hlen := hroom
    rw [List.length_append, lowBits_length] at hlen
    have hfirst : HasRoom s p.2.toNat := ⟨by omega, by omega⟩
    rw [putAll_cons h32.1 hfirst]
    have happ := (pushBits_appends_of_hasRoom hp hacc hfirst p.1).around s.op (putContext s ⟨p.1, p.2⟩) s.encPos s.encPos
      s.status s.status.succeeded
    have hframe := (pushBits_onlyStream s p.1 p.2.toNat).onlyPuts (putContext s ⟨p.1, p.2⟩)
    generalize (pushBits s p.1 p.2.toNat).around (putContext s ⟨p.1, p.2⟩) s.encPos s.status.succeeded = t at happ hframe
    obtain ⟨hrest, hframe'⟩ := ih (s := t) (hframe.params ▸ hp) happ.acc_lt h32.2
      (happ.hasRoom hframe.params (by rwa [List.length_append] at hroom))
    exact ⟨happ.trans hrest, hframe.trans hframe'⟩

/-! ### The pad bits -/

theorem padByte_pad (bb : BitBuffer) {k : Nat} (hk : bb.nbits.val ≤ k) : (padByte bb).getLsbD (7 - k) = false := by
  rw [padByte, BitVec.getLsbD_shiftLeft, decide_eq_true (show 7 - k < 8 - bb.nbits.val by omega)]
  simp

theorem flushByte_pad (s : State) {k : Nat} (hk : s.bb.nbits.val ≤ k) (h8 : k < 8) :
    streamBit (flushByte s) s.bb.outptr.toNat k = false := by
  rw [streamBit, Nat.div_eq_of_lt h8, Nat.add_zero, readByte_flushByte, Nat.mod_eq_of_lt h8, padByte_pad s.bb hk]

/-- Stored bits that end in zeros. -/
theorem storedBits_of_pad {s : State} {a m n : Nat} (hmn : m ≤ n) (h : ∀ k, m ≤ k → k < n → streamBit s a k = false) :
    storedBits s a n = storedBits s a m ++ List.replicate (n - m) false := by
  obtain ⟨d, rfl⟩ := Nat.exists_eq_add_of_le hmn
  have hpad : (List.range d).map (fun k => streamBit s a (m + k)) = List.replicate d false :=
    List.eq_replicate_iff.mpr ⟨by simp, by
      rw [List.forall_mem_map]
      exact fun k hk => h _ (Nat.le_add_right m k) (Nat.add_lt_add_left (List.mem_range.mp hk) m)⟩
  rw [storedBits, List.range_add, List.map_append, List.map_map, Nat.add_sub_cancel_left, ← hpad]
  rfl

/-- BBFLUSH with room for the carried bits, padded to a byte, meets no error and stores zeros behind them (R402). -/
theorem runBbflush_pads {s : State} (hroom : HasRoom s 7) :
    (runBbflush s).error = none ∧ ∀ k, s.bb.nbits.val ≤ k → k < 8 * ((s.bb.nbits.val + 7) / 8) →
      streamBit (runBbflush s).state s.bb.outptr.toNat k = false := by
  obtain ⟨hcap, hdmem⟩ := hroom
  by_cases h : s.bb.nbits = 0
  · have hval : s.bb.nbits.val = 0 := congrArg Fin.val h
    rw [runBbflush_of_empty h]
    exact ⟨rfl, fun k _ hk => absurd hk (by omega)⟩
  · have hval : s.bb.nbits.val ≠ 0 := fun hz => h (Fin.ext hz)
    rw [runBbflush_of_room h (by omega) (by omega)]
    exact ⟨rfl, fun k hk h8 => flushByte_pad s hk (by omega)⟩

/-- The appended bits of a stream opened at a byte boundary, and the pad behind them, once BBFLUSH has stored both (R404). -/
theorem Appends.padded_of_flushed {s t u : State} {bits : List Bool} (h : Appends s t bits) (hopen : s.bb.nbits = 0)
    (hf : Flushed t u)
    (hpad : ∀ k, t.bb.nbits.val ≤ k → k < 8 * ((t.bb.nbits.val + 7) / 8) → streamBit u t.bb.outptr.toNat k = false) :
    storedBits u s.bb.outptr.toNat (8 * ((bits.length + 7) / 8)) =
      bits ++ List.replicate (8 * ((bits.length + 7) / 8) - bits.length) false := by
  have hzero : s.bb.nbits.val = 0 := congrArg Fin.val hopen
  have hptr := h.outptr
  have hnbits := h.nbits
  rw [hzero, Nat.zero_add] at hptr hnbits
  have hzeros (k : Nat) (hk : bits.length ≤ k) (hlt : k < 8 * ((bits.length + 7) / 8)) :
      streamBit u s.bb.outptr.toNat k = false := by
    obtain ⟨j, rfl⟩ := Nat.exists_eq_add_of_le (show 8 * (bits.length / 8) ≤ k by omega)
    rw [streamBit_add, ← hptr]
    exact hpad j (by omega) (by omega)
  rw [storedBits_of_pad (by omega) hzeros, h.stored_of_flushed hopen hf]

/-! ### From BBRESET to BBFLUSH -/

/-- BBPUTs into a fresh stream that has room for their bits, padded to a byte, and BBFLUSH (R404). -/
theorem exec_bbflush_putAll {s : State} {pairs : List (Word × BitVec 6)} (hp : s.params.wellFormed = true)
    (hfresh : FreshStream s.bb) (h32 : ∀ p ∈ pairs, p.2.toNat ≤ 32) (hroom : HasRoom s ((bitsOf pairs).length + 7)) :
    ∃ u, exec .bbflush (putAll s pairs) = .next (u.complete none) ∧ u.status.err = s.status.err ∧ Encoded s u (bitsOf pairs) ∧
      storedBits u s.bb.outptr.toNat (8 * (((bitsOf pairs).length + 7) / 8)) =
        bitsOf pairs ++ List.replicate (8 * (((bitsOf pairs).length + 7) / 8) - (bitsOf pairs).length) false := by
  have hacc : s.bb.acc.toNat < 2 ^ s.bb.nbits.val := by rw [hfresh.acc, hfresh.nbits]; decide
  obtain ⟨happ, hputs⟩ := putAll_appends hp hacc h32 ⟨by omega, by omega⟩
  have hleft := happ.hasRoom hputs.params hroom
  obtain ⟨hok, hpad⟩ := runBbflush_pads hleft
  have hf := runBbflush_flushed hok
  have hframe := ruleOf_frame .bbflush (putAll s pairs)
  refine ⟨(runBbflush (putAll s pairs)).state, ?_, ?_, ?_, happ.padded_of_flushed hfresh.nbits hf hpad⟩
  · rw [exec_eq_finish, finish_eq, ruleOf, hok]
  · exact (congrArg (·.status.err) hframe).trans hputs.err
  · exact happ.encoded hfresh hf (hputs.params ▸ (Nat.le_add_right _ _).trans hleft.2) hputs.params
      ((congrArg State.code hframe).trans hputs.code) ((congrArg State.params hframe).trans hputs.params)

/-- BBRESET leaves nothing carried, stored or counted (R400). -/
theorem bbresetBody_fresh (s : State) : FreshStream (bbresetBody s).bb := ⟨rfl, rfl, rfl, rfl⟩

theorem bbresetBody_hasRoom {s : State} {n : Nat} (hcap : n / 8 ≤ s.opDstlen) (hdmem : s.opDst + n / 8 ≤ s.params.dmemSize) :
    HasRoom (bbresetBody s) n := by
  change 0 + (0 + n) / 8 ≤ s.opDstlen ∧ s.opDst + (0 + n) / 8 ≤ s.params.dmemSize
  rw [Nat.zero_add, Nat.zero_add]
  exact ⟨hcap, hdmem⟩

/-- Settles O53: BBRESET leaves a fresh stream at DST with room for DSTLEN bytes. -/
theorem bitStreamIsExact : Obligations.BitStreamIsExact := by
  unfold Obligations.BitStreamIsExact
  rintro s0 s pairs _ hp hreset h32 rfl hcap hdmem
  have hs : s = (bbresetBody s0).complete none := (exec_next_iff ..).mp hreset
  obtain ⟨u, hflush, herr, hencoded, hstored⟩ :=
    exec_bbflush_putAll (s := (bbresetBody s0).complete none) hp (bbresetBody_fresh s0) h32 (bbresetBody_hasRoom hcap hdmem)
  rw [hs]
  exact ⟨u.complete none, hflush, herr, hencoded.bitcnt, hencoded.outcnt, hstored⟩

end Sys2Proof.Machine
end

section
/-! SUPPORT. The per-block pipeline: the fused commands' checks, and their stages as commands of their own (45_pipeline.md R430 to R432).  No
stage reads STATUS, so the completions between the separate commands change nothing that a later stage works on. -/

namespace Sys2Proof.Machine

/-! ### A stage after another command -/

theorem complete_none_complete_none (s : State) : (s.complete none).complete none = s.complete none := rfl

theorem writeCells_complete (s : State) (e : Option ErrorCode) {n : Nat} (addr : Fin n → Nat) (v : Tab Byte n) :
    (s.complete e).writeCells addr v = (s.writeCells addr v).complete e := by
  unfold State.writeCells
  induction List.finRange n generalizing s with
  | nil => rfl
  | cons i rest ih => exact ih (s.writeByte (addr i) (v.get i))

theorem zzscanBody_complete (s : State) (e : Option ErrorCode) : zzscanBody (s.complete e) = (zzscanBody s).complete e :=
  writeCells_complete s e ..

theorem reconBody_complete (s : State) (e : Option ErrorCode) : reconBody (s.complete e) = (reconBody s).complete e :=
  writeCells_complete s e ..

theorem exec_quant_of_completed {s : State} (h : ∀ i, F64.isFinite (s.coef.get i) = true) :
    exec .quant (s.complete none) = .next ((quantBody s).complete none) :=
  exec_quant_of_finite h

theorem exec_zzscan_of_completed {s : State} (h : s.opDst + 64 ≤ s.params.dmemSize) :
    exec .zzscan (s.complete none) = .next ((zzscanBody s).complete none) := by
  rw [exec_zzscan_of_inRange (s := s.complete none) h, zzscanBody_complete, complete_none_complete_none]

theorem exec_dequant_of_completed (s : State) : exec .dequant (s.complete none) = .next ((dequantBody s).complete none) :=
  exec_dequant _

theorem exec_idct_of_completed (s : State) : exec .idct (s.complete none) = .next ((idctBody s).complete none) :=
  exec_eq_finish .idct _

theorem exec_recon_of_completed {s : State} (h : BlockExists s s.opDst) (hn : ∀ i, F64.isNaN (s.coef.get i) = false) :
    exec .recon (s.complete none) = .next ((reconBody s).complete none) := by
  rw [exec_recon_of_block (s := s.complete none) h hn, reconBody_complete, complete_none_complete_none]

/-! ### BLKENC -/

theorem exec_blkenc_of_no_block {s : State} (h : ¬ BlockExists s s.opSrc) : FailsCleanly .blkenc s 0x03 := by
  have hb : s.blockInRange s.opSrc = false := by rwa [← Bool.not_eq_true, blockInRange_iff_blockExists]
  rw [FailsCleanly, exec_eq_finish, ruleOf, runBlkenc, hb]
  rfl

theorem exec_blkenc_of_outside {s : State} (hb : BlockExists s s.opSrc) (h : s.params.dmemSize < s.opDst + 64) :
    FailsCleanly .blkenc s 0x03 := by
  have hr : s.inRange s.opDst 64 = false := by rw [← Bool.not_eq_true, state_inRange_iff]; omega
  rw [FailsCleanly, exec_eq_finish, ruleOf, runBlkenc, blockInRange_iff_blockExists.mpr hb, hr]
  rfl

theorem exec_blkenc_of_room {s : State} (hb : BlockExists s s.opSrc) (h : s.opDst + 64 ≤ s.params.dmemSize) :
    exec .blkenc s = .next ((blkencBody s).complete none) := by
  rw [exec_eq_finish, ruleOf, runBlkenc, blockInRange_iff_blockExists.mpr hb, (state_inRange_iff ..).mpr h]
  rfl

/-- BLKENC changes COEF, QBLK, DMEM and STATUS alone (R430). -/
theorem blkencBody_completes (s : State) :
    (blkencBody s).complete none =
      { s with
        mem := ((blkencBody s).complete none).mem
        coef := ((blkencBody s).complete none).coef
        qblk := ((blkencBody s).complete none).qblk
        status := s.status.succeeded } := by
  obtain ⟨m, c, q, h⟩ : ∃ m c q, blkencBody s = { s with mem := m, coef := c, qblk := q } := ⟨_, _, _, blkencBody_frame s⟩
  rw [h]
  rfl

/-- The last stage writes DMEM alone, so COEF stays as FDCT leaves it (R430). -/
theorem blkencBody_coef (s : State) : (blkencBody s).coef = (fdctBody s).coef := by
  rw [blkencBody, zzscanBody_frame]
  rfl

theorem blkencBody_qblk (s : State) : (blkencBody s).qblk = (quantBody (fdctBody s)).qblk := by
  rw [blkencBody, zzscanBody_frame]

theorem readByte_blkencBody_cell (s : State) (k : Fin 64) :
    (blkencBody s).readByte (s.opDst + k.val) = (blkencBody s).qblk.get (zigzag.get k) := by
  rw [blkencBody_qblk]
  exact readByte_zzscanBody_cell (quantBody (fdctBody s)) k

theorem readByte_blkencBody {s : State} {a : Nat} (ha : ¬ FootprintWrites s a .blkenc) :
    (blkencBody s).readByte a = s.readByte a :=
  readByte_zzscanBody (s := quantBody (fdctBody s)) ha

/-- Settles O59: the checks in their order, then the stages' work.  With finite coefficients the separate commands end in the very state
BLKENC ends in, which the words of R432 about COEF, QBLK and DMEM are read off. -/
theorem blkencRunsItsStages : Obligations.BlkencRunsItsStages := by
  unfold Obligations.BlkencRunsItsStages
  refine ⟨decode_encode .blkenc, fun s => ⟨exec_blkenc_of_no_block, exec_blkenc_of_outside, fun hb hr => ?_⟩⟩
  refine ⟨(blkencBody s).complete none, (fdctBody s).complete none, exec_blkenc_of_room hb hr, blkencBody_completes s,
    exec_fdct_of_block hb, ?_, fun k => ?_, fun b hout => ?_, fun hfin => ?_⟩
  · rw [complete_coef, complete_coef, blkencBody_coef]
  · rw [complete_readByte, complete_qblk, readByte_blkencBody_cell]
  · rw [complete_readByte, readByte_blkencBody]
    rw [FootprintWrites]
    omega
  · exact ⟨(quantBody (fdctBody s)).complete none, (blkencBody s).complete none, exec_quant_of_completed hfin,
      exec_zzscan_of_completed (s := quantBody (fdctBody s)) hr, rfl, rfl, rfl⟩

/-! ### BLKDEC -/

theorem exec_blkdec_of_outside {s : State} (h : s.params.dmemSize < s.opSrc + 64) : FailsCleanly .blkdec s 0x03 := by
  have hr : s.inRange s.opSrc 64 = false := by rw [← Bool.not_eq_true, state_inRange_iff]; omega
  rw [FailsCleanly, exec_eq_finish, ruleOf, runBlkdec, hr]
  rfl

theorem exec_blkdec_of_no_block {s : State} (h : s.opSrc + 64 ≤ s.params.dmemSize) (hb : ¬ BlockExists s s.opDst) :
    FailsCleanly .blkdec s 0x03 := by
  have hb : s.blockInRange s.opDst = false := by rwa [← Bool.not_eq_true, blockInRange_iff_blockExists]
  rw [FailsCleanly, exec_eq_finish, ruleOf, runBlkdec, (state_inRange_iff ..).mpr h, hb]
  rfl

theorem exec_blkdec_of_block {s : State} (h : s.opSrc + 64 ≤ s.params.dmemSize) (hb : BlockExists s s.opDst) :
    exec .blkdec s = .next ((blkdecBody s).complete none) := by
  rw [exec_eq_finish, ruleOf, runBlkdec, (state_inRange_iff ..).mpr h, blockInRange_iff_blockExists.mpr hb]
  rfl

/-- BLKDEC changes QBLK, COEF, DMEM and STATUS, and the model's draws (R431). -/
theorem blkdecBody_completes (s : State) :
    (blkdecBody s).complete none =
      { s with
        mem := ((blkdecBody s).complete none).mem
        coef := ((blkdecBody s).complete none).coef
        qblk := ((blkdecBody s).complete none).qblk
        status := s.status.succeeded
        draws := ((blkdecBody s).complete none).draws } := by
  obtain ⟨m, c, q, d, h⟩ : ∃ m c q d, blkdecBody s = { s with mem := m, coef := c, qblk := q, draws := d } :=
    ⟨_, _, _, _, blkdecBody_frame s⟩
  rw [h]
  rfl

/-- The later stages leave QBLK as ZZUNSCAN does (R431). -/
theorem blkdecBody_qblk (s : State) : (blkdecBody s).qblk = (zzunscanBody s).qblk := by
  rw [blkdecBody, reconBody_frame]
  rfl

/-- The last stage writes DMEM alone, so COEF stays as IDCT leaves it, before the clamp (R431). -/
theorem blkdecBody_coef (s : State) : (blkdecBody s).coef = (idctBody (dequantBody (zzunscanBody s))).coef := by
  rw [blkdecBody, reconBody_frame]

/-- The stages before RECON write no operand and no parameter, so the destination block still exists. -/
theorem blkdecStages_blockExists {s : State} (h : BlockExists s s.opDst) :
    BlockExists (idctBody (dequantBody (zzunscanBody s))) (idctBody (dequantBody (zzunscanBody s))).opDst := by
  obtain ⟨q, c, d, hs⟩ := blkdecStages_frame s
  rw [hs]
  exact h

/-- Settles O60: the checks in their order, then the stages' work.  Without a NaN the separate commands end in the very state BLKDEC ends
in. -/
theorem blkdecRunsItsStages : Obligations.BlkdecRunsItsStages := by
  unfold Obligations.BlkdecRunsItsStages
  refine ⟨decode_encode .blkdec, fun s => ⟨exec_blkdec_of_outside, exec_blkdec_of_no_block, fun hr hb => ?_⟩⟩
  refine ⟨(blkdecBody s).complete none, (zzunscanBody s).complete none, (dequantBody (zzunscanBody s)).complete none,
    (idctBody (dequantBody (zzunscanBody s))).complete none, exec_blkdec_of_block hr hb, blkdecBody_completes s,
    exec_zzunscan_of_inRange hr, exec_dequant_of_completed _, exec_idct_of_completed _, ?_, ?_, fun a ha => ?_, fun hn => ?_⟩
  · rw [complete_qblk, complete_qblk, blkdecBody_qblk]
  · rw [complete_coef, complete_coef, blkdecBody_coef]
  · rw [complete_readByte]
    exact readByte_blkdecBody fun ⟨r, c, hrc⟩ => ha r c hrc
  · exact ⟨(blkdecBody s).complete none, exec_recon_of_completed (blkdecStages_blockExists hb) hn, rfl⟩

end Sys2Proof.Machine
end

section
/-! SUPPORT. NOP (46_system.md R450): its rule is the state it starts in, so its step is the completion alone. -/

namespace Sys2Proof.Machine

theorem exec_nop (s : State) : exec .nop s = .next (s.complete none) := exec_eq_finish .nop s

/-- Settles O29: word 0 encodes NOP, and a completion without an error writes BUSY and DONE. -/
theorem nopOnlyCompletes : Obligations.NopOnlyCompletes := by
  unfold Obligations.NopOnlyCompletes
  refine ⟨decode_encode .nop, fun s => ?_⟩
  rw [exec_nop, complete_none_eq_succeeded]

end Sys2Proof.Machine
end

section
/-! SUPPORT. The engine's turn as a step, and what its completion writes into STATUS (60_exceptions.md R500, R502, R545). -/

namespace Sys2Proof.Machine

theorem engineTurn_pending {s : State} {i : Instr} (hb : s.status.busy = true) (hd : decode s.op.word = .ok i) :
    engineTurn s = exec i s := by
  simp [engineTurn, hb, hd]

theorem engineTurn_idle {s : State} (hb : s.status.busy = false) : engineTurn s = .next s := by
  simp [engineTurn, hb]

theorem step_host {s : State} {o : HostOp} {rest : List Turn} (h : s.turns = .host o :: rest) :
    step s = hostTurn { s with turns := rest } o := by
  simp [step, takeTurn, h]

/-- Settles O4: a step takes the turn at the head of the list, and the engine's turn looks at BUSY, then at the pending word. -/
theorem stepRunsThePendingCommand : Obligations.StepRunsThePendingCommand := by
  unfold Obligations.StepRunsThePendingCommand
  refine fun s rest => ⟨fun h => ⟨step_engine h, fun i hb hd => ?_, fun hb => ?_⟩, fun o => step_host⟩
  · exact (step_engine h).trans (engineTurn_pending hb hd)
  · exact (step_engine h).trans (engineTurn_idle hb)

/-- The engine's turn on a pending command ends in a completion that finds STATUS as it was; an illegal word's is all there is to it. -/
theorem engineTurn_completes {s : State} (hb : s.status.busy = true) :
    ∃ (u : State) (e : Option ErrorCode), engineTurn s = .next (u.complete e) ∧ u.status = s.status ∧
      ((∀ i, decode s.op.word ≠ .ok i) → e = some .illegalCmd ∧ u = s) := by
  rcases engineTurn_cases s with ⟨hidle, -⟩ | ⟨i, -, hd, hturn⟩ | ⟨_, -, -, hturn⟩
  · rw [hb] at hidle; cases hidle
  · exact ⟨_, _, hturn.trans (exec_eq_finish i s), (ruleOf_keepsContext i s).status, fun h => absurd hd (h i)⟩
  · exact ⟨s, _, hturn, rfl, fun _ => ⟨rfl, rfl⟩⟩

theorem status_complete_some (st : Status) (c : ErrorCode) : st.complete (some c) = { st with
    busy := false
    done := true
    errcode := if st.err = false then c.code else st.errcode
    err := true } := by
  cases h : st.err <;> simp [Status.complete, h]

/-- Settles O6: whatever the turn did before it, completion writes STATUS from the value at acceptance. -/
theorem completionWritesStatus : Obligations.CompletionWritesStatus := by
  unfold Obligations.CompletionWritesStatus
  intro s hb
  obtain ⟨u, e, hturn, hstatus, hillegal⟩ := engineTurn_completes hb
  refine ⟨_, e, hturn, ?_, ?_, fun h => ?_⟩
  · rintro rfl
    rw [complete_status, hstatus, Status.complete]
  · rintro c rfl
    rw [complete_status, hstatus, status_complete_some]
  · obtain ⟨rfl, rfl⟩ := hillegal h
    exact ⟨rfl, rfl⟩

end Sys2Proof.Machine
end

section
/-! SUPPORT. The first error stays until the host clears it (60_exceptions.md R502, R510; 10_state.md R44). -/

namespace Sys2Proof.Machine

/-- `t` has ERR set, with the error that `s` has in ERRCODE. -/
def KeepsError (s t : State) : Prop := t.status.err = true ∧ t.status.errcode = s.status.errcode

theorem keepsError_of_status_eq {s t : State} (he : s.status.err = true) (h : t.status = s.status) : KeepsError s t := by
  rw [KeepsError, h]
  exact ⟨he, rfl⟩

theorem complete_keepsError {s u : State} (he : s.status.err = true) (h : u.status = s.status) (e : Option ErrorCode) :
    KeepsError s (u.complete e) := by
  rw [KeepsError, complete_status, h]
  cases e <;> simp [Status.complete, he]

theorem engineTurn_keepsError {s t : State} (he : s.status.err = true) (h : engineTurn s = .next t) : KeepsError s t := by
  cases hb : s.status.busy with
  | false =>
    rw [engineTurn_idle hb] at h
    cases h
    exact ⟨he, rfl⟩
  | true =>
    obtain ⟨u, e, hturn, hstatus, -⟩ := engineTurn_completes hb
    rw [hturn] at h
    cases h
    exact complete_keepsError he hstatus e

theorem writeOneToClear_keepsError {s : State} {v : Word} (he : s.status.err = true) (hv : v.getLsbD 2 = false) :
    KeepsError s (s.acknowledge v) := by
  rw [KeepsError, acknowledge_status, writeOneToClear_eq, hv]
  exact ⟨he, rfl⟩

/-- Of the register writes only those of STATUS and CTRL can clear ERR. -/
theorem regWrite_keepsError {s : State} {v : Word} {r : Reg} (he : s.status.err = true)
    (hstatus : r = .status → v.getLsbD 2 = false) (hctrl : r = .ctrl → v.getLsbD 1 = false) : KeepsError s (regWrite s v r) := by
  cases r
  case status => exact writeOneToClear_keepsError he (hstatus rfl)
  case ctrl =>
    rw [regWrite, writeCtrl, hctrl rfl]
    exact ⟨he, rfl⟩
  case cmd =>
    rw [regWrite, writeCmd]
    split <;> exact ⟨he, rfl⟩
  all_goals exact ⟨he, rfl⟩

theorem hostTurn_keepsError {s t : State} {o : HostOp} (he : s.status.err = true) (hclear : ¬ HostOp.clearsErr o)
    (h : hostTurn s o = .next t) : KeepsError s t := by
  rcases hostTurn_next_cases h with ht | ⟨off, v, rfl, h4, hlt, -, rfl⟩ | ⟨a, size, v, -, -, rfl⟩
  · exact keepsError_of_status_eq he (by rw [ht])
  · refine regWrite_keepsError he (fun hr => ?_) fun hr => ?_ <;> rw [← Bool.not_eq_true] <;> intro hv
    · exact hclear ⟨v, .inl ⟨⟨off, rfl, h4, hlt, hr⟩, hv⟩⟩
    · exact hclear ⟨v, .inr ⟨⟨off, rfl, h4, hlt, hr⟩, hv⟩⟩
  · exact keepsError_of_status_eq he (by rw [respond_status, writeWord_mem_only])

/-- Settles O15: the engine's completion and every other host access keep the first error. -/
theorem errorIsSticky : Obligations.ErrorIsSticky := by
  unfold Obligations.ErrorIsSticky
  intro s t h he hclear
  rcases step_cases s with ⟨-, e⟩ | ⟨rest, -, e⟩ | ⟨o, rest, ht, e⟩ <;> rw [e] at h
  · exact engineTurn_keepsError he h
  · exact engineTurn_keepsError (s := { s with turns := rest }) he h
  · exact hostTurn_keepsError (s := { s with turns := rest }) he (hclear o rest ht) h

end Sys2Proof.Machine
end

section
/-! SUPPORT. The registers outside a command's W(op) read as before (70_reset_and_hazards.md R620). -/

namespace Sys2Proof.Machine

theorem regValue_complete {r : Reg} (hr : r ≠ .status) (s : State) (e : Option ErrorCode) :
    regValue (s.complete e) r = regValue s r := by
  cases r
  case status => exact absurd rfl hr
  all_goals rfl

/-- A register outside W(op) shows none of the fields that the command's rule may write. -/
theorem regValue_withWritten {i : Instr} {r : Reg} (h : mayWrite r i = false) (s t : State) :
    regValue (withWritten i s t) r = regValue s r := by
  cases i
  case nop => rfl
  case recon | zzscan => cases r <;> rfl
  case qmset =>
    cases r
    case qm => cases h
    all_goals rfl
  case fdct | idct | dequant =>
    cases r
    case coefLo | coefHi => cases h
    all_goals rfl
  case quant | zzunscan =>
    cases r
    case qblk => cases h
    all_goals rfl
  case freqclr | freqacc =>
    cases r
    case freq => cases h
    all_goals rfl
  case treebuild =>
    cases r
    case codeBits | codeLen | nsym | maxlen => cases h
    all_goals rfl
  case bbreset | bbput =>
    cases r
    case outptr | bbOutcnt | bbLimit | bbState | bbtotLo | bbtotHi => cases h
    all_goals rfl
  case bbflush =>
    cases r
    case outptr | bbOutcnt | bbLimit | bbState | bbtotLo | bbtotHi | bitcntLo | bitcntHi => cases h
    all_goals rfl
  case encode =>
    cases r
    case outptr | bbOutcnt | bbLimit | bbState | bbtotLo | bbtotHi | encPos => cases h
    all_goals rfl
  case decode =>
    cases r
    case decOutlen | decBitposLo | decBitposHi => cases h
    all_goals rfl
  case blkenc | blkdec =>
    cases r
    case coefLo | coefHi | qblk => cases h
    all_goals rfl

/-- A command changes what the host reads in its W(op) and in STATUS alone. -/
theorem mayWrite_of_exec {i : Instr} {s t : State} {r : Reg} (h : exec i s = .next t) (hr : r ≠ .status)
    (hne : regValue t r ≠ regValue s r) : mayWrite r i = true := by
  rw [← Bool.not_eq_false]
  intro hw
  refine hne ?_
  rw [(exec_next_iff i s t).mp h, regValue_complete hr, ruleOf_frame, regValue_withWritten hw]

theorem isQm_iff (r : Reg) : Reg.isQm r = true ↔ ∃ k, r = .qm k := by cases r <;> simp [Reg.isQm]

theorem isCoef_iff (r : Reg) : Reg.isCoef r = true ↔ ∃ k, r = .coefLo k ∨ r = .coefHi k := by cases r <;> simp [Reg.isCoef]

theorem isQblk_iff (r : Reg) : Reg.isQblk r = true ↔ ∃ k, r = .qblk k := by cases r <;> simp [Reg.isQblk]

theorem isFreq_iff (r : Reg) : Reg.isFreq r = true ↔ ∃ k, r = .freq k := by cases r <;> simp [Reg.isFreq]

theorem isCode_iff (r : Reg) : Reg.isCode r = true ↔ ∃ k, r = .codeBits k ∨ r = .codeLen k := by cases r <;> simp [Reg.isCode]

theorem isBitBuffer_iff (r : Reg) :
    Reg.isBitBuffer r = true ↔ r ∈ [Reg.outptr, .bbOutcnt, .bbLimit, .bbState, .bbtotLo, .bbtotHi] := by
  cases r <;> simp [Reg.isBitBuffer]

/-- Settles O10: the frame of the command's rule is its W(op), and W(op) is the statement's table. -/
theorem commandsWriteOnlyTheirSet : Obligations.CommandsWriteOnlyTheirSet := by
  unfold Obligations.CommandsWriteOnlyTheirSet
  intro i s t r h hr hne
  have hw : mayWrite r i = true := mayWrite_of_exec h hr hne
  cases i
  case nop | recon | zzscan => cases hw
  all_goals
    simpa [mayWrite, isQm_iff, isCoef_iff, isQblk_iff, isFreq_iff, isCode_iff, isBitBuffer_iff, or_assoc] using hw

end Sys2Proof.Machine
end

section
/-! SUPPORT. The steps that stop (70_reset_and_hazards.md R620, R621). -/

namespace Sys2Proof.Machine

theorem engineTurn_goes (s : State) : Goes (engineTurn s) := by
  cases hb : s.status.busy with
  | false => exact ⟨s, engineTurn_idle hb⟩
  | true =>
    obtain ⟨u, e, hturn, -⟩ := engineTurn_completes hb
    exact ⟨_, hturn⟩

theorem busy_of_inFootprint {s : State} {a : Nat} (h : s.inFootprint a = true) : s.status.busy = true := by
  obtain ⟨i, ⟨hb, -⟩, -⟩ := (inFootprint_iff s a).mp h
  exact hb

theorem hostMemWrite_stops {s : State} {a size : Nat} {v : Word} (h : ¬ Goes (hostMemWrite s a size v)) :
    s.status.busy = true ∧ hostMemWrite s a size v = .fault .hazardFootprint := by
  unfold hostMemWrite at h ⊢
  split_ifs at h ⊢ with _ hz
  · exact absurd ⟨_, rfl⟩ h
  · obtain ⟨j, -, hj⟩ := List.any_eq_true.mp hz
    exact ⟨busy_of_inFootprint hj, rfl⟩
  · exact absurd ⟨_, rfl⟩ h

theorem hostTurn_stops {s : State} {o : HostOp} (h : ¬ Goes (hostTurn s o)) :
    s.status.busy = true ∧ HostOp.isWrite o = true ∧ ∃ f, hostTurn s o = .fault f := by
  cases o with
  | regRead off size => exact absurd ⟨_, rfl⟩ h
  | memRead a size => exact absurd ⟨_, rfl⟩ h
  | regWrite off size v =>
    rcases hostRegWrite_cases s off size v with ⟨-, hw⟩ | ⟨f, -, hb, -, hw⟩ | ⟨-, -, hw⟩
    · exact absurd ⟨_, hw⟩ h
    · exact ⟨hb, rfl, f, hw⟩
    · exact absurd ⟨_, hw⟩ h
  | memWrite a size v =>
    obtain ⟨hb, hw⟩ := hostMemWrite_stops h
    exact ⟨hb, rfl, _, hw⟩

/-- Settles O17: the engine's turn always goes on, and so does the host's unless its access is a hazard. -/
theorem onlyHazardousWritesStop : Obligations.OnlyHazardousWritesStop := by
  unfold Obligations.OnlyHazardousWritesStop
  intro s h
  rcases step_cases s with ⟨-, e⟩ | ⟨rest, -, e⟩ | ⟨o, rest, ht, e⟩
  · exact absurd (e ▸ engineTurn_goes s) h
  · exact absurd (e ▸ engineTurn_goes { s with turns := rest }) h
  · rw [e] at h ⊢
    obtain ⟨hb, hw, hf⟩ := hostTurn_stops h
    exact ⟨hb, ⟨o, rest, ht, hw⟩, hf⟩

end Sys2Proof.Machine
end

section
/-! SUPPORT. Register-port writes, above all while a command is pending (60_exceptions.md R501, R503; 70_reset_and_hazards.md R620). -/

namespace Sys2Proof.Machine

theorem writeCmd_idle {s : State} (hb : s.status.busy = false) (w : Word) : writeCmd s w = s.accept w := by
  rw [writeCmd, hb]
  rfl

theorem writeCmd_busy {s : State} (hb : s.status.busy = true) (w : Word) : writeCmd s w = { s with status := s.status.drop } :=
  if_pos hb

/-- A CMD write goes on, busy or idle. -/
theorem hostTurn_writeCmd (s : State) (w : Word) : hostTurn s (.regWrite 0x00C 4 w) = .next ((writeCmd s w).respond 0) :=
  hostTurn_regWrite (by decide) (by decide) fun _ => rfl

/-- Settles O7: a CMD write is no hazard, and BUSY decides between acceptance and a drop. -/
theorem commandWriteAcceptsOrDrops : Obligations.CommandWriteAcceptsOrDrops := by
  unfold Obligations.CommandWriteAcceptsOrDrops
  refine fun s w => ⟨_, hostTurn_writeCmd s w, fun hb => ?_, fun hb => ?_⟩
  · rw [writeCmd_idle hb]
    rfl
  · rw [writeCmd_busy hb]
    rfl

/-- A hazardous write while a command is pending stops. -/
theorem hostTurn_regWrite_hazard {s : State} {off : Nat} {v : Word} {f : Fault} (hb : s.status.busy = true) (h4 : off % 4 = 0)
    (hlt : off < 0x2000) (hz : regWriteHazard v (regAt off) = some f) : hostTurn s (.regWrite off 4 v) = .fault f := by
  have hok : regAccessOk off 4 = true := (regAccessOk_iff off 4).mpr ⟨rfl, h4, hlt⟩
  simp [hostTurn, hostRegWrite, hok, hb, hz]

/-- The windows that a write may not touch while a command is pending: FREQ, CODE, COEF and QBLK. -/
theorem regAt_hazardWindow (v : Word) {off : Nat} (h4 : off % 4 = 0) :
    (0x400 ≤ off ∧ off < 0x1000) ∨ (0x1100 ≤ off ∧ off < 0x1340) → regWriteHazard v (regAt off) = some .hazardWindow := by
  apply offset_cases (h4 := h4) (P := fun off =>
    (0x400 ≤ off ∧ off < 0x1000) ∨ (0x1100 ≤ off ∧ off < 0x1340) → regWriteHazard v (regAt off) = some .hazardWindow)
  case low | reserved | qm => intros; omega
  all_goals
    intro i _
    simp only [regAt_freq, regAt_codeBits, regAt_codeLen, regAt_coefLo, regAt_coefHi, regAt_qblk, regWriteHazard]

/-- A register that takes no data is no hazard to write, CTRL apart. -/
theorem regWriteHazard_of_noData {r : Reg} (hd : dataBits r = none) (hctrl : r ≠ .ctrl) (v : Word) : regWriteHazard v r = none := by
  cases r
  case ctrl => exact absurd rfl hctrl
  all_goals cases hd <;> rfl

/-- ID, the read-only registers, QM and the reserved offsets ignore a write, busy or idle. -/
theorem takes_ignored {off : Nat} (h4 : off % 4 = 0)
    (hoff : off = 0x000 ∨ (0x038 ≤ off ∧ off < 0x400) ∨ (0x1000 ≤ off ∧ off < 0x1100) ∨ (0x1340 ≤ off ∧ off < 0x2000))
    (s : State) (v : Word) : Takes s (.regWrite off 4 v) s := by
  have hr : dataBits (regAt off) = none ∧ regAt off ≠ .ctrl ∧ regAt off ≠ .status ∧ regAt off ≠ .cmd := by
    by_cases hres : 0x6C ≤ off ∧ off < 0x400 ∨ 0x1340 ≤ off
    · simp [regAt_reserved hres, dataBits]
    · exact regAt_ignored h4 (by omega)
  obtain ⟨hd, hctrl, hstatus, hcmd⟩ := hr
  exact takes_regWrite h4 (by omega) (fun _ => regWriteHazard_of_noData hd hctrl v)
    (regWrite_of_ignored hd hctrl hstatus hcmd s v)

/-- The eight operand registers from QUALITY to PUTLEN take their new value at once, busy or idle. -/
theorem takes_operandWrites (s : State) (v : Word) :
    ∀ p ∈ operandWrites s.regs v, Takes s (.regWrite p.1 4 v) { s with regs := p.2 } := by
  simp only [operandWrites, List.forall_mem_cons, List.not_mem_nil, false_implies, implies_true, and_true]
  and_intros <;> exact takes_regWrite (by decide) (by decide) (fun _ => rfl) rfl

/-- Without SRST a CTRL write sets IE alone, busy or idle. -/
theorem hostTurn_writeCtrl_noReset {s : State} {v : Word} (hv : v.getLsbD 1 = false) :
    hostTurn s (.regWrite 0x004 4 v) = .next (State.respond { s with ie := v.getLsbD 0 } 0) := by
  have hr : regAt 0x004 = .ctrl := rfl
  rw [hostTurn_regWrite (by decide) (by decide) fun _ => by rw [hr, regWriteHazard, hv]; rfl, hr, regWrite, writeCtrl, hv]
  rfl

theorem hostTurn_busy_softReset {s : State} {v : Word} (hb : s.status.busy = true) (hv : v.getLsbD 1 = true) :
    hostTurn s (.regWrite 0x004 4 v) = .fault .hazardSoftReset :=
  hostTurn_regWrite_hazard hb (by decide) (by decide) (if_pos hv)

/-- Settles O18: one lemma for each kind of register; that of STATUS is a part of O23, busy or idle. -/
theorem busyRegisterWrites : Obligations.BusyRegisterWrites := by
  unfold Obligations.BusyRegisterWrites
  intro s v hb
  obtain ⟨-, -, -, hstatus, -⟩ := irqFollowsDone
  refine ⟨?_, hostTurn_busy_softReset hb, fun hv => ⟨0, hostTurn_writeCtrl_noReset hv⟩, fun off h4 hoff => ?_,
    takes_operandWrites s v, hstatus s v, ⟨0, ?_⟩, fun off h4 hoff => takes_ignored h4 hoff s v⟩
  · rintro off (rfl | rfl) <;> exact hostTurn_regWrite_hazard hb (by decide) (by decide) rfl
  · exact hostTurn_regWrite_hazard hb h4 (by omega) (regAt_hazardWindow v h4 hoff)
  · rw [hostTurn_writeCmd, writeCmd_busy hb]
    rfl

end Sys2Proof.Machine
end

section
/-! SUPPORT. Register-port reads of what a pending command may write (70_reset_and_hazards.md R620, 20_memory.md R109). -/

namespace Sys2Proof.Machine

/-- A read of a register that the pending command may write is a draw (log entry 2). -/
theorem hostTurn_regRead_draw {s : State} {off : Nat} (h4 : off % 4 = 0) (hlt : off < 0x2000) (hw : s.inWriteSet (regAt off) = true) :
    hostTurn s (.regRead off 4) =
      .next { s with draws := s.draws + 1, resp := some ⟨Config.freeWord s.draws, false⟩ } := by
  have hok : regAccessOk off 4 = true := (regAccessOk_iff off 4).mpr ⟨rfl, h4, hlt⟩
  simp [hostTurn, hostRegRead, hok, hw, State.respond]

/-- Settles O19: the port draws exactly where the pending command's W(op) has the offset. -/
theorem busyReadsAreDraws : Obligations.BusyReadsAreDraws := by
  unfold Obligations.BusyReadsAreDraws
  intro s p hp
  obtain ⟨h4, hlt, hvalue⟩ := registerMap_value s p hp
  refine ⟨fun i hi hw => hostTurn_regRead_draw h4 hlt ((inWriteSet_iff s p.1 h4).mpr ⟨i, hi, hw⟩), fun hno => ?_⟩
  have hout : s.inWriteSet (regAt p.1) = false := by
    rw [← Bool.not_eq_true, inWriteSet_iff s p.1 h4]
    rintro ⟨i, hi, hw⟩
    exact hno i hi hw
  rw [hostTurn_regRead h4 hlt hout, hvalue]

end Sys2Proof.Machine
end

section
/-! SUPPORT. Power-on and soft reset (70_reset_and_hazards.md R600, R601). -/

namespace Sys2Proof.Machine

theorem powerOn_qm_ne_zero {p : Params} (hp : p.wellFormed = true) (i : Fin 64) : (State.powerOn p).qm.get i ≠ 0 := by
  have hb := qbase_ne_zero hp i
  simp only [State.powerOn, Tab.get_ofFn]
  bv_omega

theorem powerOn_legal {p : Params} (hp : p.wellFormed = true) : (State.powerOn p).Legal where
  params := hp
  mem := rfl
  qm := powerOn_qm_ne_zero hp
  bb := bitBuffer_reset_legal
  status := status_reset_legal
  lastop := show Status.reset.lastop = opcField 0 by decide
  pending hb := absurd hb Bool.false_ne_true
  nsym := Nat.zero_le _

theorem params_default_wellFormed : Params.default.wellFormed = true := by decide

/-- Settles O14: every field of the power-on state is legal, and the default parameters are. -/
theorem powerOnIsLegal : Obligations.PowerOnIsLegal := by
  unfold Obligations.PowerOnIsLegal
  exact ⟨fun _ => powerOn_legal, powerOn_legal params_default_wellFormed⟩

theorem status_reset_word : Status.reset.word = 0 := by decide

theorem bitBuffer_reset_stateWord : BitBuffer.reset.stateWord = 0 := by decide

theorem hi_zero : DWord.hi 0 = 0 := by decide

/-- Settles O27: the reset values of the registers (10_state.md R42 to R74), and the fields that no register shows. -/
theorem powerOnState : Obligations.PowerOnState := by
  unfold Obligations.PowerOnState
  refine ⟨rfl, fun p => ⟨fun r => ?_, rfl, rfl, rfl, fun _ => rfl⟩⟩
  cases r
  case status => exact status_reset_word
  case bbState => exact bitBuffer_reset_stateWord
  case bitcntHi | bbtotHi | decBitposHi => exact hi_zero
  case qm i =>
    simp only [regValue, State.powerOn, Tab.get_ofFn]
    exact BitVec.setWidth_setWidth (by decide)
  case freq | codeBits | codeLen | coefLo | coefHi | qblk => simp only [regValue, State.powerOn, Tab.get_fill] <;> rfl
  all_goals rfl

theorem regValue_softReset (s : State) (r : Reg) : regValue s.softReset r = regValue (State.powerOn s.params) r := by
  cases r <;> rfl

theorem hostTurn_idle_softReset {s : State} {v : Word} (hb : s.status.busy = false) (hv : v.getLsbD 1 = true) :
    hostTurn s (.regWrite 0x004 4 v) = .next (s.softReset.respond 0) := by
  have hr : regAt 0x004 = .ctrl := rfl
  rw [idle_regWrite hb (by decide) (by decide), hr, regWrite, writeCtrl, if_pos hv]

/-- Settles O28: a CTRL write's three cases. -/
theorem softResetKeepsOnlyDmem : Obligations.SoftResetKeepsOnlyDmem := by
  unfold Obligations.SoftResetKeepsOnlyDmem
  refine fun s v => ⟨fun hv hb => ⟨_, hostTurn_idle_softReset hb hv, rfl, rfl, status_reset_word, fun r => ?_, fun _ => rfl⟩,
    fun hv hb => hostTurn_busy_softReset hb hv, fun hv => ⟨_, hostTurn_writeCtrl_noReset hv, rfl⟩⟩
  rw [regValue_respond, regValue_softReset]

end Sys2Proof.Machine
end
